-- ==== Sys2Proof/Word.lean ====
section
/-! DEFINITION. The byte, and the two forms in which an operation is written down: an internal operation code with its
operand bytes (30_encoding.md R127, R134), or a command frame as it arrives on side H (R110 to R114). -/

namespace Sys2Proof

/-- The block moves whole bytes only (20_memory.md R81, R89). -/
abbrev Byte := BitVec 8

/-- An operation as words. `op` is an 8-bit internal operation code followed by operand bytes (the codes carry only the
direction, R134; the operand bytes are the model's own layout: DESIGN CHOICE, log entry 10). `frame` is a command frame,
first byte first (R111, R112). -/
inductive CodeWord where
  | op (code : Byte) (operands : List Byte)
  | frame (bytes : List Byte)
deriving DecidableEq, Repr

end Sys2Proof
end

