-- ==== Sys2Proof/Config.lean ====
section
/-! DEFINITION. The two serial sides, the configuration record, and the parameters of 00_scope.md R8. The parameters are a
record that State carries and no step writes, so that a statement about every state is one about every parameter value
(DESIGN CHOICE, log entry 1). Nothing the spec leaves open after an operation runs on needs an uninterpreted constant here. -/

namespace Sys2Proof

/-- A serial side: H is host-facing, P the peer (10_state.md R30). A direction is named by the side its bytes come in on. -/
inductive Side where
  | H
  | P
deriving DecidableEq, Repr

/-- `opp(H) = P`, `opp(P) = H` (00_scope.md, notation). -/
def Side.opp : Side → Side
  | .H => .P
  | .P => .H

/-- One value for each side or direction (`x[d]`, d in H, P). -/
structure PerSide (α : Type) where
  h : α
  p : α
deriving DecidableEq, Repr

/-- Read `x[d]`. -/
def PerSide.get {α : Type} (x : PerSide α) : Side → α
  | .H => x.h
  | .P => x.p

/-- Write `x[d] <- v`. -/
def PerSide.set {α : Type} (x : PerSide α) (d : Side) (v : α) : PerSide α :=
  match d with
  | .H => { x with h := v }
  | .P => { x with p := v }

/-- The same value on both sides. -/
def PerSide.both {α : Type} (v : α) : PerSide α := { h := v, p := v }

/-- The configuration record: six one-byte fields at offsets 0 to 5 (10_state.md R33, 30_encoding.md R115). -/
structure ConfigRecord where
  preamble : Byte
  addrHigh : Byte
  addrLow : Byte
  speed : Byte
  channel : Byte
  option : Byte
deriving DecidableEq, Repr

/-- `TIMER_SPEED_SIDE` (42_bridge_controller.md R208, decision D5). -/
inductive TimerSpeedSide where
  | inbound
  | outbound
deriving DecidableEq, Repr

/-- `PEER_DATA_SPEED` (42_bridge_controller.md R209, decision D7). -/
inductive PeerDataSpeed where
  | airRate
  | uartBaud
deriving DecidableEq, Repr

/-- `IDLE_RESET_ON` (42_bridge_controller.md R221, decision D42). -/
inductive IdleResetOn where
  | countChange
  | arrival
deriving DecidableEq, Repr

/-- The parameters of 00_scope.md R8 that are not fixed by the source. -/
structure Config where
  /-- `IDLE_THRESHOLD`, idle expirations before a flush. -/
  idleThreshold : Nat
  /-- `RING_CAP`, capacity of each ring buffer in bytes (OPEN). -/
  ringCap : Nat
  /-- `RX_CHUNK`, most bytes one non-blocking poll takes (OPEN). -/
  rxChunk : Nat
  /-- `CHAR_BITS`, bit times per character. -/
  charBits : Nat
  /-- `TIMER_SPEED_SIDE`. -/
  timerSpeedSide : TimerSpeedSide
  /-- `BOOT_BAUD`, the speed taken on entering Sleep. -/
  bootBaud : Nat
  /-- `SLEEP_SPEED_SIDE`, the side switched to `BOOT_BAUD`. -/
  sleepSpeedSide : Side
  /-- `PEER_DATA_SPEED`. -/
  peerDataSpeed : PeerDataSpeed
  /-- `CFG_RESET`, the configuration record at reset. -/
  cfgReset : ConfigRecord
  /-- `RESP_TERMINATOR`, appended to every response. -/
  respTerminator : List Byte
  /-- `BANNER`, the startup banner (OPEN). -/
  banner : List Byte
  /-- `DROP_CNT_WIDTH`, bits of each drop counter. -/
  dropCntWidth : Nat
  /-- `IDLE_RESET_ON`. -/
  idleResetOn : IdleResetOn
deriving DecidableEq, Repr

/-- The bounds R8 gives (`integer ≥ 1` for `IDLE_THRESHOLD`, `RING_CAP`, `RX_CHUNK`), and those a positive speed and a
positive period need (10_state.md R32; DEDUCED, log entry 28). -/
def Config.wf (p : Config) : Bool :=
  decide (1 ≤ p.idleThreshold) && decide (1 ≤ p.ringCap) && decide (1 ≤ p.rxChunk) &&
    decide (1 ≤ p.charBits) && decide (1 ≤ p.bootBaud)

/-- `CFG_RESET = C0 00 00 1A 17 44` (10_state.md R36, decision D8). -/
def referenceRecord : ConfigRecord :=
  { preamble := 0xC0, addrHigh := 0x00, addrLow := 0x00, speed := 0x1A, channel := 0x17, option := 0x44 }

/-- The reference values of R8 (log entry 2). The three OPEN parameters take the test values of 95_test_vectors.md:
`RING_CAP = 4`, `RX_CHUNK = 8`, `BANNER` empty (DESIGN CHOICE, log entry 1). -/
def Config.reference : Config :=
  { idleThreshold := 3, ringCap := 4, rxChunk := 8, charBits := 10, timerSpeedSide := .inbound,
    bootBaud := 9600, sleepSpeedSide := .H, peerDataSpeed := .airRate, cfgReset := referenceRecord,
    respTerminator := [], banner := [], dropCntWidth := 32, idleResetOn := .countChange }

/-- `SCRATCH_LEN`, the size of the Sleep-mode scratch buffer (R8, 10_state.md R42). -/
def scratchSize : Nat := 6

/-- `WRITE_PREAMBLE`, the first byte of a write frame (R8, 30_encoding.md R111). -/
def writePreamble : Byte := 0xC0

/-- `READ_BYTE`, each byte of the read frame (R8, 30_encoding.md R112). -/
def readByteCode : Byte := 0xC1

end Sys2Proof
end

