-- ==== Sys2Proof/Machine/SpeedTable.lean ====
section
/-! DEFINITION. The speed byte's fields, the two speed tables, and the speeds and idle period derived from them
(30_encoding.md R116 to R118, 42_bridge_controller.md R208, R209). All are functions of the record: nothing is cached (10_state.md R35). -/

namespace Sys2Proof.Machine

/-- An idle period in seconds, the exact fraction `bits / speed` (10_state.md R49; R208). -/
structure Period where
  bits : Nat
  speed : Nat
deriving DecidableEq, Repr

/-- Bits 2:0 of the speed byte (R116). -/
def airClass (speedByte : Byte) : BitVec 3 := speedByte.extractLsb' 0 3

/-- Bits 5:3 of the speed byte (R116). -/
def uartClass (speedByte : Byte) : BitVec 3 := speedByte.extractLsb' 3 3

/-- `AirRateTable` (R117); codes 101, 110 and 111 all give 19200 (41_config_store.md R180). -/
def airRateTable (code : BitVec 3) : Nat :=
  match code.toNat with
  | 0 => 300
  | 1 => 1200
  | 2 => 2400
  | 3 => 4800
  | 4 => 9600
  | _ => 19200

/-- `BaudTable` (R118). -/
def baudTable (code : BitVec 3) : Nat :=
  match code.toNat with
  | 0 => 1200
  | 1 => 2400
  | 2 => 4800
  | 3 => 9600
  | 4 => 19200
  | 5 => 38400
  | 6 => 57600
  | _ => 115200

/-- `AirDataRate` (10_state.md R35). -/
def airDataRate (cfg : ConfigRecord) : Nat := airRateTable (airClass cfg.speed)

/-- `UartBaud` (10_state.md R35). -/
def uartBaud (cfg : ConfigRecord) : Nat := baudTable (uartClass cfg.speed)

/-- `PeerSpeed(cfg)`, side P's speed in data mode (R209). -/
def peerSpeed (p : Config) (cfg : ConfigRecord) : Nat :=
  match p.peerDataSpeed with
  | .airRate => airDataRate cfg
  | .uartBaud => uartBaud cfg

/-- `TimerSide(d)` (R208). -/
def timerSide (p : Config) (d : Side) : Side :=
  match p.timerSpeedSide with
  | .inbound => d
  | .outbound => d.opp

/-- `Period(d) = CHAR_BITS / speed[TimerSide(d)]` (R208). -/
def periodOf (p : Config) (speed : PerSide Nat) (d : Side) : Period :=
  { bits := p.charBits, speed := speed.get (timerSide p d) }

end Sys2Proof.Machine
end

