-- ==== Sys2Proof/Syntax.lean ====
section
/-! DEFINITION. The operations of the block: one constructor for each row of spec/opcode_table.json. -/

namespace Sys2Proof

/-- ModeState, in the order of the 2-bit codes of 30_encoding.md R126. -/
inductive Mode where
  | normal
  | wakeUp
  | powerSaving
  | sleep
deriving DecidableEq, Repr

/-- The two modes with no implementation, the only operands of UNIMPL_STEP (42_bridge_controller.md R236). -/
inductive UnimplMode where
  | wakeUp
  | powerSaving
deriving DecidableEq, Repr

/-- Every row of spec/opcode_table.json, with the operands its rule gives it. -/
inductive Instr where
  /-- CMD_WRITE, wire frame `C0 a b c d e` (R175). -/
  | cmdWrite (a b c d e : Byte)
  /-- CMD_READ, wire frame `C1 C1 C1` (R176). -/
  | cmdRead
  /-- CMD_INVALID, any other frame (R177). -/
  | cmdInvalid (bytes : List Byte)
  /-- RB_ENQUEUE d, byte (R150). -/
  | rbEnqueue (d : Side) (byte : Byte)
  /-- RB_DEQUEUE d (R151). -/
  | rbDequeue (d : Side)
  /-- RB_DRAIN_ALL d (R152). -/
  | rbDrainAll (d : Side)
  /-- RB_AVAILABLE d (R153). -/
  | rbAvailable (d : Side)
  /-- CFG_SET_PARAMS bytes, len (R170); `len` is the length of the sequence. -/
  | cfgSetParams (bytes : List Byte)
  /-- CFG_GET_PARAMS (R171). -/
  | cfgGetParams
  /-- CFG_INPUT_COMMAND bytes, len (R174); `len` is the length of the sequence. -/
  | cfgInputCommand (bytes : List Byte)
  /-- CFG_AIR_RATE (R172). -/
  | cfgAirRate
  /-- CFG_UART_BAUD (R173). -/
  | cfgUartBaud
  /-- MODE_DECODE ms0, ms1 (R210). -/
  | modeDecode (ms0 ms1 : Bool)
  /-- MODE_TRANSITION mode (R212). -/
  | modeTransition (mode : Mode)
  /-- ENTER_SLEEP (R213). -/
  | enterSleep
  /-- LEAVE_SLEEP (R214). -/
  | leaveSleep
  /-- DIR_POLL d (R220). -/
  | dirPoll (d : Side)
  /-- DIR_SIZE_CHECK d (R221). -/
  | dirSizeCheck (d : Side)
  /-- DIR_EXPIRY d (R222). -/
  | dirExpiry (d : Side)
  /-- DIR_FLUSH d (R223). -/
  | dirFlush (d : Side)
  /-- NORMAL_SERVICE d (R224). -/
  | normalService (d : Side)
  /-- SLEEP_STEP (R230). -/
  | sleepStep
  /-- UNIMPL_STEP mode (R236). -/
  | unimplStep (mode : UnimplMode)
  /-- TICK (R240). -/
  | tick
  /-- STARTUP (R301). -/
  | startup
  /-- EV_TIMER_EXPIRE d (R268). -/
  | evTimerExpire (d : Side)
  /-- EV_RX_BYTE s, b (R269). -/
  | evRxByte (s : Side) (byte : Byte)
  /-- EV_RESET (R300). -/
  | evReset
deriving DecidableEq, Repr

end Sys2Proof
end

