-- ==== Sys2Proof/Machine/State.lean ====
section
/-! DEFINITION. The state of the block (10_state.md R32), the environment beside it (R55), the reasons a step stops, the
named updates, and the state after reset (70_reset_and_hazards.md R300). -/

namespace Sys2Proof.Machine

/-- Why the machine stops with a fault. -/
inductive Fault where
  /-- A storage byte that holds no value was read (20_memory.md R91): one never written, one outside the live window of its ring,
  or one at or above `scratch_len`. Raised by a read of a ring slot or scratch slot; safe: no rule reads such a byte, and no
  well-formed state reaches this. -/
  | unwrittenByte
  /-- A storage access at an index outside its array (20_memory.md R82: there is none). Raised by reads and writes of ring
  slots and scratch slots; safe, and no well-formed state reaches it. -/
  | indexOutside
  /-- The control loop was to step in phase HALTED (42_bridge_controller.md R243, 60_exceptions.md R263: HALTED is a fault);
  carries `STATUS.cause`. Raised by the step, never by the failing operation itself; safe: the block takes no step there. -/
  | ioHalted (cause : BitVec 3)
  /-- A control-loop operation was asked for in a phase in which the loop does not issue it: TICK outside RUN (R240), STARTUP
  outside STARTUP (R301), anything but the suspended SLEEP_STEP while the loop holds (R201), SLEEP_STEP and UNIMPL_STEP in STARTUP (R59). Safe: the block takes no such step. -/
  | notEnabled
deriving DecidableEq, Repr

/-- Why the machine gives a step no meaning. -/
inductive Refusal where
  /-- An instruction that has no meaning yet (raised by `exec` only; safe). -/
  | notModelled (mnemonic : String)
  /-- A reserved operation code (30_encoding.md R129). Raised by the step when it decodes; safe. -/
  | reservedCode (code : Byte)
  /-- Operand bytes that the operation does not take (the model's layout, log entry 10). Raised by the step when it
  decodes; safe: the block issues no such word. -/
  | wrongOperands (code : Byte)
  /-- The control loop was to step after a tick in WakeUp or PowerSaving (60_exceptions.md R265, 42_bridge_controller.md R243).
  Raised by the step, never by UNIMPL_STEP itself; safe. -/
  | unimplementedMode (mode : Option UnimplMode)
deriving DecidableEq, Repr

/-- A storage array (20_memory.md R80): the slots that hold a value, by index, strictly rising. An unlisted slot holds none: it
was never written, or lies outside the live window or at or above `scratch_len` (R91). -/
abbrev Memory := List Host.Cell

/-- The canonical form: indices strictly rising. An unlisted slot reads as no value, so no entry can equal what it reads as. -/
def Memory.wf : Memory → Bool
  | [] => true
  | [_] => true
  | x :: y :: m => decide (x.1 < y.1) && Memory.wf (y :: m)

/-- One ring buffer (10_state.md R37). -/
structure Ring where
  buf : Memory
  rd : Nat
  wr : Nat
  count : Nat
deriving DecidableEq, Repr

/-- The sequencer phase, which takes the place of a program counter (10_state.md R57, R58). -/
inductive Phase where
  | startup
  | run
  | sleepWait
  | halted
  | refused
deriving DecidableEq, Repr

/-- `STATUS` (10_state.md R53). Bits 7:5 are reserved and read as 0, so they are not stored. -/
structure StatusReg where
  halted : Bool
  unimpl : Bool
  cause : BitVec 3
deriving DecidableEq, Repr

/-- The failing primitive of an IO_FAILURE (60_exceptions.md R261). -/
inductive IoCause where
  | rdH
  | wrH
  | rdP
  | wrP
  | speed
  | line
  | timer
deriving DecidableEq, Repr

/-- What one primitive call does (R263; 93 I5, I6): it succeeds, or it fails having got as far as `effect` says: for a read or
a write that many bytes moved, for a call that sets a speed or a line, nonzero when the device took the new value. -/
inductive Draw where
  | ok
  | fails (effect : Nat)
deriving DecidableEq, Repr

/-- One output of the block as an observer sees it (60_exceptions.md R277). -/
inductive Output where
  | wrote (s : Side) (bytes : List Byte)
  | speedSet (s : Side) (speed : Nat)
  | statusSet (level : Bool)
deriving DecidableEq, Repr

/-- The environment's side of the interface (10_state.md R55): no state of the block. -/
structure Env where
  /-- `rxq[s]`, bytes that have arrived and not been read (42_bridge_controller.md R200). -/
  rxq : PerSide (List Byte)
  /-- Level of `MS0`. -/
  ms0 : Bool
  /-- Level of `MS1`. -/
  ms1 : Bool
  /-- Everything the block has given out, oldest first; `txs[s]` is computed from it. -/
  log : List Output
  /-- What the coming primitive calls do, next call first. Past the end of the list a call succeeds (log entry 4). -/
  draws : List Draw
deriving DecidableEq, Repr

/-- The result an operation returns to its caller (model's own field, log entry 8). -/
inductive OpResult where
  | nothing
  | bit (b : Bool)
  | optByte (b : Option Byte)
  | byteSeq (bytes : List Byte)
  | number (n : Nat)
  | mode (m : Mode)
deriving DecidableEq, Repr

/-- A move of one of the agents (10_state.md R31; log entry 3). -/
inductive Move where
  /-- The control loop takes its own next step, the one its phase names. -/
  | loop
  /-- The operation with this code word is run. -/
  | run (w : CodeWord)
  /-- The environment sets the two mode-select inputs (30_encoding.md R132, `LINES`). -/
  | lines (ms0 ms1 : Bool)
  /-- The environment settles what the coming primitive calls do (R132, `FAIL`). -/
  | draws (ds : List Draw)
deriving DecidableEq, Repr

/-- The machine: the block's state of 10_state.md R32, the parameters, the environment, and the model's own fields. -/
structure State where
  /-- The parameters of 00_scope.md R8; no step writes them. -/
  params : Config
  /-- `cfg[0..5]` (R33). -/
  cfg : ConfigRecord
  /-- `rb[d]` (R37). -/
  rb : PerSide Ring
  /-- `drop[d]` (R41). -/
  drop : PerSide Nat
  /-- `scratch[0..5]` (R42). -/
  scratch : Memory
  /-- `scratch_len` (R42). -/
  scratchLen : Nat
  /-- `prev_mode` (R45). -/
  prevMode : Mode
  /-- `idle[d]` (R46). -/
  idle : PerSide Nat
  /-- `last_count[d]` (R47). -/
  lastCount : PerSide Nat
  /-- `exp[d]` (R48). -/
  exp : PerSide Bool
  /-- `armed[d]` (R49). -/
  armed : PerSide Bool
  /-- `period[d]` (R49). -/
  period : PerSide Period
  /-- `speed[s]` (R50). -/
  speed : PerSide Nat
  /-- `status_out` (R51). -/
  statusOut : Bool
  /-- `STATUS` (R53). -/
  status : StatusReg
  /-- `phase` (R58). -/
  phase : Phase
  /-- `arrived[d]` (R220, R221), handed from DIR_POLL to DIR_SIZE_CHECK (log entry 9). -/
  arrived : PerSide Nat
  /-- The result of the last operation that returns one (log entry 8). -/
  result : OpResult
  /-- The mode of `refuse Unimplemented(mode)` (R236, R265; log entry 7). -/
  refusedMark : Option UnimplMode
  /-- The environment. -/
  env : Env
  /-- The moves to come, next first; when empty the control loop moves (log entry 3). -/
  agenda : List Move
deriving DecidableEq, Repr

/-! ## Named updates -/

/-- `rb[d] <- r`. -/
@[simps] def State.setRb (s : State) (d : Side) (r : Ring) : State := { s with rb := s.rb.set d r }

/-- `drop[d] <- n`. -/
@[simps] def State.setDrop (s : State) (d : Side) (n : Nat) : State := { s with drop := s.drop.set d n }

/-- `idle[d] <- n`. -/
@[simps] def State.setIdle (s : State) (d : Side) (n : Nat) : State := { s with idle := s.idle.set d n }

/-- `last_count[d] <- n`. -/
@[simps] def State.setLastCount (s : State) (d : Side) (n : Nat) : State :=
  { s with lastCount := s.lastCount.set d n }

/-- `exp[d] <- b`. -/
@[simps] def State.setExp (s : State) (d : Side) (b : Bool) : State := { s with exp := s.exp.set d b }

/-- `arrived[d] <- n`. -/
@[simps] def State.setArrived (s : State) (d : Side) (n : Nat) : State := { s with arrived := s.arrived.set d n }

/-- The effect of `TimerArm(d, p)` on the block (42_bridge_controller.md R206). -/
@[simps] def State.arm (s : State) (d : Side) (p : Period) : State :=
  { s with armed := s.armed.set d true, period := s.period.set d p, exp := s.exp.set d false }

/-- The effect of `TimerDisarm(d)` on the block (R207). -/
@[simps] def State.disarm (s : State) (d : Side) : State :=
  { s with armed := s.armed.set d false, exp := s.exp.set d false }

/-- `phase <- p`. -/
@[simps] def State.setPhase (s : State) (p : Phase) : State := { s with phase := p }

/-- `prev_mode <- m`. -/
@[simps] def State.setPrevMode (s : State) (m : Mode) : State := { s with prevMode := m }

/-- `cfg <- c`, all six fields at once (20_memory.md R89). -/
@[simps] def State.setCfg (s : State) (c : ConfigRecord) : State := { s with cfg := c }

/-- `scratch_len <- 0`. Every slot is then at or above `scratch_len`, so none of them holds a value (20_memory.md R91). -/
@[simps] def State.clearScratch (s : State) : State := { s with scratch := [], scratchLen := 0 }

/-- The result returned to the caller. -/
@[simps] def State.setResult (s : State) (r : OpResult) : State := { s with result := r }

/-- The environment after a primitive call or an event. -/
@[simps] def State.setEnv (s : State) (e : Env) : State := { s with env := e }

/-- The agenda after a move is taken from it. -/
@[simps] def State.setAgenda (s : State) (a : List Move) : State := { s with agenda := a }

/-! ## Reset -/

/-- An empty ring buffer: `rd = wr = count = 0`, no slot holds a value (10_state.md R39). -/
def Ring.empty : Ring := { buf := [], rd := 0, wr := 0, count := 0 }

/-- The speeds at reset. The spec leaves them open until STARTUP sets `UartBaud(CFG_RESET)` and `PeerSpeed(CFG_RESET)`
(R50, R300); the model names these values already at reset (DESIGN CHOICE, log entry 13). -/
def resetSpeed (p : Config) : PerSide Nat := { h := uartBaud p.cfgReset, p := peerSpeed p p.cfgReset }

/-- An environment that has done nothing yet: nothing received, both lines 0, nothing given out, no failure to come
(DESIGN CHOICE, log entry 17). -/
def Env.quiet : Env := { rxq := .both [], ms0 := false, ms1 := false, log := [], draws := [] }

/-- The reset values of R300, for any parameters, environment and agenda. `status_out` and `period` have no reset value in
the spec (DESIGN CHOICE, log entries 14, 15); `arrived`, `result` and `refusedMark` are the model's own. -/
def State.resetWith (p : Config) (e : Env) (a : List Move) : State :=
  { params := p
    cfg := p.cfgReset
    rb := .both Ring.empty
    drop := .both 0
    scratch := []
    scratchLen := 0
    prevMode := .normal
    idle := .both 0
    lastCount := .both 0
    exp := .both false
    armed := .both false
    period := { h := periodOf p (resetSpeed p) .H, p := periodOf p (resetSpeed p) .P }
    speed := resetSpeed p
    statusOut := false
    status := { halted := false, unimpl := false, cause := 0 }
    phase := .startup
    arrived := .both 0
    result := .nothing
    refusedMark := none
    env := e
    agenda := a }

/-- The machine right after reset, with the reference parameters and a quiet environment. -/
def State.reset : State := State.resetWith Config.reference Env.quiet []

end Sys2Proof.Machine
end

