-- ==== Sys2Proof/Machine/Flags.lean ====
section
/-! DEFINITION. The flags of 10_state.md R54, the status register as a byte (R53), the cause codes (60_exceptions.md R261),
and the test that restarts an idle run (42_bridge_controller.md R221). -/

namespace Sys2Proof.Machine

/-- full(d): `rb[d].count = RING_CAP` (R54; where R38 holds it is the negation of RB_ENQUEUE's test). -/
def State.full (s : State) (d : Side) : Bool := decide ((s.rb.get d).count = s.params.ringCap)

/-- empty(d): `rb[d].count = 0` (R54). -/
def State.isEmpty (s : State) (d : Side) : Bool := decide ((s.rb.get d).count = 0)

/-- The code of a failing primitive (R261). -/
def IoCause.code : IoCause → BitVec 3
  | .rdH => 1
  | .wrH => 2
  | .rdP => 3
  | .wrP => 4
  | .speed => 5
  | .line => 6
  | .timer => 7

/-- The cause of a failing read on a side (R200, R201). -/
def readCause : Side → IoCause
  | .H => .rdH
  | .P => .rdP

/-- The cause of a failing write on a side (R202). -/
def writeCause : Side → IoCause
  | .H => .wrH
  | .P => .wrP

/-- `STATUS` as a byte: bit 0 halted, bit 1 unimpl, bits 4:2 cause, bits 7:5 read as 0 (R53). -/
def StatusReg.byte (r : StatusReg) : Byte :=
  (BitVec.ofBool r.halted).setWidth 8 ||| ((BitVec.ofBool r.unimpl).setWidth 8 <<< 1) ||| (r.cause.setWidth 8 <<< 2)

/-- Whether DIR_SIZE_CHECK restarts the idle run of direction `d` (R221). -/
def State.restartsRun (s : State) (d : Side) : Bool :=
  decide ((s.rb.get d).count ≠ s.lastCount.get d) ||
    (decide (s.params.idleResetOn = .arrival) && decide (0 < s.arrived.get d))

/-- The next value of a drop counter, modulo `2^DROP_CNT_WIDTH` (R41, R220). -/
def nextDrop (p : Config) (n : Nat) : Nat := (n + 1) % 2 ^ p.dropCntWidth

end Sys2Proof.Machine
end

