-- ==== Sys2Proof/WellFormed.lean ====
section
/-! DEFINITION. Which instruction terms are well formed. The one check: CMD_INVALID is the default row of the opcode table, so
its frame is neither a write frame nor a read frame (30_encoding.md R113, R114). Every other operand is legal at every value. -/

namespace Sys2Proof

/-- A write frame is 6 bytes led by 0xC0 (R111, first test of R114). -/
def isWriteFrame (bytes : List Byte) : Bool :=
  bytes.length == 6 && bytes.head? == some writePreamble

/-- A read frame is exactly `C1 C1 C1` (R112, second test of R114). -/
def isReadFrame (bytes : List Byte) : Bool :=
  bytes == [readByteCode, readByteCode, readByteCode]

/-- The check of the syntax. -/
def Instr.wellFormed : Instr → Bool
  | .cmdInvalid bytes => !isWriteFrame bytes && !isReadFrame bytes
  | .cmdWrite _ _ _ _ _ => true
  | .cmdRead => true
  | .rbEnqueue _ _ => true
  | .rbDequeue _ => true
  | .rbDrainAll _ => true
  | .rbAvailable _ => true
  | .cfgSetParams _ => true
  | .cfgGetParams => true
  | .cfgInputCommand _ => true
  | .cfgAirRate => true
  | .cfgUartBaud => true
  | .modeDecode _ _ => true
  | .modeTransition _ => true
  | .enterSleep => true
  | .leaveSleep => true
  | .dirPoll _ => true
  | .dirSizeCheck _ => true
  | .dirExpiry _ => true
  | .dirFlush _ => true
  | .normalService _ => true
  | .sleepStep => true
  | .unimplStep _ => true
  | .tick => true
  | .startup => true
  | .evTimerExpire _ => true
  | .evRxByte _ _ => true
  | .evReset => true

end Sys2Proof
end

