-- ==== Sys2Proof/Decode.lean ====
section
/-! DEFINITION. The decoder of operation codes and command frames (30_encoding.md R110 to R114, R126 to R129, R134), the
encoder written from the same tables, and the reading of spec/opcode_table.json's words. -/

namespace Sys2Proof

/-- Why a code word has no instruction. -/
inductive DecodeReject where
  /-- A reserved operation code (R129). -/
  | reservedCode (code : Byte)
  /-- The operand bytes are not those the operation takes (the model's layout, log entry 10). -/
  | wrongOperands (code : Byte)
deriving DecidableEq, Repr

/-! ## Command frames -/

/-- `FrameLen(b0)`: the first byte fixes a frame's length (R110). -/
def frameLen (b0 : Byte) : Nat :=
  if b0 = writePreamble then 6 else if b0 = readByteCode then 3 else 1

/-- The classification of R114: the write frame, the read frame, else CMD_INVALID. -/
def decodeFrame : List Byte → Instr
  | [p, a, b, c, d, e] => if p = writePreamble then .cmdWrite a b c d e else .cmdInvalid [p, a, b, c, d, e]
  | [x, y, z] =>
    if x = readByteCode ∧ y = readByteCode ∧ z = readByteCode then .cmdRead else .cmdInvalid [x, y, z]
  | bytes => .cmdInvalid bytes

/-! ## Fields of an operation code and of operand bytes -/

/-- Bits 7:5, the unit (R127). -/
def codeUnit (code : Byte) : Nat := (code.extractLsb' 5 3).toNat

/-- Bits 4:1, the operation within the unit (R127). -/
def codeOperation (code : Byte) : Nat := (code.extractLsb' 1 4).toNat

/-- Bit 0: 0 = H, 1 = P (R127). -/
def codeSide (code : Byte) : Side := if code.getLsbD 0 then .P else .H

/-- The direction bit of a code (R127). -/
def sideBit : Side → Byte
  | .H => 0
  | .P => 1

/-- The 2-bit code `MS1 MS0` of a mode (R126). -/
def modeCode : Mode → Byte
  | .normal => 0
  | .wakeUp => 1
  | .powerSaving => 2
  | .sleep => 3

/-- The mode with a 2-bit code (R126). -/
def modeOfCode (b : Byte) : Option Mode :=
  if b = 0 then some .normal
  else if b = 1 then some .wakeUp
  else if b = 2 then some .powerSaving
  else if b = 3 then some .sleep
  else none

/-- Operand byte of UNIMPL_STEP (the model's layout, log entry 10). -/
def unimplCode : UnimplMode → Byte
  | .wakeUp => 0
  | .powerSaving => 1

/-- The mode with a given operand byte of UNIMPL_STEP. -/
def unimplOfCode (b : Byte) : Option UnimplMode :=
  if b = 0 then some .wakeUp else if b = 1 then some .powerSaving else none

/-- Operand byte of MODE_DECODE: MS0 in bit 0, MS1 in bit 1 (log entry 10). -/
def linesCode (ms0 ms1 : Bool) : Byte :=
  (if ms0 then 1 else 0) + (if ms1 then 2 else 0)

/-- The pair of levels in an operand byte of MODE_DECODE; bits 7:2 must be 0. -/
def linesOfCode (b : Byte) : Option (Bool × Bool) :=
  if b.extractLsb' 2 6 = 0 then some (b.getLsbD 0, b.getLsbD 1) else none

/-! ## Operation codes -/

/-- An operation without operand bytes. -/
def noOperand (code : Byte) (operands : List Byte) (i : Instr) : Except DecodeReject Instr :=
  match operands with
  | [] => .ok i
  | _ => .error (.wrongOperands code)

/-- An operation with one operand byte, which `f` may turn down. -/
def oneOperand (code : Byte) (operands : List Byte) (f : Byte → Option Instr) : Except DecodeReject Instr :=
  match operands with
  | [b] =>
    match f b with
    | some i => .ok i
    | none => .error (.wrongOperands code)
  | _ => .error (.wrongOperands code)

/-- An operation that takes no direction: bit 0 must be 0 (R127, R129). -/
def noSide (code : Byte) (r : Except DecodeReject Instr) : Except DecodeReject Instr :=
  if code.getLsbD 0 then .error (.reservedCode code) else r

/-- The operation-code map of R128; every other code is reserved (R129). -/
def decodeOp (code : Byte) (operands : List Byte) : Except DecodeReject Instr :=
  match codeUnit code, codeOperation code with
  | 0, 0 => oneOperand code operands fun b => some (.rbEnqueue (codeSide code) b)
  | 0, 1 => noOperand code operands (.rbDequeue (codeSide code))
  | 0, 2 => noOperand code operands (.rbDrainAll (codeSide code))
  | 0, 3 => noOperand code operands (.rbAvailable (codeSide code))
  | 1, 0 => noSide code (.ok (.cfgSetParams operands))
  | 1, 1 => noSide code (noOperand code operands .cfgGetParams)
  | 1, 2 => noSide code (.ok (.cfgInputCommand operands))
  | 1, 3 => noSide code (noOperand code operands .cfgAirRate)
  | 1, 4 => noSide code (noOperand code operands .cfgUartBaud)
  | 2, 0 => noSide code (oneOperand code operands fun b => (linesOfCode b).map fun m => .modeDecode m.1 m.2)
  | 2, 1 => noSide code (oneOperand code operands fun b => (modeOfCode b).map .modeTransition)
  | 2, 2 => noSide code (noOperand code operands .enterSleep)
  | 2, 3 => noSide code (noOperand code operands .leaveSleep)
  | 2, 4 => noOperand code operands (.dirPoll (codeSide code))
  | 2, 5 => noOperand code operands (.dirSizeCheck (codeSide code))
  | 2, 6 => noOperand code operands (.dirExpiry (codeSide code))
  | 2, 7 => noOperand code operands (.dirFlush (codeSide code))
  | 2, 8 => noOperand code operands (.normalService (codeSide code))
  | 2, 9 => noSide code (noOperand code operands .sleepStep)
  | 2, 10 => noSide code (oneOperand code operands fun b => (unimplOfCode b).map .unimplStep)
  | 2, 11 => noSide code (noOperand code operands .tick)
  | 2, 12 => noSide code (noOperand code operands .startup)
  | 3, 0 => noOperand code operands (.evTimerExpire (codeSide code))
  | 3, 1 => oneOperand code operands fun b => some (.evRxByte (codeSide code) b)
  | 3, 2 => noSide code (noOperand code operands .evReset)
  | _, _ => .error (.reservedCode code)

/-- The decoder: total on any code word. A frame always has an instruction (R130); an operation code may be reserved. -/
def decode : CodeWord → Except DecodeReject Instr
  | .op code operands => decodeOp code operands
  | .frame bytes => .ok (decodeFrame bytes)

/-! ## The encoder -/

/-- The words of an instruction: the frame formats of R111 to R113 and the code map of R128. -/
def encode : Instr → CodeWord
  | .cmdWrite a b c d e => .frame [0xC0, a, b, c, d, e]
  | .cmdRead => .frame [0xC1, 0xC1, 0xC1]
  | .cmdInvalid bytes => .frame bytes
  | .rbEnqueue d b => .op (0x00 ||| sideBit d) [b]
  | .rbDequeue d => .op (0x02 ||| sideBit d) []
  | .rbDrainAll d => .op (0x04 ||| sideBit d) []
  | .rbAvailable d => .op (0x06 ||| sideBit d) []
  | .cfgSetParams bytes => .op 0x20 bytes
  | .cfgGetParams => .op 0x22 []
  | .cfgInputCommand bytes => .op 0x24 bytes
  | .cfgAirRate => .op 0x26 []
  | .cfgUartBaud => .op 0x28 []
  | .modeDecode ms0 ms1 => .op 0x40 [linesCode ms0 ms1]
  | .modeTransition mode => .op 0x42 [modeCode mode]
  | .enterSleep => .op 0x44 []
  | .leaveSleep => .op 0x46 []
  | .dirPoll d => .op (0x48 ||| sideBit d) []
  | .dirSizeCheck d => .op (0x4A ||| sideBit d) []
  | .dirExpiry d => .op (0x4C ||| sideBit d) []
  | .dirFlush d => .op (0x4E ||| sideBit d) []
  | .normalService d => .op (0x50 ||| sideBit d) []
  | .sleepStep => .op 0x52 []
  | .unimplStep mode => .op 0x54 [unimplCode mode]
  | .tick => .op 0x56 []
  | .startup => .op 0x58 []
  | .evTimerExpire d => .op (0x60 ||| sideBit d) []
  | .evRxByte s b => .op (0x62 ||| sideBit s) [b]
  | .evReset => .op 0x64 []

/-! ## Words as spec/opcode_table.json numbers them -/

/-- The `n` low bytes of a number, most significant first: the table holds byte 0 of a frame in the highest bits (R111). -/
def bytesOf : Nat → Nat → List Byte
  | 0, _ => []
  | n + 1, w => BitVec.ofNat 8 (w / 256 ^ n) :: bytesOf n w

/-- The operations whose code word carries one operand byte; the table gives that byte no bits, so it reads as 0. -/
def zeroOperands (code : Byte) : List Byte :=
  if code ∈ ([0x00, 0x01, 0x40, 0x42, 0x54, 0x62, 0x63] : List Byte) then [0] else []

/-- A table word laid out: one byte is an operation code with operand bytes of zeros, any other length a command frame
(log entry 11). -/
def layOut (nbits w : Nat) : CodeWord :=
  if nbits = 8 then .op (BitVec.ofNat 8 w) (zeroOperands (BitVec.ofNat 8 w)) else .frame (bytesOf (nbits / 8) w)

/-- The instruction the decoder reads from a table word. -/
def decodeTableWord (nbits w : Nat) : Option Instr :=
  match decode (layOut nbits w) with
  | .ok i => some i
  | .error _ => none

end Sys2Proof
end

