-- ==== Sys2Proof/Machine/Operands.lean ====
section
/-! DEFINITION. Operand forms and values formed from them: the responses (30_encoding.md R119 to R123), the record as bytes
(20_memory.md R84), how many bytes a Sleep read asks for (42_bridge_controller.md R230), and the derived speeds of a state. -/

namespace Sys2Proof.Machine

/-- The record in offset order (R84; 41_config_store.md R171). -/
def recordBytes (c : ConfigRecord) : List Byte :=
  [c.preamble, c.addrHigh, c.addrLow, c.speed, c.channel, c.option]

/-- The record six bytes make, byte `i` at offset `i`; no other length makes one (R170, R115). -/
def recordOfBytes : List Byte → Option ConfigRecord
  | [p, a, b, c, d, e] =>
    some { preamble := p, addrHigh := a, addrLow := b, speed := c, channel := d, option := e }
  | _ => none

/-- `Hex(v)` for a 4-bit value: one uppercase ASCII digit (R122). -/
def hexDigit (v : BitVec 4) : Byte :=
  if v.toNat < 10 then 0x30 + v.setWidth 8 else 0x41 + (v.setWidth 8 - 10)

/-- The two digits of a byte, high nibble first (R121, 20_memory.md R87). -/
def hexByte (b : Byte) : List Byte :=
  [hexDigit (b.extractLsb' 4 4), hexDigit (b.extractLsb' 0 4)]

/-- `HexRender`: space-separated two-digit uppercase hex (R121). -/
def hexRender (c : ConfigRecord) : List Byte :=
  hexByte c.preamble ++ [0x20] ++ hexByte c.addrHigh ++ [0x20] ++ hexByte c.addrLow ++ [0x20] ++
    hexByte c.speed ++ [0x20] ++ hexByte c.channel ++ [0x20] ++ hexByte c.option

/-- "OK" and the terminator (R119, R123). -/
def respOk (p : Config) : List Byte := [0x4F, 0x4B] ++ p.respTerminator

/-- "ERROR" and the terminator (R120, R123). -/
def respError (p : Config) : List Byte := [0x45, 0x52, 0x52, 0x4F, 0x52] ++ p.respTerminator

/-- The hex dump and the terminator (R121, R123). -/
def respDump (p : Config) (c : ConfigRecord) : List Byte := hexRender c ++ p.respTerminator

/-- MODE_DECODE's table (R126, R210). -/
def modeOfLines (ms0 ms1 : Bool) : Mode :=
  match ms0, ms1 with
  | false, false => .normal
  | true, false => .wakeUp
  | false, true => .powerSaving
  | true, true => .sleep

/-- The mode an operand of UNIMPL_STEP names (R236). -/
def UnimplMode.toMode : UnimplMode → Mode
  | .wakeUp => .wakeUp
  | .powerSaving => .powerSaving

/-- `Period(d)` at the current speeds (R208). -/
def State.periodFor (s : State) (d : Side) : Period := periodOf s.params s.speed d

/-- The speed of side H in data mode, `UartBaud` of the record as it is now (R209, R214). -/
def State.uartBaudNow (s : State) : Nat := uartBaud s.cfg

/-- The speed of side P in data mode, `PeerSpeed(cfg)` of the record as it is now (R209, R214). -/
def State.peerSpeedNow (s : State) : Nat := peerSpeed s.params s.cfg

/-- How many bytes a Sleep read asks for, given the bytes of the frame held so far: 1 for a new frame, else the rest of the
frame (R230, R231). -/
def frameNeed (held : Nat) (b0 : Byte) : Nat := if held = 0 then 1 else frameLen b0 - held

end Sys2Proof.Machine
end

