-- ==== Sys2Proof/Machine/Ops.lean ====
section
/-! DEFINITION. The shared operations: how an operation ends and how operations follow one another, storage access, the
ring buffer, taking an abnormal condition, and the collaborator primitives (42_bridge_controller.md R200 to R207). -/

namespace Sys2Proof.Machine

/-! ## How an operation ends -/

/-- The end of an operation: it returns to its caller with a value; or the tick ends here, because a primitive failed, the
Sleep read holds or the mode is refused (00_scope.md, "Outcomes"), and the caller does not go on; or a fault. -/
inductive Run (α : Type) where
  | ok (a : α) (s : State)
  | ended (s : State)
  | fault (f : Fault)
deriving DecidableEq, Repr

/-- One operation after another. -/
def Run.bind {α β : Type} (r : Run α) (k : α → State → Run β) : Run β :=
  match r with
  | .ok a s => k a s
  | .ended s => .ended s
  | .fault f => .fault f

/-- The outcome of an operation that is a step of its own and returns nothing. -/
def Run.finish (r : Run Unit) : Host.Outcome State Fault Refusal :=
  match r with
  | .ok _ s => .next s
  | .ended s => .next s
  | .fault f => .fault f

/-- The outcome of an operation that is a step of its own and returns a value to its caller (log entry 8). -/
def Run.finishWith {α : Type} (r : Run α) (f : α → OpResult) : Host.Outcome State Fault Refusal :=
  match r with
  | .ok a s => .next (s.setResult (f a))
  | .ended s => .next s
  | .fault e => .fault e

/-! ## Storage (20_memory.md R80 to R82, R91) -/

/-- The value at an index, if the slot has been written. -/
def Memory.slot : Memory → Nat → Option Byte
  | [], _ => none
  | x :: m, i => if x.1 = i then some x.2 else Memory.slot m i

/-- The array with `v` at index `i`, in canonical form. -/
def Memory.put : Memory → Nat → Byte → Memory
  | [], i, v => [(i, v)]
  | x :: m, i, v =>
    if i < x.1 then (i, v) :: x :: m
    else if x.1 = i then (i, v) :: m
    else x :: Memory.put m i v

/-- The array with no value at index `i` (R91). -/
def Memory.clear (m : Memory) (i : Nat) : Memory := m.filter fun x => decide (x.1 ≠ i)

/-- `MemRead(array, i, 1)` (R81) of an array of `size` bytes. -/
def memRead (m : Memory) (size i : Nat) : Except Fault Byte :=
  if i < size then
    match m.slot i with
    | some v => .ok v
    | none => .error .unwrittenByte
  else .error .indexOutside

/-- `MemWrite(array, i, 1, v)` (R81) into an array of `size` bytes. -/
def memWrite (m : Memory) (size i : Nat) (v : Byte) : Except Fault Memory :=
  if i < size then .ok (m.put i v) else .error .indexOutside

/-- `n` bytes of an array from index 0 on, in order. -/
def memReadMany (m : Memory) (size : Nat) : Nat → Nat → Except Fault (List Byte)
  | 0, _ => .ok []
  | n + 1, i =>
    match memRead m size i with
    | .ok v =>
      match memReadMany m size n (i + 1) with
      | .ok vs => .ok (v :: vs)
      | .error f => .error f
    | .error f => .error f

/-- Bytes stored one after the other from index `i` on. -/
def memWriteMany (m : Memory) (size : Nat) : List Byte → Nat → Except Fault Memory
  | [], _ => .ok m
  | v :: vs, i =>
    match memWrite m size i v with
    | .ok m' => memWriteMany m' size vs (i + 1)
    | .error f => .error f

/-! ## The ring buffer (40_ring_buffer.md R150 to R152) -/

/-- RB_ENQUEUE on one ring (R150). -/
def Ring.enqueue (cap : Nat) (r : Ring) (b : Byte) : Except Fault (Bool × Ring) :=
  if r.count < cap then
    match memWrite r.buf cap r.wr b with
    | .ok buf => .ok (true, { r with buf := buf, wr := (r.wr + 1) % cap, count := r.count + 1 })
    | .error f => .error f
  else .ok (false, r)

/-- RB_DEQUEUE on one ring (R151). The slot read leaves the live window, so it holds no value afterwards (20_memory.md R91; 93 I1). -/
def Ring.dequeue (cap : Nat) (r : Ring) : Except Fault (Option Byte × Ring) :=
  if 0 < r.count then
    match memRead r.buf cap r.rd with
    | .ok v => .ok (some v, { r with buf := r.buf.clear r.rd, rd := (r.rd + 1) % cap, count := r.count - 1 })
    | .error f => .error f
  else .ok (none, r)

/-- At most `n` dequeues, oldest byte first (the loop of R152). -/
def Ring.dequeueMany (cap : Nat) : Nat → Ring → Except Fault (List Byte × Ring)
  | 0, r => .ok ([], r)
  | n + 1, r =>
    match r.dequeue cap with
    | .ok (some b, r1) =>
      match Ring.dequeueMany cap n r1 with
      | .ok (bs, r2) => .ok (b :: bs, r2)
      | .error f => .error f
    | .ok (none, r1) => .ok ([], r1)
    | .error f => .error f

/-- RB_DRAIN_ALL on one ring: dequeue until `count` is 0 (R152). -/
def Ring.drainAll (cap : Nat) (r : Ring) : Except Fault (List Byte × Ring) := r.dequeueMany cap r.count

/-- An operation on `rb[d]`. -/
def onRing {α : Type} (d : Side) (f : Nat → Ring → Except Fault (α × Ring)) (s : State) : Run α :=
  match f s.params.ringCap (s.rb.get d) with
  | .ok (a, r) => .ok a (s.setRb d r)
  | .error e => .fault e

/-- RB_ENQUEUE d, byte (R150). -/
def rbEnqueue (d : Side) (b : Byte) (s : State) : Run Bool := onRing d (fun cap r => r.enqueue cap b) s

/-- RB_DEQUEUE d (R151). -/
def rbDequeue (d : Side) (s : State) : Run (Option Byte) := onRing d Ring.dequeue s

/-- RB_DRAIN_ALL d (R152). -/
def rbDrainAll (d : Side) (s : State) : Run (List Byte) := onRing d Ring.drainAll s

/-- RB_AVAILABLE d (R153). -/
def rbAvailable (d : Side) (s : State) : Nat := (s.rb.get d).count

/-! ## Taking an abnormal condition (60_exceptions.md R260 to R265)

No condition transfers control to a handler, none saves state, and there is no return from one (R260, R272): the block leaves
HALTED and REFUSED by EV_RESET only (70_reset_and_hazards.md R304; `execEvReset`). -/

/-- IO_FAILURE: the halt and its cause are recorded and the phase becomes HALTED; all else stays as the tick left it (R263). -/
def State.ioFailure (s : State) (c : IoCause) : State :=
  { s with status := { s.status with halted := true, cause := c.code }, phase := .halted }

/-- MODE_UNIMPLEMENTED: `STATUS.unimpl` is set and the phase becomes REFUSED, with the mode marked (R236, R265). -/
def State.refuseMode (s : State) (m : UnimplMode) : State :=
  { s with status := { s.status with unimpl := true }, phase := .refused, refusedMark := some m }

/-! ## Collaborator primitives (R200 to R207)

Every call takes one draw (log entry 4). On a failure `failed` says what the call still did to the environment, which the spec
leaves open (R263; log entry 19), and the tick ends. -/

/-- The state after a call has taken its draw. -/
def State.takeDraw (s : State) : State := s.setEnv { s.env with draws := s.env.draws.tail }

/-- One primitive call. -/
def call {α : Type} (c : IoCause) (failed : Nat → Env → Env) (done : State → Run α) (s : State) : Run α :=
  match s.env.draws.head? with
  | some (.fails effect) =>
    .ended ((s.takeDraw.setEnv (failed effect s.takeDraw.env)).ioFailure c)
  | _ => done s.takeDraw

/-- The environment after `n` bytes have left the receive queue of side `sd`. -/
def Env.dropRx (e : Env) (sd : Side) (n : Nat) : Env := { e with rxq := e.rxq.set sd ((e.rxq.get sd).drop n) }

/-- The environment after one more output. -/
def Env.emit (e : Env) (o : Output) : Env := { e with log := e.log ++ [o] }

/-- The environment after a write of `bytes` to side `sd`; nothing is sent for the empty sequence (R202). -/
def Env.send (e : Env) (sd : Side) (bytes : List Byte) : Env :=
  if bytes = [] then e else e.emit (.wrote sd bytes)

/-- The bytes one output sent to a side. -/
def Output.bytesTo (sd : Side) : Output → List Byte
  | .wrote t bytes => if t = sd then bytes else []
  | .speedSet _ _ => []
  | .statusSet _ => []

/-- `txs[s]`: every byte the block has written to side `s`, in order (42_bridge_controller.md, section 1). -/
def Env.txs (e : Env) (sd : Side) : List Byte := e.log.flatMap (Output.bytesTo sd)

/-- The bytes a read of at most `n` bytes from side `sd` returns (R200, R201). -/
def Env.rxTake (e : Env) (sd : Side) (n : Nat) : List Byte := (e.rxq.get sd).take n

/-- `PortReadNB(s, n)` (R200). -/
def portReadNB (sd : Side) (n : Nat) (s : State) : Run (List Byte) :=
  call (readCause sd) (fun k e => e.dropRx sd (min k n))
    (fun s1 => .ok (s1.env.rxTake sd n) (s1.setEnv (s1.env.dropRx sd n))) s

/-- `PortReadB(s, n)` (R201): holds in SLEEP_WAIT while the queue is empty, and only a byte lifts the hold (93 I10). The call ends, and
with that takes its draw and may fail, when it reads. -/
def portReadB (sd : Side) (n : Nat) (s : State) : Run (List Byte) :=
  match s.env.rxq.get sd with
  | [] => .ended (s.setPhase .sleepWait)
  | _ :: _ => portReadNB sd n s

/-- `PortWrite(s, bytes)` (R202): one write; the empty sequence sends nothing and cannot fail. A failing write may have sent any
prefix (R263). -/
def portWrite (sd : Side) (bytes : List Byte) (s : State) : Run Unit :=
  if bytes = [] then .ok () s
  else call (writeCause sd) (fun k e => e.send sd (bytes.take k)) (fun s1 => .ok () (s1.setEnv (s1.env.send sd bytes))) s

/-- `PortSetSpeed(s, v)` (R203): a failing call leaves the port at either speed (R263). -/
def portSetSpeed (sd : Side) (v : Nat) (s : State) : Run Unit :=
  call .speed (fun k e => if k = 0 then e else e.emit (.speedSet sd v))
    (fun s1 => .ok () { s1 with speed := s1.speed.set sd v, env := s1.env.emit (.speedSet sd v) }) s

/-- `LineRead(MS0)` (R204). -/
def lineReadMs0 (s : State) : Run Bool := call .line (fun _ e => e) (fun s1 => .ok s1.env.ms0 s1) s

/-- `LineRead(MS1)` (R204). -/
def lineReadMs1 (s : State) : Run Bool := call .line (fun _ e => e) (fun s1 => .ok s1.env.ms1 s1) s

/-- `LineSet(STATUS, v)` (R205). -/
def lineSet (v : Bool) (s : State) : Run Unit :=
  call .line (fun k e => if k = 0 then e else e.emit (.statusSet v))
    (fun s1 => .ok () { s1 with statusOut := v, env := s1.env.emit (.statusSet v) }) s

/-- `TimerArm(d, Period(d))` (R206, R208): every arming in the rules is at the direction's own period. -/
def timerArm (d : Side) (s : State) : Run Unit :=
  call .timer (fun _ e => e) (fun s1 => .ok () (s1.arm d (s1.periodFor d))) s

/-- `TimerDisarm(d)` (R207). -/
def timerDisarm (d : Side) (s : State) : Run Unit :=
  call .timer (fun _ e => e) (fun s1 => .ok () (s1.disarm d)) s

end Sys2Proof.Machine
end

