-- ==== Sys2Proof/Machine/Coalescer.lean ====
section
/-! DEFINITION. Normal mode: the idle-timer state machine and burst coalescer (42_bridge_controller.md R220 to R224). -/

namespace Sys2Proof.Machine

/-- The loop of DIR_POLL: each byte is enqueued, or counted as dropped when the buffer is full (R220, 60_exceptions.md R264). -/
def enqueueAll (d : Side) : List Byte → State → Run Unit
  | [], s => .ok () s
  | b :: bs, s =>
    (rbEnqueue d b s).bind fun ok s1 =>
    enqueueAll d bs (if ok then s1 else s1.setDrop d (nextDrop s1.params (s1.drop.get d)))

/-- DIR_POLL d (R220). -/
def dirPoll (d : Side) (s : State) : Run Unit :=
  (portReadNB d s.params.rxChunk s).bind fun bytes s1 =>
  enqueueAll d bytes (s1.setArrived d bytes.length)

/-- DIR_SIZE_CHECK d (R221). -/
def dirSizeCheck (d : Side) (s : State) : Run Unit :=
  if s.restartsRun d then timerArm d ((s.setLastCount d (rbAvailable d s)).setIdle d 0)
  else .ok () s

/-- DIR_EXPIRY d (R222). -/
def dirExpiry (d : Side) (s : State) : State :=
  if s.exp.get d then
    if 0 < rbAvailable d s then (s.setExp d false).setIdle d (s.idle.get d + 1) else s.setExp d false
  else s

/-- DIR_FLUSH d (R223): drain, write the burst as one write, disarm. -/
def dirFlush (d : Side) (s : State) : Run Unit :=
  if s.params.idleThreshold ≤ s.idle.get d then
    (rbDrainAll d s).bind fun burst s1 =>
    (portWrite d.opp burst s1).bind fun _ s2 =>
    timerDisarm d ((s2.setIdle d 0).setLastCount d 0)
  else .ok () s

/-- NORMAL_SERVICE d (R224). -/
def normalService (d : Side) (s : State) : Run Unit :=
  (dirPoll d s).bind fun _ s1 =>
  (dirSizeCheck d s1).bind fun _ s2 =>
  dirFlush d (dirExpiry d s2)

/-- DIR_POLL (R220). -/
def execDirPoll (d : Side) (s : State) : Host.Outcome State Fault Refusal := (dirPoll d s).finish

/-- DIR_SIZE_CHECK (R221). -/
def execDirSizeCheck (d : Side) (s : State) : Host.Outcome State Fault Refusal := (dirSizeCheck d s).finish

/-- DIR_EXPIRY (R222). -/
def execDirExpiry (d : Side) (s : State) : Host.Outcome State Fault Refusal := .next (dirExpiry d s)

/-- DIR_FLUSH (R223). -/
def execDirFlush (d : Side) (s : State) : Host.Outcome State Fault Refusal := (dirFlush d s).finish

/-- NORMAL_SERVICE (R224). -/
def execNormalService (d : Side) (s : State) : Host.Outcome State Fault Refusal := (normalService d s).finish

end Sys2Proof.Machine
end

