-- ==== Sys2Proof/Machine/ConfigStore.lean ====
section
/-! DEFINITION. The configuration store and the command decoder (41_config_store.md R170 to R177). None of these fails. -/

namespace Sys2Proof.Machine

/-- CFG_SET_PARAMS bytes, len: overwrites all six fields, or does nothing when `len ≠ 6` (R170). -/
def cfgSetParams (bytes : List Byte) (s : State) : State :=
  match recordOfBytes bytes with
  | some c => s.setCfg c
  | none => s

/-- CMD_WRITE: store the record, answer "OK" (R175). -/
def cmdWrite (a b c d e : Byte) (s : State) : List Byte × State :=
  (respOk s.params, cfgSetParams [writePreamble, a, b, c, d, e] s)

/-- CMD_READ: answer the hex dump (R176). -/
def cmdRead (s : State) : List Byte × State := (respDump s.params s.cfg, s)

/-- CMD_INVALID: answer "ERROR" (R177). CMD_MALFORMED keeps no state (60_exceptions.md R262). -/
def cmdInvalid (s : State) : List Byte × State := (respError s.params, s)

/-- CFG_INPUT_COMMAND bytes, len: classify and run one command (R174; 30_encoding.md R114). -/
def cfgInputCommand (bytes : List Byte) (s : State) : List Byte × State :=
  match decodeFrame bytes with
  | .cmdWrite a b c d e => cmdWrite a b c d e s
  | .cmdRead => cmdRead s
  | _ => cmdInvalid s

/-- A command as a step of its own returns its response (log entry 8). -/
def answer (r : List Byte × State) : Host.Outcome State Fault Refusal := .next (r.2.setResult (.byteSeq r.1))

/-- CMD_WRITE (R175). -/
def execCmdWrite (a b c d e : Byte) (s : State) : Host.Outcome State Fault Refusal := answer (cmdWrite a b c d e s)

/-- CMD_READ (R176). -/
def execCmdRead (s : State) : Host.Outcome State Fault Refusal := answer (cmdRead s)

/-- CMD_INVALID (R177): the frame's bytes play no part. -/
def execCmdInvalid (_bytes : List Byte) (s : State) : Host.Outcome State Fault Refusal := answer (cmdInvalid s)

/-- CFG_INPUT_COMMAND (R174). -/
def execCfgInputCommand (bytes : List Byte) (s : State) : Host.Outcome State Fault Refusal :=
  answer (cfgInputCommand bytes s)

/-- CFG_SET_PARAMS (R170). -/
def execCfgSetParams (bytes : List Byte) (s : State) : Host.Outcome State Fault Refusal := .next (cfgSetParams bytes s)

/-- CFG_GET_PARAMS (R171). -/
def execCfgGetParams (s : State) : Host.Outcome State Fault Refusal :=
  .next (s.setResult (.byteSeq (recordBytes s.cfg)))

/-- CFG_AIR_RATE (R172). -/
def execCfgAirRate (s : State) : Host.Outcome State Fault Refusal := .next (s.setResult (.number (airDataRate s.cfg)))

/-- CFG_UART_BAUD (R173). -/
def execCfgUartBaud (s : State) : Host.Outcome State Fault Refusal := .next (s.setResult (.number (uartBaud s.cfg)))

end Sys2Proof.Machine
end

