-- ==== Sys2Proof/Machine/Interception.lean ====
section
/-! DEFINITION. Sleep mode: configuration interception (42_bridge_controller.md R230 to R234), and the unimplemented modes (R236). -/

namespace Sys2Proof.Machine

/-- EXCHANGE (R233): status low, run the complete frame, answer on side H, status high, frame done. It has no operation code. -/
def exchange (s : State) : Run Unit :=
  match memReadMany s.scratch scratchSize s.scratchLen 0 with
  | .error f => .fault f
  | .ok frame =>
    (lineSet false s).bind fun _ s1 =>
    let r := cfgInputCommand frame s1
    (portWrite .H r.1 r.2).bind fun _ s2 =>
    (lineSet true s2).bind fun _ s3 =>
    .ok () (s3.clearScratch)

/-- How many bytes the next Sleep read asks for (R230); reads `scratch[0]` only when a frame has begun. -/
def sleepNeed (s : State) : Except Fault Nat :=
  if s.scratchLen = 0 then .ok 1
  else
    match memRead s.scratch scratchSize 0 with
    | .ok b0 => .ok (frameNeed s.scratchLen b0)
    | .error f => .error f

/-- The bytes of one Sleep read appended to the scratch buffer, and the exchange once the frame is complete (R230). -/
def takeFrameBytes (bytes : List Byte) (s : State) : Run Unit :=
  match memWriteMany s.scratch scratchSize bytes s.scratchLen with
  | .error f => .fault f
  | .ok scratch =>
    match memRead scratch scratchSize 0 with
    | .error f => .fault f
    | .ok b0 =>
      let s1 : State := { s with scratch := scratch, scratchLen := s.scratchLen + bytes.length }
      if s1.scratchLen = frameLen b0 then exchange s1 else .ok () s1

/-- The phase after a Sleep step that ran to its end: a suspended tick is over (R240: it "resumes there" and "finishes with
`phase <- RUN`"). A SLEEP_STEP asked for by itself in RUN (log entries 5, 30) is suspended and resumed in the same way. -/
def State.resumed (s : State) : State := if s.phase = .sleepWait then s.setPhase .run else s

/-- SLEEP_STEP (R230): one read of at most the rest of the frame, which may hold; then the exchange if the frame is complete. -/
def sleepStep (s : State) : Run Unit :=
  match sleepNeed s with
  | .error f => .fault f
  | .ok need =>
    (portReadB .H need s).bind fun bytes s1 =>
    (takeFrameBytes bytes s1).bind fun _ s2 =>
    .ok () s2.resumed

/-- UNIMPL_STEP mode (R236): the tick ends in the sticky refusal. -/
def unimplStep (m : UnimplMode) (s : State) : Run Unit := .ended (s.refuseMode m)

/-- SLEEP_STEP (R230). -/
def execSleepStep (s : State) : Host.Outcome State Fault Refusal := (sleepStep s).finish

/-- UNIMPL_STEP (R236). -/
def execUnimplStep (m : UnimplMode) (s : State) : Host.Outcome State Fault Refusal := (unimplStep m s).finish

end Sys2Proof.Machine
end

