-- ==== Sys2Proof/Machine/ModeMux.lean ====
section
/-! DEFINITION. The mode multiplexer (42_bridge_controller.md R210 to R214). -/

namespace Sys2Proof.Machine

/-- ENTER_SLEEP (R213): disarm both timers, take the bootstrap speed, clear the scratch buffer. -/
def enterSleep (s : State) : Run Unit :=
  (timerDisarm .H s).bind fun _ s1 =>
  (timerDisarm .P s1).bind fun _ s2 =>
  (portSetSpeed s2.params.sleepSpeedSide s2.params.bootBaud s2).bind fun _ s3 =>
  .ok () (s3.clearScratch)

/-- One direction of LEAVE_SLEEP's loop (R214): a fresh idle run, and an armed timer where bytes are buffered. -/
def restartRun (d : Side) (s : State) : Run Unit :=
  let s1 := (s.setIdle d 0).setLastCount d (s.rb.get d).count
  if 0 < (s.rb.get d).count then timerArm d s1 else .ok () s1

/-- LEAVE_SLEEP (R214): the data-mode speeds of the record as it is now, a partial frame discarded, the coalescer restarted. -/
def leaveSleep (s : State) : Run Unit :=
  (portSetSpeed .H s.uartBaudNow s).bind fun _ s1 =>
  (portSetSpeed .P s1.peerSpeedNow s1).bind fun _ s2 =>
  (restartRun .H s2.clearScratch).bind fun _ s3 =>
  restartRun .P s3

/-- The side effects of a change of mode (R212); at most one of the two calls runs. -/
def modeSideEffects (mode : Mode) (s : State) : Run Unit :=
  if s.prevMode = .sleep then leaveSleep s
  else if mode = .sleep then enterSleep s
  else .ok () s

/-- MODE_TRANSITION mode (R212). -/
def modeTransition (mode : Mode) (s : State) : Run Unit :=
  if mode = s.prevMode then .ok () s
  else (modeSideEffects mode s).bind fun _ s1 => .ok () (s1.setPrevMode mode)

/-- MODE_DECODE ms0, ms1 (R210). -/
def execModeDecode (ms0 ms1 : Bool) (s : State) : Host.Outcome State Fault Refusal :=
  .next (s.setResult (.mode (modeOfLines ms0 ms1)))

/-- MODE_TRANSITION (R212). -/
def execModeTransition (mode : Mode) (s : State) : Host.Outcome State Fault Refusal := (modeTransition mode s).finish

/-- ENTER_SLEEP (R213). -/
def execEnterSleep (s : State) : Host.Outcome State Fault Refusal := (enterSleep s).finish

/-- LEAVE_SLEEP (R214). -/
def execLeaveSleep (s : State) : Host.Outcome State Fault Refusal := (leaveSleep s).finish

end Sys2Proof.Machine
end

