-- ==== Sys2Proof/Machine/ControlLoop.lean ====
section
/-! DEFINITION. The control loop's own steps: TICK (42_bridge_controller.md R240) and STARTUP (70_reset_and_hazards.md R301). -/

namespace Sys2Proof.Machine

/-- The body of a tick, by mode (R240). -/
def tickBody (mode : Mode) (s : State) : Run Unit :=
  match mode with
  | .normal => (normalService .H s).bind fun _ s1 => normalService .P s1
  | .sleep => sleepStep s
  | .wakeUp => unimplStep .wakeUp s
  | .powerSaving => unimplStep .powerSaving s

/-- TICK (R240): the lines are read once, before anything else (R211). -/
def tick (s : State) : Run Unit :=
  (lineReadMs0 s).bind fun m0 s1 =>
  (lineReadMs1 s1).bind fun m1 s2 =>
  (modeTransition (modeOfLines m0 m1) s2).bind fun _ s3 =>
  (tickBody (modeOfLines m0 m1) s3).bind fun _ s4 =>
  .ok () (s4.setPhase .run)

/-- STARTUP (R301): the data-mode speeds, the status line high, the banner, then RUN. -/
def startup (s : State) : Run Unit :=
  (portSetSpeed .H s.uartBaudNow s).bind fun _ s1 =>
  (portSetSpeed .P s1.peerSpeedNow s1).bind fun _ s2 =>
  (lineSet true s2).bind fun _ s3 =>
  (portWrite .H s3.params.banner s3).bind fun _ s4 =>
  .ok () (s4.setPhase .run)

/-- TICK: "require phase == RUN; no TICK in STARTUP, SLEEP_WAIT, HALTED, REFUSED" (R240). -/
def execTick (s : State) : Host.Outcome State Fault Refusal :=
  if s.phase = .run then (tick s).finish else .fault .notEnabled

/-- STARTUP: "It runs once, when `phase = STARTUP`" (R301). -/
def execStartup (s : State) : Host.Outcome State Fault Refusal :=
  if s.phase = .startup then (startup s).finish else .fault .notEnabled

end Sys2Proof.Machine
end

