-- ==== Sys2Proof/Machine/Events.lean ====
section
/-! DEFINITION. The asynchronous events (60_exceptions.md R268, R269) and reset (70_reset_and_hazards.md R300, R304). None of
them saves state, moves the control loop elsewhere or fails (R271, R272). -/

namespace Sys2Proof.Machine

/-- The environment after byte `b` has arrived on side `sd` (R269). -/
def Env.receive (e : Env) (sd : Side) (b : Byte) : Env := { e with rxq := e.rxq.set sd (e.rxq.get sd ++ [b]) }

/-- EV_TIMER_EXPIRE d: sets `exp[d]` if the timer is armed (R268). -/
def execEvTimerExpire (d : Side) (s : State) : Host.Outcome State Fault Refusal :=
  .next (if s.armed.get d then s.setExp d true else s)

/-- EV_RX_BYTE s, b: the byte joins the receive queue (R269). It does not move `phase` (R271): a hold is lifted because the
suspended SLEEP_STEP finds a byte when it is next tried. -/
def execEvRxByte (sd : Side) (b : Byte) (s : State) : Host.Outcome State Fault Refusal :=
  .next (s.setEnv (s.env.receive sd b))

/-- EV_RESET: every state element into its reset value; the environment's state, the parameters and the moves to come stay
(R300, R304; log entry 18). -/
def execEvReset (s : State) : Host.Outcome State Fault Refusal :=
  .next (State.resetWith s.params s.env s.agenda)

end Sys2Proof.Machine
end

