-- ==== Sys2Proof/Machine/RingBuffer.lean ====
section
/-! DEFINITION. The ring-buffer operations as steps of their own (40_ring_buffer.md). -/

namespace Sys2Proof.Machine

/-- RB_ENQUEUE d, byte (R150): returns `ok`. -/
def execRbEnqueue (d : Side) (b : Byte) (s : State) : Host.Outcome State Fault Refusal :=
  (rbEnqueue d b s).finishWith .bit

/-- RB_DEQUEUE d (R151): returns the oldest byte, or none. -/
def execRbDequeue (d : Side) (s : State) : Host.Outcome State Fault Refusal :=
  (rbDequeue d s).finishWith .optByte

/-- RB_DRAIN_ALL d (R152): returns every queued byte, oldest first. -/
def execRbDrainAll (d : Side) (s : State) : Host.Outcome State Fault Refusal :=
  (rbDrainAll d s).finishWith .byteSeq

/-- RB_AVAILABLE d (R153): returns the number of queued bytes. -/
def execRbAvailable (d : Side) (s : State) : Host.Outcome State Fault Refusal :=
  .next (s.setResult (.number (rbAvailable d s)))

end Sys2Proof.Machine
end

