-- ==== Sys2Proof/Machine/Dispatch.lean ====
section
/-! DEFINITION. One arm for each instruction: its meaning. -/

namespace Sys2Proof.Machine

def exec (i : Instr) (s : State) : Host.Outcome State Fault Refusal :=
  match i with
  | .cmdWrite a b c d e => Sys2Proof.Machine.execCmdWrite a b c d e s
  | .cmdRead => Sys2Proof.Machine.execCmdRead s
  | .cmdInvalid bytes => Sys2Proof.Machine.execCmdInvalid bytes s
  | .rbEnqueue d b => Sys2Proof.Machine.execRbEnqueue d b s
  | .rbDequeue d => Sys2Proof.Machine.execRbDequeue d s
  | .rbDrainAll d => Sys2Proof.Machine.execRbDrainAll d s
  | .rbAvailable d => Sys2Proof.Machine.execRbAvailable d s
  | .cfgSetParams bytes => Sys2Proof.Machine.execCfgSetParams bytes s
  | .cfgGetParams => Sys2Proof.Machine.execCfgGetParams s
  | .cfgInputCommand bytes => Sys2Proof.Machine.execCfgInputCommand bytes s
  | .cfgAirRate => Sys2Proof.Machine.execCfgAirRate s
  | .cfgUartBaud => Sys2Proof.Machine.execCfgUartBaud s
  | .modeDecode ms0 ms1 => Sys2Proof.Machine.execModeDecode ms0 ms1 s
  | .modeTransition mode => Sys2Proof.Machine.execModeTransition mode s
  | .enterSleep => Sys2Proof.Machine.execEnterSleep s
  | .leaveSleep => Sys2Proof.Machine.execLeaveSleep s
  | .dirPoll d => Sys2Proof.Machine.execDirPoll d s
  | .dirSizeCheck d => Sys2Proof.Machine.execDirSizeCheck d s
  | .dirExpiry d => Sys2Proof.Machine.execDirExpiry d s
  | .dirFlush d => Sys2Proof.Machine.execDirFlush d s
  | .normalService d => Sys2Proof.Machine.execNormalService d s
  | .sleepStep => Sys2Proof.Machine.execSleepStep s
  | .unimplStep mode => Sys2Proof.Machine.execUnimplStep mode s
  | .tick => Sys2Proof.Machine.execTick s
  | .startup => Sys2Proof.Machine.execStartup s
  | .evTimerExpire d => Sys2Proof.Machine.execEvTimerExpire d s
  | .evRxByte sd b => Sys2Proof.Machine.execEvRxByte sd b s
  | .evReset => Sys2Proof.Machine.execEvReset s

end Sys2Proof.Machine
end

