-- ==== Sys2Proof/Machine/Fetch.lean ====
section
/-! DEFINITION. What a step runs: the moves of the agents (42_bridge_controller.md R241, 60_exceptions.md R271), the operation
the control loop's phase names (10_state.md R57, R58), and when an operation may run (R201, R243). The block fetches no
instructions (20_memory.md R96): the agenda takes the place of a program (log entries 3, 12). -/

namespace Sys2Proof.Machine

/-- Events of the interrupt context and the environment, which may happen in every phase (R243, R271, R304). -/
def isEvent : Instr → Bool
  | .evTimerExpire _ => true
  | .evRxByte _ _ => true
  | .evReset => true
  | _ => false

/-- The operations other than TICK and STARTUP that may leave a phase without a failure: a tick's bodies, whose edges of R58 begin in RUN
or SLEEP_WAIT (SLEEP_STEP R230, UNIMPL_STEP R236). -/
def movesPhase : Instr → Bool
  | .sleepStep => true
  | .unimplStep _ => true
  | _ => false

/-- An operation of the control loop: none in HALTED or REFUSED (R243); while the loop holds, only the suspended SLEEP_STEP
(R201, R234); in STARTUP none that would move the phase along an edge R58 does not have (10_state.md R59). DESIGN CHOICE (log entries
5, 30): in STARTUP and in RUN the other operations may be asked for by themselves. -/
def issueLoop (i : Instr) (s : State) : Host.Outcome State Fault Refusal :=
  match s.phase with
  | .halted => .fault (.ioHalted s.status.cause)
  | .refused => .refused (.unimplementedMode s.refusedMark)
  | .sleepWait => if i = .sleepStep then exec i s else .fault .notEnabled
  | .startup => if movesPhase i then .fault .notEnabled else exec i s
  | .run => exec i s

/-- An instruction issued: an event always runs; an operation of the control loop when the loop may step. -/
def issue (i : Instr) (s : State) : Host.Outcome State Fault Refusal :=
  if isEvent i then exec i s else issueLoop i s

/-- The operation the phase names: STARTUP after reset, a TICK in RUN, the suspended SLEEP_STEP in SLEEP_WAIT (R58). HALTED and
REFUSED name none, and `issueLoop` stops whatever is asked for there. -/
def nextOfPhase : Phase → Instr
  | .startup => .startup
  | .run => .tick
  | .sleepWait => .sleepStep
  | .halted => .tick
  | .refused => .tick

/-- The control loop takes its own next step. -/
def loopStep (s : State) : Host.Outcome State Fault Refusal := issue (nextOfPhase s.phase) s

/-- A decoded word is run; a word with no instruction is refused by name (30_encoding.md R129). -/
def runWord (w : CodeWord) (s : State) : Host.Outcome State Fault Refusal :=
  match decode w with
  | .ok i => issue i s
  | .error (.reservedCode c) => .refused (.reservedCode c)
  | .error (.wrongOperands c) => .refused (.wrongOperands c)

/-- One move of an agent. -/
def takeMove (m : Move) (s : State) : Host.Outcome State Fault Refusal :=
  match m with
  | .loop => loopStep s
  | .run w => runWord w s
  | .lines ms0 ms1 => .next (s.setEnv { s.env with ms0 := ms0, ms1 := ms1 })
  | .draws ds => .next (s.setEnv { s.env with draws := ds })

/-- The phase in which the control loop issues an operation: RUN for a TICK, STARTUP for the startup sequence; any other
operation of the loop runs in the phase as it is, unless the loop takes no step there. -/
def issuePhase (i : Instr) (ph : Phase) : Phase :=
  if isEvent i then ph
  else if i = .tick then .run
  else if i = .startup then .startup
  else match ph with
    | .startup => if movesPhase i then .run else .startup
    | .run => .run
    | .sleepWait => if i = .sleepStep then .sleepWait else .run
    | .halted => .run
    | .refused => .run

/-- The phase in which the operation of a word is issued. -/
def wordPhase (w : CodeWord) (ph : Phase) : Phase :=
  match decode w with
  | .ok i => issuePhase i ph
  | .error _ => ph

end Sys2Proof.Machine
end

