-- ==== Sys2Proof/Machine/Step.lean ====
section
/-! DEFINITION. One step of the machine: the next move of the agenda, or the control loop's own step when none is pending
(log entries 3, 12). -/

namespace Sys2Proof.Machine

/-- One step. -/
def step (s : State) : Host.Outcome State Fault Refusal :=
  match s.agenda with
  | [] => loopStep s
  | m :: rest => takeMove m (s.setAgenda rest)

/-- `s` with a table word as the next move, in the phase in which its operation is issued (log entry 12). -/
def State.withFetchWord (s : State) (nbits w : Nat) : State :=
  (s.setPhase (wordPhase (layOut nbits w) s.phase)).setAgenda (.run (layOut nbits w) :: s.agenda)

end Sys2Proof.Machine
end

