-- ==== Sys2Proof/Safety.lean ====
section
/-! DEFINITION. The terms in which claims about the machine are made: what a ring buffer and the scratch buffer hold, when every
primitive call succeeds, which states are sound, what holds between two steps of the agents' own run, and what a frame leaves alone. -/

namespace Sys2Proof.Machine

/-! ## Storage -/

/-- The ring `r` of capacity `cap` holds exactly the bytes `q`, oldest first: `count` is their number and at most the capacity,
`wr = (rd + count) mod cap` (10_state.md R38), the live window `rd, rd + 1, ... (mod cap)` holds them in order (R39), and no slot
outside it holds a value (20_memory.md R91; 93 I1). -/
structure Ring.Holds (cap : Nat) (r : Ring) (q : List Byte) : Prop where
  rd_lt : r.rd < cap
  count_eq : r.count = q.length
  count_le : r.count ≤ cap
  wr_eq : r.wr = (r.rd + r.count) % cap
  canonical : r.buf.wf = true
  inside : ∀ x ∈ r.buf, x.1 < cap
  live : ∀ k (h : k < q.length), r.buf.slot ((r.rd + k) % cap) = some q[k]
  dead : ∀ i, (∀ k, k < q.length → (r.rd + k) % cap ≠ i) → r.buf.slot i = none

/-- The ring buffer of direction `d` holds exactly `q`. -/
def State.Queue (s : State) (d : Side) (q : List Byte) : Prop := (s.rb.get d).Holds s.params.ringCap q

/-- The scratch buffer holds exactly the bytes `fr` of a frame (10_state.md R42, R43), and no slot at or above `scratch_len` holds
a value (20_memory.md R91; 93 I2). -/
structure State.FrameHeld (s : State) (fr : List Byte) : Prop where
  len_eq : s.scratchLen = fr.length
  canonical : s.scratch.wf = true
  inside : ∀ x ∈ s.scratch, x.1 < scratchSize
  live : ∀ k (h : k < fr.length), s.scratch.slot k = some fr[k]
  dead : ∀ k, fr.length ≤ k → s.scratch.slot k = none

/-- `fr` is a proper beginning of a frame, possibly empty: its first byte asks for more (30_encoding.md R110). -/
def frameOpen : List Byte → Bool
  | [] => true
  | b0 :: bs => decide ((b0 :: bs).length < frameLen b0)

/-- `fr` is a complete frame (R110). -/
def frameComplete : List Byte → Bool
  | [] => false
  | b0 :: bs => decide ((b0 :: bs).length = frameLen b0)

/-- How many bytes the next Sleep read asks for when `fr` is held (42_bridge_controller.md R230). -/
def needAfter : List Byte → Nat
  | [] => 1
  | b0 :: bs => frameLen b0 - (b0 :: bs).length

/-! ## The environment -/

/-- No primitive call fails: every coming draw is a success (60_exceptions.md R263: "no IO_FAILURE" as a premise). -/
def State.CallsSucceed (s : State) : Prop := ∀ x ∈ s.env.draws, x = Draw.ok

/-- `s` with the first `n` draws taken. -/
def State.dropDraws (s : State) (n : Nat) : State := s.setEnv { s.env with draws := s.env.draws.drop n }

/-- `s` with other levels on the two mode-select inputs. -/
def State.withLines (s : State) (ms0 ms1 : Bool) : State := s.setEnv { s.env with ms0 := ms0, ms1 := ms1 }

/-- The bytes the next poll of side `d` takes (42_bridge_controller.md R200, R220). -/
def State.polled (s : State) (d : Side) : List Byte := (s.env.rxq.get d).take s.params.rxChunk

/-- Those of them that fit in a buffer holding `q` (R220: on a full buffer the newest bytes are the ones lost). -/
def State.accepted (s : State) (d : Side) (q : List Byte) : List Byte :=
  (s.polled d).take (s.params.ringCap - q.length)

/-- The output of one write; nothing for the empty sequence (R202). -/
def writeOutputs (sd : Side) (bytes : List Byte) : List Output := if bytes = [] then [] else [.wrote sd bytes]

/-! ## Sound states -/

/-- A state whose storage is as the spec says it always is, kept by every step whatever moves the agenda holds: the parameters
are legal, each ring buffer is well formed (10_state.md R38, R39), the drop counters fit their width (R41), and the scratch
buffer holds part of one frame (R42, 42_bridge_controller.md R231; all of it only where an exchange was cut short by a halt). -/
structure State.Sound (s : State) : Prop where
  params : s.params.wf = true
  rings : ∀ d, ∃ q, s.Queue d q
  drops : ∀ d, s.drop.get d < 2 ^ s.params.dropCntWidth
  frame : ∃ fr, s.FrameHeld fr ∧ (frameOpen fr = true ∨ (s.phase = .halted ∧ frameComplete fr = true))

/-! ## The agents' own run -/

/-- A move the agents of 10_state.md R31 make: the control loop's STARTUP and TICK, the events, and the environment's settings.
(The other moves run one operation of the control loop by itself, which the block never does.) -/
def Move.ofAgents : Move → Bool
  | .loop => true
  | .lines _ _ => true
  | .draws _ => true
  | .run w =>
    match decode w with
    | .ok i => isEvent i || decide (i = .tick) || decide (i = .startup)
    | .error _ => false

/-- What holds between any two steps of the agents' own run. -/
structure State.LoopInv (s : State) : Prop where
  sound : s.Sound
  agents : ∀ m ∈ s.agenda, m.ofAgents = true
  /-- The idle count never exceeds the threshold (10_state.md R46); only a halt inside a flush leaves it there. -/
  idle_le : ∀ d, s.idle.get d ≤ s.params.idleThreshold
  idle_lt : s.phase ≠ .halted → ∀ d, s.idle.get d < s.params.idleThreshold
  /-- The last observed count is the count (R47). -/
  last_eq : s.phase ≠ .halted → ∀ d, s.lastCount.get d = (s.rb.get d).count
  /-- Only an armed timer has an expiry pending (42_bridge_controller.md R206, R207; 60_exceptions.md R268). -/
  exp_armed : ∀ d, s.exp.get d = true → s.armed.get d = true
  /-- In Normal a buffer's timer is armed exactly while it holds bytes, so no byte is stranded (R221, R223, R214). -/
  armed_iff : s.phase = .run → s.prevMode = .normal → ∀ d, s.armed.get d = true ↔ 0 < (s.rb.get d).count
  /-- In Sleep the timers are disarmed (R232). -/
  sleep_disarmed : s.phase = .run ∨ s.phase = .sleepWait → s.prevMode = .sleep → ∀ d, s.armed.get d = false
  /-- A run goes on only in Normal and Sleep; the hold is a Sleep tick's (R236, R240). -/
  run_mode : s.phase = .run → s.prevMode = .normal ∨ s.prevMode = .sleep
  wait_mode : s.phase = .sleepWait → s.prevMode = .sleep
  /-- Outside Sleep no partial frame is held (R214). -/
  no_frame : s.phase = .run → s.prevMode = .normal → s.scratchLen = 0
  /-- In Normal the ports run at the speeds of the record as it is (R35, R214, 70_reset_and_hazards.md R301). -/
  data_speeds : s.phase = .run → s.prevMode = .normal →
    s.speed.h = uartBaud s.cfg ∧ s.speed.p = peerSpeed s.params s.cfg
  /-- In Sleep the switched side runs at the bootstrap speed (R213, R316). -/
  boot_speed : s.phase = .run ∨ s.phase = .sleepWait → s.prevMode = .sleep →
    s.speed.get s.params.sleepSpeedSide = s.params.bootBaud
  /-- The status line is high outside exchanges (10_state.md R51). -/
  line_high : s.phase = .run ∨ s.phase = .sleepWait ∨ s.phase = .refused → s.statusOut = true
  /-- STATUS tells HALTED and REFUSED, and its cause is 0 exactly while not halted (R53). -/
  halted_iff : s.status.halted = true ↔ s.phase = .halted
  cause_iff : s.status.cause ≠ 0 ↔ s.phase = .halted
  unimpl_iff : s.status.unimpl = true ↔ s.phase = .refused
  /-- The refused mark names the mode that was refused (R265). -/
  mark : s.phase = .refused → ∃ m, s.refusedMark = some m ∧ s.prevMode = UnimplMode.toMode m
  /-- Before STARTUP nothing has happened but events (70_reset_and_hazards.md R300). -/
  fresh : s.phase = .startup →
    s.cfg = s.params.cfgReset ∧ s.prevMode = .normal ∧ s.scratchLen = 0 ∧
      (∀ d, (s.rb.get d).count = 0 ∧ s.armed.get d = false)

/-- The phase edges of 10_state.md R58 (and staying where it is), EV_RESET included. -/
def phaseEdge : Phase → Phase → Bool
  | _, .startup => true
  | .startup, .run => true
  | .startup, .halted => true
  | .run, .run => true
  | .run, .sleepWait => true
  | .run, .halted => true
  | .run, .refused => true
  | .sleepWait, .sleepWait => true
  | .sleepWait, .run => true
  | .sleepWait, .halted => true
  | .halted, .halted => true
  | .refused, .refused => true
  | _, _ => false

/-! ## Runs of ring-buffer operations (40_ring_buffer.md R154) -/

/-- The operations the counting law speaks of. -/
inductive RingOp where
  | enqueue (b : Byte)
  | dequeue
  | drainAll
deriving DecidableEq, Repr

/-- The instruction on `rb[d]`. -/
def RingOp.instr (d : Side) : RingOp → Instr
  | .enqueue b => .rbEnqueue d b
  | .dequeue => .rbDequeue d
  | .drainAll => .rbDrainAll d

/-- The bytes accepted and the bytes removed so far, in order. -/
structure Tally where
  accepted : List Byte
  removed : List Byte
deriving DecidableEq, Repr

/-- What an operation and its returned result add to the tally. -/
def Tally.add (t : Tally) (op : RingOp) (r : OpResult) : Tally :=
  match op, r with
  | .enqueue b, .bit true => { t with accepted := t.accepted ++ [b] }
  | .dequeue, .optByte (some v) => { t with removed := t.removed ++ [v] }
  | .drainAll, .byteSeq bs => { t with removed := t.removed ++ bs }
  | _, _ => t

/-- A sequence of operations on `rb[d]`, each a step of its own, with the tally kept beside it. -/
def runRing (d : Side) : List RingOp → State → Tally → Option (State × Tally)
  | [], s, t => some (s, t)
  | op :: ops, s, t =>
    match exec (op.instr d) s with
    | .next s1 => runRing d ops s1 (t.add op s1.result)
    | .fault _ => none
    | .refused _ => none

/-! ## Silence (30_encoding.md R133, `IDLE d`) -/

/-- `n` times: the idle timer of direction `d` expires, then a tick. -/
def idleRounds (d : Side) : Nat → List Move
  | 0 => []
  | n + 1 => .run (encode (.evTimerExpire d)) :: .run (encode .tick) :: idleRounds d n

/-- Quiescence (60_exceptions.md R280): nothing is waiting anywhere in the block or at its ports. -/
def State.quiescent (s : State) : Bool :=
  decide (s.phase = .run) && decide (s.env.rxq = .both []) && s.isEmpty .H && s.isEmpty .P &&
    decide (s.scratchLen = 0) && decide (s.status.byte = 0)

end Sys2Proof.Machine
end

