-- ==== Sys2Proof/Certificates/Slice0/Obligations.lean ====
section
/-! DEFINITION. The statements for the provers. Each says which rule of spec/ it formalises. A next state is written as the
old state with the changed fields named, so that every field not named is unchanged: that is the statement's frame. `CallsSucceed`
is the premise "no IO_FAILURE" of 60_exceptions.md R263; `Queue d q` says that `rb[d]` is well formed and holds exactly `q`. -/

open Sys2Proof Sys2Proof.Machine

/-! ## Encodings -/

/-- Decode after encode, every instruction and operand (30_encoding.md R110 to R113, R127, R128, R134; the operand bytes and the
frame/operation-code tag are the model's, log entries 10, 11). -/
def Obligations.DecodeOfEncode : Prop :=
  ∀ i : Instr, i.wellFormed = true → decode (encode i) = .ok i

/-- Encode after decode: no two words have one meaning, and what is decoded is well formed (log entries 10, 11). -/
def Obligations.EncodeOfDecode : Prop :=
  ∀ (w : CodeWord) (i : Instr), decode w = .ok i → i.wellFormed = true ∧ encode i = w

/-- First clause, R129: an operation code is turned down as reserved exactly when the map of R128 does not list it (units 4 to 7,
unlisted operations, and bit 0 set where no direction is taken). Second clause, the model's own (log entry 3): the step refuses such
a word at the head of the agenda by name, and it decodes before it looks at the phase. -/
def Obligations.ReservedCodesAreRejected : Prop :=
  ∀ (code : Byte) (operands : List Byte),
    (decode (.op code operands) = .error (.reservedCode code) ↔
      code ∉ ([0x00, 0x01, 0x02, 0x03, 0x04, 0x05, 0x06, 0x07] ++ [0x20, 0x22, 0x24, 0x26, 0x28] ++
        [0x40, 0x42, 0x44, 0x46] ++ [0x48, 0x49, 0x4A, 0x4B, 0x4C, 0x4D, 0x4E, 0x4F, 0x50, 0x51] ++
        [0x52, 0x54, 0x56, 0x58] ++ [0x60, 0x61, 0x62, 0x63, 0x64] : List Byte)) ∧
    ∀ (s : State) (rest : List Move), s.agenda = .run (.op code operands) :: rest →
      decode (.op code operands) = .error (.reservedCode code) → step s = .refused (.reservedCode code)

/-- Words of the opcode table, written out from it, decode to their rows (R111, R112, R128). -/
def Obligations.TableWordsDecode : Prop :=
  decodeTableWord 48 0xC012343D0644 = some (.cmdWrite 0x12 0x34 0x3D 0x06 0x44) ∧
  decodeTableWord 24 0xC1C1C1 = some .cmdRead ∧
  decodeTableWord 24 0xC1C1C0 = some (.cmdInvalid [0xC1, 0xC1, 0xC0]) ∧
  decodeTableWord 8 0x01 = some (.rbEnqueue .P 0) ∧
  decodeTableWord 8 0x26 = some .cfgAirRate ∧
  decodeTableWord 8 0x4F = some (.dirFlush .P) ∧
  decodeTableWord 8 0x56 = some .tick ∧
  decodeTableWord 8 0x60 = some (.evTimerExpire .H) ∧
  decodeTableWord 8 0x57 = none

/-! ## The step -/

/-- A step runs the decoded instruction: a word at the head of the agenda that decodes to `i` is run as `i`, with the word taken
from the agenda. The agenda is the model's own (log entry 3), and so is that an operation other than STARTUP and TICK may be asked for
by itself in STARTUP and in RUN (log entries 5, 30). What would leave the phase along no edge of 10_state.md R58 (R59), or step while
the loop holds (42_bridge_controller.md R201, R234), is not enabled (the name is log entry 23's). -/
def Obligations.StepRunsTheDecodedInstruction : Prop :=
  ∀ (s : State) (w : CodeWord) (rest : List Move) (i : Instr),
    s.agenda = .run w :: rest → decode w = .ok i →
    ((isEvent i = true ∨ s.phase = .run ∨ (s.phase = .sleepWait ∧ i = .sleepStep) ∨
        (s.phase = .startup ∧ i ≠ .sleepStep ∧ ∀ m, i ≠ .unimplStep m)) →
      step s = exec i (s.setAgenda rest)) ∧
    (((s.phase = .startup ∧ (i = .sleepStep ∨ ∃ m, i = .unimplStep m)) ∨
        (s.phase = .sleepWait ∧ isEvent i = false ∧ i ≠ .sleepStep)) →
      step s = .fault .notEnabled)

/-- With no move pending, or on the move `loop`, the control loop takes the step its phase names (10_state.md R58; log entry 3). -/
def Obligations.LoopTakesTheStepOfItsPhase : Prop :=
  ∀ (s s1 : State), (s.agenda = [] ∧ s1 = s) ∨ (∃ rest, s.agenda = .loop :: rest ∧ s1 = s.setAgenda rest) →
    (s.phase = .startup → step s = exec .startup s1) ∧
    (s.phase = .run → step s = exec .tick s1) ∧
    (s.phase = .sleepWait → step s = exec .sleepStep s1)

/-- The next step after `withFetchWord` runs exactly the table word's instruction, from every phase (log entry 12). -/
def Obligations.FetchedWordRunsNext : Prop :=
  ∀ (s : State) (nbits w : Nat) (i : Instr), decodeTableWord nbits w = some i →
    ∃ ph, step (s.withFetchWord nbits w) = exec i (s.setPhase ph) ∧
      (isEvent i = true → ph = s.phase) ∧ (i = .tick → ph = .run) ∧ (i = .startup → ph = .startup)

/-! ## Ring buffer (40_ring_buffer.md) -/

/-- R150: below capacity the byte is appended at `wr`; on a full buffer nothing but the returned `ok` changes. -/
def Obligations.RbEnqueueAppendsOrRejects : Prop :=
  ∀ (s : State) (d : Side) (b : Byte) (q : List Byte), s.Queue d q →
    (q.length < s.params.ringCap →
      ∃ r, exec (.rbEnqueue d b) s = .next ((s.setRb d r).setResult (.bit true)) ∧
        r.Holds s.params.ringCap (q ++ [b]) ∧ r.rd = (s.rb.get d).rd ∧
        r.wr = ((s.rb.get d).wr + 1) % s.params.ringCap ∧ r.count = (s.rb.get d).count + 1 ∧
        r.buf.slot (s.rb.get d).wr = some b ∧
        ∀ i, i ≠ (s.rb.get d).wr → r.buf.slot i = (s.rb.get d).buf.slot i) ∧
    (q.length = s.params.ringCap → exec (.rbEnqueue d b) s = .next (s.setResult (.bit false)))

/-- R151: the oldest byte is removed and returned, and its slot, now outside the live window, holds no value (20_memory.md R91); on an
empty buffer nothing but the returned `none` changes. -/
def Obligations.RbDequeueRemovesOldest : Prop :=
  ∀ (s : State) (d : Side),
    (∀ b q, s.Queue d (b :: q) →
      ∃ r, exec (.rbDequeue d) s = .next ((s.setRb d r).setResult (.optByte (some b))) ∧
        r.Holds s.params.ringCap q ∧ r.rd = ((s.rb.get d).rd + 1) % s.params.ringCap ∧
        r.wr = (s.rb.get d).wr ∧ r.count + 1 = (s.rb.get d).count ∧
        r.buf.slot (s.rb.get d).rd = none ∧
        ∀ i, i ≠ (s.rb.get d).rd → r.buf.slot i = (s.rb.get d).buf.slot i) ∧
    (s.Queue d [] → exec (.rbDequeue d) s = .next (s.setResult (.optByte none)))

/-- R152: every byte is removed and returned oldest first; `rd` moves by the count, `wr` stays, and no slot holds a value
(20_memory.md R91). -/
def Obligations.RbDrainAllReturnsTheQueue : Prop :=
  ∀ (s : State) (d : Side) (q : List Byte), s.Queue d q →
    exec (.rbDrainAll d) s =
      .next ((s.setRb d
        { buf := [], rd := ((s.rb.get d).rd + q.length) % s.params.ringCap, wr := (s.rb.get d).wr, count := 0 }).setResult
          (.byteSeq q)) ∧
    Ring.Holds s.params.ringCap
      { buf := [], rd := ((s.rb.get d).rd + q.length) % s.params.ringCap, wr := (s.rb.get d).wr, count := 0 } []

/-- R153: the number of queued bytes, at most the capacity, with no side effect. -/
def Obligations.RbAvailableCountsTheQueue : Prop :=
  ∀ (s : State) (d : Side) (q : List Byte), s.Queue d q →
    exec (.rbAvailable d) s = .next (s.setResult (.number q.length)) ∧ q.length ≤ s.params.ringCap

/-- R154, the counting law: any sequence of operations on one instance, starting empty, runs to its end; the bytes removed are
the accepted bytes in order, RB_AVAILABLE is their difference, and it lies in 0..RING_CAP. -/
def Obligations.RingCountingLaw : Prop :=
  ∀ (s : State) (d : Side) (ops : List RingOp), s.Queue d [] →
    ∃ t y q, runRing d ops s ⟨[], []⟩ = some (t, y) ∧ t.params = s.params ∧ t.Queue d q ∧
      y.accepted = y.removed ++ q ∧
      exec (.rbAvailable d) t = .next (t.setResult (.number (y.accepted.length - y.removed.length))) ∧
      y.removed.length ≤ y.accepted.length ∧ y.accepted.length - y.removed.length ≤ s.params.ringCap

/-! ## Configuration store and command decoder (41_config_store.md) -/

/-- R170: six bytes overwrite the record verbatim, and it is a silent no-op at any other length. -/
def Obligations.CfgSetParamsOverwritesAtSixBytes : Prop :=
  ∀ (s : State) (bytes : List Byte),
    (∀ p a b c d e, bytes = [p, a, b, c, d, e] →
      exec (.cfgSetParams bytes) s =
        .next { s with cfg := { preamble := p, addrHigh := a, addrLow := b, speed := c, channel := d, option := e } }) ∧
    (bytes.length ≠ 6 → exec (.cfgSetParams bytes) s = .next s)

/-- R171: the record is returned in offset order, with no side effect. -/
def Obligations.CfgGetParamsReturnsTheRecord : Prop :=
  ∀ s : State, exec .cfgGetParams s =
    .next { s with result := .byteSeq [s.cfg.preamble, s.cfg.addrHigh, s.cfg.addrLow, s.cfg.speed, s.cfg.channel, s.cfg.option] }

/-- R172, R173, R117, R118: the air data rate of bits 2:0 of the speed byte (codes 101, 110 and 111 all 19200) and the serial
speed of bits 5:3; no other bit matters and nothing else changes. -/
def Obligations.CfgSpeedsReadTheTables : Prop :=
  ∀ s : State, ∃ a u,
    ([300, 1200, 2400, 4800, 9600, 19200, 19200, 19200] : List Nat)[s.cfg.speed.toNat % 8]? = some a ∧
    ([1200, 2400, 4800, 9600, 19200, 38400, 57600, 115200] : List Nat)[s.cfg.speed.toNat / 8 % 8]? = some u ∧
    exec .cfgAirRate s = .next { s with result := .number a } ∧
    exec .cfgUartBaud s = .next { s with result := .number u }

/-- R175, R119: the record is stored with preamble 0xC0 and the answer is "OK". -/
def Obligations.CmdWriteStoresAndAnswersOk : Prop :=
  ∀ (s : State) (a b c d e : Byte), exec (.cmdWrite a b c d e) s =
    .next { s with
      cfg := { preamble := 0xC0, addrHigh := a, addrLow := b, speed := c, channel := d, option := e }
      result := .byteSeq ([0x4F, 0x4B] ++ s.params.respTerminator) }

/-- R176, R121, R122, R178: the answer is the 17-byte dump, two uppercase digits a byte, high nibble first, a space (0x20)
between bytes; nothing else changes. -/
def Obligations.CmdReadAnswersTheHexDump : Prop :=
  ∀ s : State, ∃ dump : List Byte,
    exec .cmdRead s = .next { s with result := .byteSeq (dump ++ s.params.respTerminator) } ∧ dump.length = 17 ∧
    (∀ i v, ([s.cfg.preamble, s.cfg.addrHigh, s.cfg.addrLow, s.cfg.speed, s.cfg.channel, s.cfg.option] : List Byte)[i]? = some v →
      dump[3 * i]? = ([0x30, 0x31, 0x32, 0x33, 0x34, 0x35, 0x36, 0x37, 0x38, 0x39, 0x41, 0x42, 0x43, 0x44, 0x45, 0x46] : List Byte)[v.toNat / 16]? ∧
      dump[3 * i + 1]? = ([0x30, 0x31, 0x32, 0x33, 0x34, 0x35, 0x36, 0x37, 0x38, 0x39, 0x41, 0x42, 0x43, 0x44, 0x45, 0x46] : List Byte)[v.toNat % 16]?) ∧
    ∀ i, i < 5 → dump[3 * i + 2]? = some 0x20

/-- R177, R120: any other frame is answered "ERROR" and nothing else changes. -/
def Obligations.CmdInvalidAnswersError : Prop :=
  ∀ (s : State) (bytes : List Byte), exec (.cmdInvalid bytes) s =
    .next { s with result := .byteSeq ([0x45, 0x52, 0x52, 0x4F, 0x52] ++ s.params.respTerminator) }

/-- R174, R114: CFG_INPUT_COMMAND runs CMD_WRITE on six bytes led by 0xC0, CMD_READ on C1 C1 C1, and CMD_INVALID on anything
else, including the empty sequence; each of them completes. -/
def Obligations.InputCommandClassifies : Prop :=
  ∀ (s : State) (bytes : List Byte),
    (∃ t, exec (.cfgInputCommand bytes) s = .next t) ∧
    (∀ a b c d e, bytes = [0xC0, a, b, c, d, e] → exec (.cfgInputCommand bytes) s = exec (.cmdWrite a b c d e) s) ∧
    (bytes = [0xC1, 0xC1, 0xC1] → exec (.cfgInputCommand bytes) s = exec .cmdRead s) ∧
    ((∀ a b c d e, bytes ≠ [0xC0, a, b, c, d, e]) → bytes ≠ [0xC1, 0xC1, 0xC1] →
      exec (.cfgInputCommand bytes) s = exec (.cmdInvalid bytes) s)

/-- R179: after `[0xC0, a, b, c, d, e]` the answer is "OK" and CFG_GET_PARAMS returns exactly those bytes; any sequence that is
not a write leaves `cfg` unchanged, and one that is neither a write nor a read is answered "ERROR". -/
def Obligations.WriteThenGetReturnsTheBytes : Prop :=
  ∀ (s : State),
    (∀ a b c d e, ∃ t u, exec (.cfgInputCommand [0xC0, a, b, c, d, e]) s = .next t ∧
      t.result = .byteSeq ([0x4F, 0x4B] ++ s.params.respTerminator) ∧
      exec .cfgGetParams t = .next u ∧ u.result = .byteSeq [0xC0, a, b, c, d, e]) ∧
    (∀ bytes, (∀ a b c d e, bytes ≠ [0xC0, a, b, c, d, e]) →
      ∃ t, exec (.cfgInputCommand bytes) s = .next t ∧ t.cfg = s.cfg ∧
        (bytes ≠ [0xC1, 0xC1, 0xC1] →
          t.result = .byteSeq ([0x45, 0x52, 0x52, 0x4F, 0x52] ++ s.params.respTerminator)))

/-! ## Mode multiplexer (42_bridge_controller.md) -/

/-- R210, R126: the four combinations, and no state but the returned mode. -/
def Obligations.ModeDecodeMapsTheLines : Prop :=
  ∀ s : State,
    exec (.modeDecode false false) s = .next { s with result := .mode .normal } ∧
    exec (.modeDecode true false) s = .next { s with result := .mode .wakeUp } ∧
    exec (.modeDecode false true) s = .next { s with result := .mode .powerSaving } ∧
    exec (.modeDecode true true) s = .next { s with result := .mode .sleep }

/-- R213: both timers disarmed, the sleep side at BOOT_BAUD, the scratch buffer emptied (no slot of it holds a value,
20_memory.md R91), and nothing else. -/
def Obligations.EnterSleepEffect : Prop :=
  ∀ s : State, s.CallsSucceed →
    exec .enterSleep s = .next { s with
      armed := .both false
      exp := .both false
      speed := s.speed.set s.params.sleepSpeedSide s.params.bootBaud
      scratch := []
      scratchLen := 0
      env := { s.env with
        log := s.env.log ++ [.speedSet s.params.sleepSpeedSide s.params.bootBaud]
        draws := s.env.draws.drop 3 } }

/-- R214: side H at `UartBaud`, side P at `PeerSpeed(cfg)` of the record as it is, the scratch buffer emptied, both idle runs
restarted, and the timer armed, at the restored speeds, exactly for a direction that holds bytes; nothing else changes. -/
def Obligations.LeaveSleepEffect : Prop :=
  ∀ s : State, s.CallsSucceed →
    ∃ t, exec .leaveSleep s = .next t ∧
      t = { s with
        speed := { h := uartBaud s.cfg, p := peerSpeed s.params s.cfg }
        scratch := []
        scratchLen := 0
        idle := .both 0
        lastCount := { h := s.rb.h.count, p := s.rb.p.count }
        armed := t.armed
        period := t.period
        exp := t.exp
        env := { s.env with
          log := s.env.log ++ [.speedSet .H (uartBaud s.cfg), .speedSet .P (peerSpeed s.params s.cfg)]
          draws := t.env.draws } } ∧
      ∀ d, (0 < (s.rb.get d).count →
          t.armed.get d = true ∧ t.exp.get d = false ∧
          t.period.get d = { bits := s.params.charBits, speed := t.speed.get (timerSide s.params d) }) ∧
        ((s.rb.get d).count = 0 →
          t.armed.get d = s.armed.get d ∧ t.exp.get d = s.exp.get d ∧ t.period.get d = s.period.get d)

/-- R212: no change, no effect; a change among Normal, WakeUp and PowerSaving only updates `prev_mode`; entering or leaving Sleep
runs ENTER_SLEEP or LEAVE_SLEEP first, and `prev_mode` is written only if that did not halt. -/
def Obligations.ModeTransitionSideEffects : Prop :=
  ∀ (s : State) (m : Mode),
    (m = s.prevMode → exec (.modeTransition m) s = .next s) ∧
    (m ≠ s.prevMode → m ≠ .sleep → s.prevMode ≠ .sleep → exec (.modeTransition m) s = .next { s with prevMode := m }) ∧
    (m = .sleep → s.prevMode ≠ .sleep → s.phase ≠ .halted →
      ∃ t, exec .enterSleep s = .next t ∧
        exec (.modeTransition m) s = .next (if t.phase = .halted then t else { t with prevMode := m })) ∧
    (m ≠ .sleep → s.prevMode = .sleep → s.phase ≠ .halted →
      ∃ t, exec .leaveSleep s = .next t ∧
        exec (.modeTransition m) s = .next (if t.phase = .halted then t else { t with prevMode := m })) ∧
    (s.CallsSucceed → ∃ t, exec (.modeTransition m) s = .next t ∧ t.phase = s.phase ∧ t.prevMode = m)

/-! ## Normal mode (42_bridge_controller.md) -/

/-- R220, R264: at most RX_CHUNK bytes leave the receive queue; those that fit are appended in order, the rest are dropped and
counted modulo 2^DROP_CNT_WIDTH. -/
def Obligations.DirPollTakesInTheBytes : Prop :=
  ∀ (s : State) (d : Side) (q : List Byte), s.Queue d q → s.CallsSucceed →
    s.drop.get d < 2 ^ s.params.dropCntWidth →
    ∃ r, exec (.dirPoll d) s = .next { s with
        rb := s.rb.set d r
        drop := s.drop.set d
          ((s.drop.get d + ((s.polled d).length - (s.accepted d q).length)) % 2 ^ s.params.dropCntWidth)
        arrived := s.arrived.set d (s.polled d).length
        env := { s.env with
          rxq := s.env.rxq.set d ((s.env.rxq.get d).drop s.params.rxChunk)
          draws := s.env.draws.drop 1 } } ∧
      r.Holds s.params.ringCap (q ++ s.accepted d q)

/-- R221: on a change of the count (or, with IDLE_RESET_ON = ARRIVAL, on an arrival) the idle run restarts and the timer is armed
with `Period(d)`, which clears `exp[d]`; otherwise nothing happens. -/
def Obligations.DirSizeCheckRestartsTheRun : Prop :=
  ∀ (s : State) (d : Side), s.CallsSucceed →
    (((s.rb.get d).count ≠ s.lastCount.get d ∨ (s.params.idleResetOn = .arrival ∧ 0 < s.arrived.get d)) →
      exec (.dirSizeCheck d) s = .next { s with
        lastCount := s.lastCount.set d (s.rb.get d).count
        idle := s.idle.set d 0
        armed := s.armed.set d true
        period := s.period.set d { bits := s.params.charBits, speed := s.speed.get (timerSide s.params d) }
        exp := s.exp.set d false
        env := { s.env with draws := s.env.draws.drop 1 } }) ∧
    ((s.rb.get d).count = s.lastCount.get d →
      (s.params.idleResetOn = .countChange ∨ s.arrived.get d = 0) → exec (.dirSizeCheck d) s = .next s)

/-- R222: a pending expiry is consumed, and counted exactly when the buffer is not empty. -/
def Obligations.DirExpiryCountsOnce : Prop :=
  ∀ (s : State) (d : Side),
    (s.exp.get d = false → exec (.dirExpiry d) s = .next s) ∧
    (s.exp.get d = true → (s.rb.get d).count = 0 →
      exec (.dirExpiry d) s = .next { s with exp := s.exp.set d false }) ∧
    (s.exp.get d = true → 0 < (s.rb.get d).count →
      exec (.dirExpiry d) s = .next { s with
        exp := s.exp.set d false
        idle := s.idle.set d (s.idle.get d + 1) })

/-- R223: at the threshold the whole queue is drained and written to the opposite side as one write, the idle run is cleared and
the timer disarmed; below it nothing happens. -/
def Obligations.DirFlushForwardsOneBurst : Prop :=
  ∀ (s : State) (d : Side) (q : List Byte), s.Queue d q → s.CallsSucceed →
    (s.params.idleThreshold ≤ s.idle.get d →
      exec (.dirFlush d) s = .next { s with
        rb := s.rb.set d
          { buf := [], rd := ((s.rb.get d).rd + q.length) % s.params.ringCap, wr := (s.rb.get d).wr, count := 0 }
        idle := s.idle.set d 0
        lastCount := s.lastCount.set d 0
        armed := s.armed.set d false
        exp := s.exp.set d false
        env := { s.env with
          log := s.env.log ++ writeOutputs d.opp q
          draws := s.env.draws.drop (if q = [] then 1 else 2) } }) ∧
    (s.idle.get d < s.params.idleThreshold → exec (.dirFlush d) s = .next s)

/-- R223, R263: when the write of a burst fails the drained bytes are not put back, a prefix may have been sent, the halt is
recorded with the side's write cause, and the lines after the write do not run. When the TimerDisarm after it fails, the burst has
been sent and the idle run cleared, and the halt is recorded with TIMER; that `armed[d]` and `exp[d]` then keep their old values is
log entry 19's choice (R263 leaves open what the failing call itself did). -/
def Obligations.FailedBurstWriteHalts : Prop :=
  ∀ (s : State) (d : Side) (q : List Byte) (n : Nat) (ds : List Draw), s.Queue d q →
    s.params.idleThreshold ≤ s.idle.get d →
    (q ≠ [] → s.env.draws = .fails n :: ds →
      exec (.dirFlush d) s = .next { s with
        rb := s.rb.set d
          { buf := [], rd := ((s.rb.get d).rd + q.length) % s.params.ringCap, wr := (s.rb.get d).wr, count := 0 }
        status := { s.status with halted := true, cause := if d = .H then 4 else 2 }
        phase := .halted
        env := { s.env with log := s.env.log ++ writeOutputs d.opp (q.take n), draws := ds } }) ∧
    (s.env.draws = (if q = [] then [] else [.ok]) ++ .fails n :: ds →
      exec (.dirFlush d) s = .next { s with
        rb := s.rb.set d
          { buf := [], rd := ((s.rb.get d).rd + q.length) % s.params.ringCap, wr := (s.rb.get d).wr, count := 0 }
        idle := s.idle.set d 0
        lastCount := s.lastCount.set d 0
        status := { s.status with halted := true, cause := 7 }
        phase := .halted
        env := { s.env with log := s.env.log ++ writeOutputs d.opp q, draws := ds } })

/-- R224: NORMAL_SERVICE is DIR_POLL, DIR_SIZE_CHECK, DIR_EXPIRY, DIR_FLUSH in that order, and a failing primitive ends it. -/
def Obligations.NormalServiceRunsItsFourSteps : Prop :=
  ∀ (s s1 s2 s3 : State) (d : Side), s.phase ≠ .halted → exec (.dirPoll d) s = .next s1 →
    (s1.phase = .halted → exec (.normalService d) s = .next s1) ∧
    (s1.phase ≠ .halted → exec (.dirSizeCheck d) s1 = .next s2 →
      (s2.phase = .halted → exec (.normalService d) s = .next s2) ∧
      (s2.phase ≠ .halted → exec (.dirExpiry d) s2 = .next s3 →
        exec (.normalService d) s = exec (.dirFlush d) s3))

/-- R224: service of `d` neither reads nor writes the other direction's buffer, idle count, last count and expiry flag: with any
other values there it does the same and leaves them as they are. -/
def Obligations.NormalServiceIsIndependent : Prop :=
  ∀ (s t : State) (d : Side) (r : Ring) (n l : Nat) (x : Bool), exec (.normalService d) s = .next t →
    exec (.normalService d)
        ((((s.setRb d.opp r).setIdle d.opp n).setLastCount d.opp l).setExp d.opp x) =
      .next ((((t.setRb d.opp r).setIdle d.opp n).setLastCount d.opp l).setExp d.opp x)

/-- R220 to R224 together: a service in Normal mode completes without waiting (R225), takes in what arrived, counts the expiry
unless the run restarted, and then holds the whole queue or has forwarded all of it as one burst. The expiry flag is always clear
afterwards and the last count is the count. -/
def Obligations.NormalServiceHoldsOrForwards : Prop :=
  ∀ (s : State) (d : Side) (q : List Byte), s.Queue d q → s.CallsSucceed →
    s.drop.get d < 2 ^ s.params.dropCntWidth →
    ∃ t, exec (.normalService d) s = .next t ∧
      t = { s with
        rb := s.rb.set d (t.rb.get d)
        drop := s.drop.set d
          ((s.drop.get d + ((s.polled d).length - (s.accepted d q).length)) % 2 ^ s.params.dropCntWidth)
        idle := s.idle.set d (t.idle.get d)
        lastCount := s.lastCount.set d (t.rb.get d).count
        exp := s.exp.set d false
        armed := s.armed.set d (t.armed.get d)
        period := s.period.set d (t.period.get d)
        arrived := s.arrived.set d (s.polled d).length
        env := { s.env with
          rxq := s.env.rxq.set d ((s.env.rxq.get d).drop s.params.rxChunk)
          log := t.env.log
          draws := t.env.draws } } ∧
      ∀ q1 idle1, q1 = q ++ s.accepted d q →
        idle1 = (if q1.length ≠ s.lastCount.get d ∨ (s.params.idleResetOn = .arrival ∧ s.polled d ≠ []) then 0
          else if s.exp.get d = true ∧ q1 ≠ [] then s.idle.get d + 1 else s.idle.get d) →
        (idle1 < s.params.idleThreshold → t.Queue d q1 ∧ t.idle.get d = idle1 ∧ t.env.log = s.env.log) ∧
        (s.params.idleThreshold ≤ idle1 → t.Queue d [] ∧ t.idle.get d = 0 ∧ t.armed.get d = false ∧
          t.env.log = s.env.log ++ writeOutputs d.opp q1)

/-! ## Sleep mode and the unimplemented modes (42_bridge_controller.md) -/

/-- R201, R230: with no byte on side H the Sleep step holds, whatever the primitives' draws: only `phase` changes, and no draw is taken. -/
def Obligations.SleepStepHoldsWithoutAByte : Prop :=
  ∀ (s : State) (fr : List Byte), s.FrameHeld fr → frameOpen fr = true → s.env.rxq.h = [] →
    exec .sleepStep s = .next { s with phase := .sleepWait }

/-- R230, R231, R110: a Sleep read takes at most the rest of the frame, so it ends in an open or a complete frame; while the frame
is still open nothing else happens. -/
def Obligations.SleepStepCollectsTheFrame : Prop :=
  ∀ (s : State) (fr got : List Byte), s.FrameHeld fr → frameOpen fr = true → s.CallsSucceed → s.env.rxq.h ≠ [] →
    got = s.env.rxq.h.take (needAfter fr) →
    (frameOpen (fr ++ got) = true ∨ frameComplete (fr ++ got) = true) ∧
    (frameOpen (fr ++ got) = true →
      ∃ t, exec .sleepStep s = .next t ∧ t.FrameHeld (fr ++ got) ∧
        t = { s with
          scratch := t.scratch
          scratchLen := (fr ++ got).length
          phase := if s.phase = .sleepWait then .run else s.phase
          env := { s.env with
            rxq := s.env.rxq.set .H (s.env.rxq.h.drop (needAfter fr))
            draws := s.env.draws.drop 1 } })

/-- R230, R233: the read that completes a frame runs the exchange: status low, the frame's command (as CFG_INPUT_COMMAND runs it),
its response on side H, status high, the scratch buffer empty. -/
def Obligations.SleepStepRunsTheExchange : Prop :=
  ∀ (s u : State) (fr got resp : List Byte), s.FrameHeld fr → frameOpen fr = true → s.CallsSucceed → s.env.rxq.h ≠ [] →
    got = s.env.rxq.h.take (needAfter fr) → frameComplete (fr ++ got) = true →
    exec (.cfgInputCommand (fr ++ got)) s = .next u → u.result = .byteSeq resp →
    ∃ t, exec .sleepStep s = .next t ∧
      t = { s with
        cfg := u.cfg
        scratch := []
        scratchLen := 0
        statusOut := true
        phase := if s.phase = .sleepWait then .run else s.phase
        env := { s.env with
          rxq := s.env.rxq.set .H (s.env.rxq.h.drop (needAfter fr))
          log := s.env.log ++ [.statusSet false, .wrote .H resp, .statusSet true]
          draws := s.env.draws.drop 4 } }

/-- R236, R265: UNIMPL_STEP sets `STATUS.unimpl` and the phase REFUSED and moves no data. That the model gives this step a next
state and refuses the control loop's following one is its own reading (log entry 7). -/
def Obligations.UnimplStepMarksTheRefusal : Prop :=
  ∀ (s : State) (m : UnimplMode), exec (.unimplStep m) s =
    .next { s with status := { s.status with unimpl := true }, phase := .refused, refusedMark := some m }

/-- R234: while the loop holds it samples no input, so the levels of MS0 and MS1 play no part in what it does next. -/
def Obligations.HeldLoopIgnoresTheLines : Prop :=
  ∀ (s t : State) (ms0 ms1 : Bool), s.phase = .sleepWait → s.agenda = [] → step s = .next t →
    step (s.withLines ms0 ms1) = .next (t.withLines ms0 ms1)

/-- R201: the hold is lifted only by a byte on side H: with none there, the loop's own step changes nothing, whatever the draws. (A
step that changes nothing, where the spec has no step, is log entry 20's choice.) -/
def Obligations.HoldLastsUntilAByteArrives : Prop :=
  ∀ s : State, s.Sound → s.phase = .sleepWait → s.env.rxq.h = [] → s.agenda = [] → step s = .next s

/-! ## The control loop (42_bridge_controller.md R240, 70_reset_and_hazards.md R301) -/

/-- R240, R266: a TICK samples the lines once, runs MODE_TRANSITION, then the body of that mode: in Normal the service of H and
then that of P, in Sleep the Sleep step, in WakeUp and PowerSaving UNIMPL_STEP. It ends at the first of them that halts. -/
def Obligations.TickRunsItsStepsInOrder : Prop :=
  ∀ (s s1 : State) (m : Mode), s.phase = .run → (∀ x ∈ s.env.draws.take 2, x = Draw.ok) →
    exec (.modeDecode s.env.ms0 s.env.ms1) s = .next { s with result := .mode m } →
    exec (.modeTransition m) (s.dropDraws 2) = .next s1 →
    (s1.phase = .halted → exec .tick s = .next s1) ∧
    (s1.phase ≠ .halted →
      (m = .normal → ∀ s2, exec (.normalService .H) s1 = .next s2 →
        (s2.phase = .halted → exec .tick s = .next s2) ∧
        (s2.phase ≠ .halted → exec .tick s = exec (.normalService .P) s2)) ∧
      (m = .sleep → exec .tick s = exec .sleepStep s1) ∧
      (m = .wakeUp → exec .tick s = exec (.unimplStep .wakeUp) s1) ∧
      (m = .powerSaving → exec .tick s = exec (.unimplStep .powerSaving) s1))

/-- R240: no TICK in STARTUP, SLEEP_WAIT, HALTED or REFUSED; and STARTUP runs in phase STARTUP only (R301). -/
def Obligations.TickAndStartupNeedTheirPhase : Prop :=
  ∀ s : State, (s.phase ≠ .run → exec .tick s = .fault .notEnabled) ∧
    (s.phase ≠ .startup → exec .startup s = .fault .notEnabled)

/-- R225, R240: a tick with both lines low completes without any environment event, and conserves the bytes of both directions:
what was queued and accepted is either all still queued or all written to the opposite side, as one burst (the log says so), H's before
P's; what did not fit is counted as dropped. The idle counts, timers and periods are those NORMAL_SERVICE (or LEAVE_SLEEP) gives them and
are not stated here. -/
def Obligations.NormalTickConservesBytes : Prop :=
  ∀ (s : State) (qH qP : List Byte), s.phase = .run → s.env.ms0 = false → s.env.ms1 = false → s.CallsSucceed →
    s.Sound → s.Queue .H qH → s.Queue .P qP →
    ∃ t oH oP qH1 qP1, exec .tick s = .next t ∧
      t.Queue .H qH1 ∧ t.Queue .P qP1 ∧
      oH ++ qH1 = qH ++ s.accepted .H qH ∧ (oH = [] ∨ qH1 = []) ∧
      oP ++ qP1 = qP ++ s.accepted .P qP ∧ (oP = [] ∨ qP1 = []) ∧
      t.env.txs .P = s.env.txs .P ++ oH ∧ t.env.txs .H = s.env.txs .H ++ oP ∧
      t = { s with
        rb := t.rb
        drop := {
          h := (s.drop.h + ((s.polled .H).length - (s.accepted .H qH).length)) % 2 ^ s.params.dropCntWidth
          p := (s.drop.p + ((s.polled .P).length - (s.accepted .P qP).length)) % 2 ^ s.params.dropCntWidth }
        scratch := if s.prevMode = .sleep then [] else s.scratch
        scratchLen := if s.prevMode = .sleep then 0 else s.scratchLen
        prevMode := .normal
        idle := t.idle
        lastCount := { h := qH1.length, p := qP1.length }
        exp := .both false
        armed := t.armed
        period := t.period
        speed := if s.prevMode = .sleep then { h := uartBaud s.cfg, p := peerSpeed s.params s.cfg } else s.speed
        arrived := { h := (s.polled .H).length, p := (s.polled .P).length }
        env := { s.env with
          rxq := { h := s.env.rxq.h.drop s.params.rxChunk, p := s.env.rxq.p.drop s.params.rxChunk }
          log := s.env.log ++
            (if s.prevMode = .sleep then [.speedSet .H (uartBaud s.cfg), .speedSet .P (peerSpeed s.params s.cfg)] else []) ++
            writeOutputs .P oH ++ writeOutputs .H oP
          draws := t.env.draws } }

/-- R232, R316: a tick with both lines high never touches the ring buffers, the drop counters or side P's receive queue, writes
nothing to side P, and, when Sleep was entered before, changes no speed, idle count, last count, timer or expiry flag. -/
def Obligations.SleepTickLeavesTheRelayAlone : Prop :=
  ∀ s t : State, s.env.ms0 = true → s.env.ms1 = true → exec .tick s = .next t →
    t.rb = s.rb ∧ t.drop = s.drop ∧ t.idle = s.idle ∧ t.lastCount = s.lastCount ∧ t.env.rxq.p = s.env.rxq.p ∧
    t.env.txs .P = s.env.txs .P ∧ t.arrived = s.arrived ∧ t.refusedMark = s.refusedMark ∧
    (s.prevMode = .sleep → t.speed = s.speed ∧ t.armed = s.armed ∧ t.period = s.period ∧ t.exp = s.exp)

/-- R301, R302: STARTUP sets the data-mode speeds, drives the status line high, writes the banner once and enters RUN. -/
def Obligations.StartupSequence : Prop :=
  ∀ s : State, s.phase = .startup → s.CallsSucceed →
    exec .startup s = .next { s with
      speed := { h := uartBaud s.cfg, p := peerSpeed s.params s.cfg }
      statusOut := true
      phase := .run
      env := { s.env with
        log := s.env.log ++
          ([.speedSet .H (uartBaud s.cfg), .speedSet .P (peerSpeed s.params s.cfg), .statusSet true] ++
            writeOutputs .H s.params.banner)
        draws := s.env.draws.drop (if s.params.banner = [] then 3 else 4) } }

/-! ## Events, conditions and reset (60_exceptions.md, 70_reset_and_hazards.md) -/

/-- R268, R93: the expiry of an armed timer sets `exp[d]`, and nothing else; not armed, it has no effect. -/
def Obligations.TimerExpirySetsOnlyTheFlag : Prop :=
  ∀ (s : State) (d : Side),
    (s.armed.get d = true → exec (.evTimerExpire d) s = .next { s with exp := s.exp.set d true }) ∧
    (s.armed.get d = false → exec (.evTimerExpire d) s = .next s)

/-- R269, R271: a byte joins the end of the receive queue of its side; no block state changes, `phase` included. -/
def Obligations.ReceivedByteJoinsTheQueue : Prop :=
  ∀ (s : State) (sd : Side) (b : Byte), exec (.evRxByte sd b) s =
    .next { s with env := { s.env with rxq := s.env.rxq.set sd (s.env.rxq.get sd ++ [b]) } }

/-- R270: the timer events and the reception events of the two sides write different state and commute. -/
def Obligations.EventsCommute : Prop :=
  ∀ (s s1 s2 : State) (i j : Instr) (bH bP : Byte),
    i ∈ [.evTimerExpire .H, .evTimerExpire .P, .evRxByte .H bH, .evRxByte .P bP] →
    j ∈ [.evTimerExpire .H, .evTimerExpire .P, .evRxByte .H bH, .evRxByte .P bP] →
    exec i s = .next s1 → exec j s = .next s2 → exec j s1 = exec i s2

/-- R300, R304: EV_RESET puts every state element that has a reset value into it, whatever the state, and leaves the environment
as it is. (The values of `speed`, `status_out` and `period` after it are the model's, log entries 13 to 15, and not stated.) -/
def Obligations.ResetEventEffect : Prop :=
  ∀ s : State, ∃ t, exec .evReset s = .next t ∧
    t.cfg = s.params.cfgReset ∧ (∀ d, t.Queue d [] ∨ s.params.ringCap = 0) ∧
    t.rb = { h := { buf := t.rb.h.buf, rd := 0, wr := 0, count := 0 }, p := { buf := t.rb.p.buf, rd := 0, wr := 0, count := 0 } } ∧
    t.drop = .both 0 ∧ t.FrameHeld [] ∧ t.prevMode = .normal ∧ t.idle = .both 0 ∧ t.lastCount = .both 0 ∧
    t.exp = .both false ∧ t.armed = .both false ∧ t.status = { halted := false, unimpl := false, cause := 0 } ∧
    t.phase = .startup ∧ t.env = s.env ∧ t.params = s.params

/-- R300: the state after reset, at the values the spec gives; STATUS reads as 0. -/
def Obligations.ResetStateValues : Prop :=
  recordBytes State.reset.cfg = [0xC0, 0x00, 0x00, 0x1A, 0x17, 0x44] ∧
  State.reset.rb.h.rd = 0 ∧ State.reset.rb.h.wr = 0 ∧ State.reset.rb.h.count = 0 ∧
  State.reset.rb.p.rd = 0 ∧ State.reset.rb.p.wr = 0 ∧ State.reset.rb.p.count = 0 ∧
  State.reset.drop = .both 0 ∧ State.reset.scratchLen = 0 ∧ State.reset.prevMode = .normal ∧
  State.reset.idle = .both 0 ∧ State.reset.lastCount = .both 0 ∧ State.reset.exp = .both false ∧
  State.reset.armed = .both false ∧ State.reset.status.byte = 0 ∧ State.reset.phase = .startup

/-- R263, R261, R267: when the first primitive of an operation fails, STATUS.halted and the cause of that primitive are recorded,
`phase` is HALTED, and no other block state changes but what the operation wrote before the call (DIR_SIZE_CHECK's `last_count[d]` and
`idle[d]`). SLEEP_STEP's read fails only with a byte there: on an empty queue it holds (R201). R263 leaves open what the failing call
itself did. Log entry 19's choice is that the number `n` of the draw says it (a read took at most `n` of the bytes it asked for, the port
has the new speed or has not, a line read and a timer call did nothing) and that the block's own record of the device (`speed[s]`,
`armed[d]`, `period[d]`, `exp[d]`) keeps its old value. -/
def Obligations.FirstFailingCallHalts : Prop :=
  ∀ (s : State) (n : Nat) (ds : List Draw), s.env.draws = .fails n :: ds →
    (∀ (i : Instr) (c : BitVec 3) (e : Env),
      ((s.phase = .run ∧ i = .tick ∧ c = 6 ∧ e = { s.env with draws := ds }) ∨
        (((s.phase = .startup ∧ i = .startup) ∨ i = .leaveSleep) ∧ c = 5 ∧
          e = { s.env with log := s.env.log ++ (if n = 0 then [] else [.speedSet .H (uartBaud s.cfg)]), draws := ds }) ∨
        (i = .enterSleep ∧ c = 7 ∧ e = { s.env with draws := ds }) ∨
        (∃ d, (i = .dirPoll d ∨ i = .normalService d) ∧ c = (if d = .H then 1 else 3) ∧
          e = { s.env with rxq := s.env.rxq.set d ((s.env.rxq.get d).drop (min n s.params.rxChunk)), draws := ds }) ∨
        (∃ need, i = .sleepStep ∧ s.env.rxq.h ≠ [] ∧
          ((s.scratchLen = 0 ∧ need = 1) ∨ ∃ fr, s.FrameHeld fr ∧ frameOpen fr = true ∧ need = needAfter fr) ∧ c = 1 ∧
          e = { s.env with rxq := s.env.rxq.set .H (s.env.rxq.h.drop (min n need)), draws := ds })) →
      exec i s = .next { s with
        status := { s.status with halted := true, cause := c }
        phase := .halted
        env := e }) ∧
    ∀ d, ((s.rb.get d).count ≠ s.lastCount.get d ∨ (s.params.idleResetOn = .arrival ∧ 0 < s.arrived.get d)) →
      exec (.dirSizeCheck d) s = .next { s with
        lastCount := s.lastCount.set d (s.rb.get d).count
        idle := s.idle.set d 0
        status := { s.status with halted := true, cause := 7 }
        phase := .halted
        env := { s.env with draws := ds } }

/-- R263, R233, R261 (and D41): an exchange cut short by a failing call halts with the cause LINE or WR_H. `cfg` has its new value
once CFG_INPUT_COMMAND has run, the status line keeps its last value (low, once it has been driven low), and the complete frame is
still held. R263 leaves open what the failing call itself did: the draw says whether the line took its new level and which prefix
of the response was sent, and `status_out` keeps its last value (log entry 19). -/
def Obligations.FailedExchangeCallHalts : Prop :=
  ∀ (s u : State) (fr got resp : List Byte) (n : Nat) (ds : List Draw), s.FrameHeld fr → frameOpen fr = true →
    s.env.rxq.h ≠ [] → got = s.env.rxq.h.take (needAfter fr) → frameComplete (fr ++ got) = true →
    exec (.cfgInputCommand (fr ++ got)) s = .next u → u.result = .byteSeq resp →
    (s.env.draws = .ok :: .fails n :: ds →
      ∃ t, exec .sleepStep s = .next t ∧ t.FrameHeld (fr ++ got) ∧
        t = { s with
          scratch := t.scratch
          scratchLen := (fr ++ got).length
          status := { s.status with halted := true, cause := 6 }
          phase := .halted
          env := { s.env with
            rxq := s.env.rxq.set .H (s.env.rxq.h.drop (needAfter fr))
            log := s.env.log ++ (if n = 0 then [] else [.statusSet false])
            draws := ds } }) ∧
    (s.env.draws = .ok :: .ok :: .fails n :: ds →
      ∃ t, exec .sleepStep s = .next t ∧ t.FrameHeld (fr ++ got) ∧
        t = { s with
          cfg := u.cfg
          scratch := t.scratch
          scratchLen := (fr ++ got).length
          statusOut := false
          status := { s.status with halted := true, cause := 2 }
          phase := .halted
          env := { s.env with
            rxq := s.env.rxq.set .H (s.env.rxq.h.drop (needAfter fr))
            log := s.env.log ++ .statusSet false :: writeOutputs .H (resp.take n)
            draws := ds } }) ∧
    (s.env.draws = .ok :: .ok :: .ok :: .fails n :: ds →
      ∃ t, exec .sleepStep s = .next t ∧ t.FrameHeld (fr ++ got) ∧
        t = { s with
          cfg := u.cfg
          scratch := t.scratch
          scratchLen := (fr ++ got).length
          statusOut := false
          status := { s.status with halted := true, cause := 6 }
          phase := .halted
          env := { s.env with
            rxq := s.env.rxq.set .H (s.env.rxq.h.drop (needAfter fr))
            log := s.env.log ++ [.statusSet false, .wrote .H resp] ++ (if n = 0 then [] else [.statusSet true])
            draws := ds } })

/-- R243, R263, R265: once HALTED or REFUSED the control loop takes no step, whether it is its own or an operation asked for: the
machine stops with the recorded cause, or refuses naming the mode that was marked (log entries 6, 7). -/
def Obligations.HaltedAndRefusedLoopsStop : Prop :=
  ∀ s : State,
    (s.agenda = [] ∨ (∃ rest, s.agenda = .loop :: rest) ∨
      (∃ w i rest, s.agenda = .run w :: rest ∧ decode w = .ok i ∧ isEvent i = false)) →
    (s.phase = .halted → step s = .fault (.ioHalted s.status.cause)) ∧
    (s.phase = .refused → step s = .refused (.unimplementedMode s.refusedMark))

/-- R243, R58: HALTED and REFUSED are left by reset only, and until then no step changes any block state but `exp[*]` or gives
anything out. -/
def Obligations.HaltAndRefusalAreSticky : Prop :=
  ∀ s t : State, s.phase = .halted ∨ s.phase = .refused → step s = .next t →
    (t = { s with exp := t.exp, env := t.env, agenda := t.agenda } ∧ t.env.log = s.env.log) ∨
    (t.phase = .startup ∧ ∃ rest, s.agenda = .run (encode .evReset) :: rest)

/-! ## The whole machine -/

/-- 10_state.md R38, R39, R41, R42, R43: soundness of the storage is kept by every step, whatever moves the agenda holds; so no slot
outside a live window, and none at or above `scratch_len`, ever holds a value (20_memory.md R91; 93 I1, I2). -/
def Obligations.StepKeepsStorageSound : Prop :=
  ∀ s t : State, s.Sound → step s = .next t → t.Sound

/-- In a sound state no storage access stops the machine: no step ends in the fault for a byte that holds no value or in that for
an index outside its array (R39, R43, R82, R91). -/
def Obligations.SoundStatesNeverMisreadStorage : Prop :=
  ∀ s : State, s.Sound → step s ≠ .fault .unwrittenByte ∧ step s ≠ .fault .indexOutside

/-- The invariant of the agents' own run is kept by every step. -/
def Obligations.StepKeepsLoopInvariant : Prop :=
  ∀ s t : State, s.LoopInv → step s = .next t → t.LoopInv

/-- The state after reset is sound, for any legal parameters, environment and agenda, and meets the invariant of the agents' own
run if the agenda holds only their moves. -/
def Obligations.ResetMeetsTheInvariants : Prop :=
  ∀ (p : Config) (e : Env) (a : List Move), p.wf = true →
    (State.resetWith p e a).Sound ∧ ((∀ m ∈ a, m.ofAgents = true) → (State.resetWith p e a).LoopInv)

/-- R58, R59: `phase` changes only along the edges of R58, in every step from every state, whatever moves the agenda holds. -/
def Obligations.PhaseFollowsItsEdges : Prop :=
  ∀ s t : State, step s = .next t → phaseEdge s.phase t.phase = true

/-- R34: in the agents' own run the record changes only by EV_RESET, which gives it CFG_RESET, or in a Sleep tick whose read completes a
write frame, which gives it that frame, preamble 0xC0 included (C10). Such a tick ends with "OK" written and the status line high, or
it is halted (R263) by the failing write or the failing LineSet of the exchange, and then the new record and the frame stay and the
status line stays low. -/
def Obligations.OnlyWriteFramesChangeTheRecord : Prop :=
  ∀ s t : State, s.LoopInv → step s = .next t → t.cfg ≠ s.cfg →
    (t.phase = .startup ∧ t.cfg = s.params.cfgReset ∧ ∃ rest, s.agenda = .run (encode .evReset) :: rest) ∨
    (∃ fr got a b c d e,
      ((s.phase = .run ∧ s.env.ms0 = true ∧ s.env.ms1 = true) ∨ s.phase = .sleepWait) ∧ t.prevMode = .sleep ∧
      s.FrameHeld fr ∧ got = s.env.rxq.h.take (needAfter fr) ∧ fr ++ got = [0xC0, a, b, c, d, e] ∧
      t.cfg = { preamble := 0xC0, addrHigh := a, addrLow := b, speed := c, channel := d, option := e } ∧
      t.env.rxq.h = s.env.rxq.h.drop (needAfter fr) ∧
      ((t.phase = .run ∧ t.statusOut = true ∧ t.FrameHeld [] ∧
          ∃ before, t.env.log = before ++
            [.statusSet false, .wrote .H ([0x4F, 0x4B] ++ s.params.respTerminator), .statusSet true]) ∨
        (t.phase = .halted ∧ t.statusOut = false ∧ t.FrameHeld (fr ++ got) ∧ t.status.halted = true ∧
          (t.status.cause = 2 ∨ t.status.cause = 6))))

/-- R280: in a quiescent state in Normal a tick gives nothing out and the state stays quiescent. -/
def Obligations.QuiescentTickIsQuiet : Prop :=
  ∀ s : State, s.LoopInv → s.CallsSucceed → s.quiescent = true → s.prevMode = .normal →
    s.env.ms0 = false → s.env.ms1 = false →
    ∃ t, exec .tick s = .next t ∧ t.quiescent = true ∧ t.env.log = s.env.log ∧ t.rb = s.rb

/-- R226 (1), R322: bytes in `rb[d]`, after which none arrives, are forwarded exactly once, as one burst, at the tick that counts
the IDLE_THRESHOLD-th expiry, and every later expiry forwards nothing. The opposite direction may hold bytes; it is left as it is. -/
def Obligations.SilenceFlushesExactlyOnce : Prop :=
  ∀ (s : State) (d : Side) (q : List Byte) (n : Nat),
    s.LoopInv → s.CallsSucceed → s.phase = .run → s.prevMode = .normal → s.env.ms0 = false → s.env.ms1 = false →
    s.env.rxq = .both [] → s.Queue d q → q ≠ [] → s.idle.get d = 0 → s.exp.get d = false → s.exp.get d.opp = false →
    s.agenda = idleRounds d n →
    ∃ t, Sys2Proof.core.run (2 * n) s = .next t ∧ t.agenda = [] ∧ t.rb.get d.opp = s.rb.get d.opp ∧
      (n < s.params.idleThreshold → t.env.log = s.env.log ∧ t.Queue d q ∧ t.idle.get d = n) ∧
      (s.params.idleThreshold ≤ n → t.env.log = s.env.log ++ [.wrote d.opp q] ∧ t.Queue d [] ∧
        t.armed.get d = false)
end

