-- ==== Sys2Proof/Laws/State.lean ====
section
/-! SUPPORT. Reading back what was written to one side, and how a composed operation ends. The named updates of State carry
their own field lemmas, generated beside them in Machine/State.lean. -/

namespace Sys2Proof

@[simp] theorem Side.opp_opp (d : Side) : d.opp.opp = d := by cases d <;> rfl

@[simp] theorem Side.opp_ne (d : Side) : d.opp ≠ d := by cases d <;> decide

@[simp] theorem Side.ne_opp (d : Side) : d ≠ d.opp := by cases d <;> decide

theorem Side.eq_or_opp (d e : Side) : e = d ∨ e = d.opp := by cases d <;> cases e <;> simp [Side.opp]

namespace PerSide

variable {α : Type}

@[simp] theorem get_set_same (x : PerSide α) (d : Side) (v : α) : (x.set d v).get d = v := by cases d <;> rfl

theorem get_set_ne (x : PerSide α) {d e : Side} (v : α) (h : e ≠ d) : (x.set d v).get e = x.get e := by
  cases d <;> cases e <;> first | rfl | exact absurd rfl h

@[simp] theorem get_set_opp (x : PerSide α) (d : Side) (v : α) : (x.set d v).get d.opp = x.get d.opp := by
  cases d <;> rfl

@[simp] theorem get_opp_set (x : PerSide α) (d : Side) (v : α) : (x.set d.opp v).get d = x.get d := by
  cases d <;> rfl

theorem get_set (x : PerSide α) (d e : Side) (v : α) : (x.set d v).get e = if e = d then v else x.get e := by
  cases d <;> cases e <;> rfl

@[simp] theorem set_get_self (x : PerSide α) (d : Side) : x.set d (x.get d) = x := by cases d <;> rfl

@[simp] theorem set_set (x : PerSide α) (d : Side) (v w : α) : (x.set d v).set d w = x.set d w := by cases d <;> rfl

theorem set_comm (x : PerSide α) (d : Side) (v w : α) :
    (x.set d v).set d.opp w = (x.set d.opp w).set d v := by cases d <;> rfl

@[simp] theorem get_both (d : Side) (v : α) : (PerSide.both v).get d = v := by cases d <;> rfl

@[simp] theorem get_H (x : PerSide α) : x.get .H = x.h := by cases x; rfl

@[simp] theorem get_P (x : PerSide α) : x.get .P = x.p := by cases x; rfl

theorem ext_get {x y : PerSide α} (h : ∀ d, x.get d = y.get d) : x = y := by
  have h1 : x.h = y.h := h .H
  have h2 : x.p = y.p := h .P
  cases x
  cases y
  simp_all

end PerSide

namespace Machine

/-! ## The end of an operation -/

namespace Run

variable {α β γ : Type}

@[simp] theorem bind_ok (a : α) (s : State) (k : α → State → Run β) : (Run.ok a s).bind k = k a s := rfl

@[simp] theorem bind_ended (s : State) (k : α → State → Run β) : (Run.ended s : Run α).bind k = .ended s := rfl

@[simp] theorem bind_fault (f : Fault) (k : α → State → Run β) : (Run.fault f : Run α).bind k = .fault f := rfl

@[simp] theorem finish_ok (a : Unit) (s : State) : (Run.ok a s).finish = .next s := rfl

@[simp] theorem finish_ended (s : State) : (Run.ended s : Run Unit).finish = .next s := rfl

@[simp] theorem finish_fault (f : Fault) : (Run.fault f : Run Unit).finish = .fault f := rfl

@[simp] theorem finishWith_ok (a : α) (s : State) (f : α → OpResult) :
    (Run.ok a s).finishWith f = .next (s.setResult (f a)) := rfl

/-- An operation that answers a next state returned or ended there. -/
theorem finish_eq_next {r : Run Unit} {t : State} (h : r.finish = .next t) : r = .ok () t ∨ r = .ended t := by
  cases r with
  | ok a s => exact .inl (by simpa using h)
  | ended s => exact .inr (by simpa using h)
  | fault f => simp at h

end Run

end Machine

end Sys2Proof
end

