-- ==== Sys2Proof/Laws/Storage.lean ====
section
/-! SUPPORT. The storage arrays: a read after a write, the canonical form, and runs of accesses. -/

namespace Sys2Proof.Machine

namespace Memory

@[simp] theorem slot_put_same (m : Memory) (i : Nat) (v : Byte) : (m.put i v).slot i = some v := by
  induction m with
  | nil => simp [Memory.put, Memory.slot]
  | cons x m ih =>
    simp only [Memory.put]
    split
    · simp [Memory.slot]
    · split
      · simp [Memory.slot]
      · simp_all [Memory.slot]

theorem slot_put_ne (m : Memory) {i j : Nat} (v : Byte) (h : j ≠ i) : (m.put i v).slot j = m.slot j := by
  induction m with
  | nil => simp [Memory.put, Memory.slot, h.symm]
  | cons x m ih =>
    simp only [Memory.put]
    split
    · simp [Memory.slot, h.symm]
    · split
      · simp_all [Memory.slot, h.symm]
      · simp_all [Memory.slot]

/-- Every index written is the new one or an old one. -/
theorem mem_put {m : Memory} {i : Nat} {v : Byte} {x : Host.Cell} (h : x ∈ m.put i v) : x.1 = i ∨ x ∈ m := by
  induction m with
  | nil => simp_all [Memory.put]
  | cons y m ih =>
    simp only [Memory.put] at h
    split at h
    · rcases List.mem_cons.1 h with rfl | h
      · exact .inl rfl
      · exact .inr h
    · split at h
      · rcases List.mem_cons.1 h with rfl | h
        · exact .inl rfl
        · exact .inr (List.mem_cons_of_mem _ h)
      · rcases List.mem_cons.1 h with rfl | h
        · exact .inr List.mem_cons_self
        · exact (ih h).imp id (List.mem_cons_of_mem _)

/-- The canonical form is `Pairwise` order of the indices. -/
theorem wf_iff (m : Memory) : m.wf = true ↔ m.Pairwise (fun x y => x.1 < y.1) := by
  induction m with
  | nil => simp [Memory.wf]
  | cons x m ih =>
    cases m with
    | nil => simp [Memory.wf]
    | cons y m =>
      rw [Memory.wf, Bool.and_eq_true, decide_eq_true_eq, ih, List.pairwise_cons (a := x)]
      constructor
      · rintro ⟨hxy, hp⟩
        refine ⟨fun z hz => ?_, hp⟩
        rcases List.mem_cons.1 hz with rfl | hz
        · exact hxy
        · exact hxy.trans ((List.pairwise_cons.1 hp).1 z hz)
      · rintro ⟨hall, hp⟩
        exact ⟨hall y List.mem_cons_self, hp⟩

/-- A write keeps the canonical form. -/
theorem wf_put {m : Memory} (i : Nat) (v : Byte) (h : m.wf = true) : (m.put i v).wf = true := by
  rw [wf_iff] at h ⊢
  induction m with
  | nil => simp [Memory.put]
  | cons x m ih =>
    obtain ⟨hx, hm⟩ := List.pairwise_cons.1 h
    simp only [Memory.put]
    split
    next hlt =>
      refine List.pairwise_cons.2 ⟨fun z hz => ?_, h⟩
      rcases List.mem_cons.1 hz with rfl | hz
      · exact hlt
      · exact hlt.trans (hx z hz)
    next hge =>
      split
      next heq => exact List.pairwise_cons.2 ⟨fun z hz => by simpa [heq] using hx z hz, hm⟩
      next hne =>
        refine List.pairwise_cons.2 ⟨fun z hz => ?_, ih hm⟩
        rcases mem_put hz with h1 | h1
        · omega
        · exact hx z h1

/-- A write inside an array of `size` bytes leaves every index inside. -/
theorem inside_put {m : Memory} {size i : Nat} (v : Byte) (h : ∀ x ∈ m, x.1 < size) (hi : i < size) :
    ∀ x ∈ m.put i v, x.1 < size := fun x hx => by
  rcases mem_put hx with h1 | h1
  · omega
  · exact h x h1

@[simp] theorem slot_clear_same (m : Memory) (i : Nat) : (m.clear i).slot i = none := by
  induction m with
  | nil => rfl
  | cons x m ih => by_cases h : x.1 = i <;> simp_all [Memory.clear, Memory.slot]

theorem slot_clear_ne (m : Memory) {i j : Nat} (h : j ≠ i) : (m.clear i).slot j = m.slot j := by
  induction m with
  | nil => rfl
  | cons x m ih => by_cases hx : x.1 = i <;> simp_all [Memory.clear, Memory.slot, h.symm]

/-- Taking a value away keeps the canonical form. -/
theorem wf_clear {m : Memory} (i : Nat) (h : m.wf = true) : (m.clear i).wf = true :=
  (wf_iff _).2 (((wf_iff m).1 h).filter _)

theorem inside_clear {m : Memory} {size : Nat} (i : Nat) (h : ∀ x ∈ m, x.1 < size) : ∀ x ∈ m.clear i, x.1 < size :=
  fun x hx => h x (List.mem_filter.1 hx).1

/-- An array in which no slot holds a value lists nothing. -/
theorem eq_nil {m : Memory} (h : ∀ i, m.slot i = none) : m = [] := by
  cases m with
  | nil => rfl
  | cons x m => simpa [Memory.slot] using h x.1

end Memory

/-- A read of a written slot inside the array. -/
theorem memRead_ok {m : Memory} {size i : Nat} {v : Byte} (hi : i < size) (h : m.slot i = some v) :
    memRead m size i = .ok v := by simp [memRead, hi, h]

/-- A write inside the array. -/
theorem memWrite_ok (m : Memory) {size i : Nat} (v : Byte) (hi : i < size) : memWrite m size i v = .ok (m.put i v) := by
  simp [memWrite, hi]

/-- The canonical form is kept by a write that is accepted. -/
theorem memWrite_wf {m m' : Memory} {size i : Nat} {v : Byte} (h : memWrite m size i v = .ok m') (hm : m.wf = true) :
    m'.wf = true := by
  simp only [memWrite] at h
  split at h
  · cases h
    exact Memory.wf_put i v hm
  · cases h

/-- The canonical form is kept by a run of writes that is accepted. -/
theorem memWriteMany_wf {size : Nat} (vs : List Byte) {m m' : Memory} {i : Nat} (h : memWriteMany m size vs i = .ok m')
    (hm : m.wf = true) : m'.wf = true := by
  induction vs generalizing m i with
  | nil => cases h; exact hm
  | cons v vs ih =>
    simp only [memWriteMany] at h
    split at h
    next h1 => exact ih h (memWrite_wf h1 hm)
    next => cases h

/-- The storage arrays after reset list nothing. -/
theorem reset_storage_wf :
    State.reset.rb.h.buf.wf = true ∧ State.reset.rb.p.buf.wf = true ∧ State.reset.scratch.wf = true := ⟨rfl, rfl, rfl⟩

/-- Everything a run of writes from `i` on does: it succeeds, keeps the form, stores the bytes and leaves every other slot. -/
theorem memWriteMany_spec {size : Nat} (vs : List Byte) (m : Memory) (i : Nat)
    (hm : m.wf = true) (hin : ∀ x ∈ m, x.1 < size) (hle : i + vs.length ≤ size) :
    ∃ m', memWriteMany m size vs i = .ok m' ∧ m'.wf = true ∧ (∀ x ∈ m', x.1 < size) ∧
      (∀ j, j < i ∨ i + vs.length ≤ j → m'.slot j = m.slot j) ∧ ∀ k (h : k < vs.length), m'.slot (i + k) = some vs[k] := by
  induction vs generalizing m i with
  | nil => exact ⟨m, rfl, hm, hin, fun _ _ => rfl, fun k h => absurd h (by simp)⟩
  | cons v vs ih =>
    simp only [List.length_cons] at hle
    obtain ⟨m', h1, h2, h3, h4, h5⟩ :=
      ih (m.put i v) (i + 1) (Memory.wf_put i v hm) (Memory.inside_put v hin (by omega)) (by omega)
    refine ⟨m', by simp [memWriteMany, memWrite_ok m v (show i < size by omega), h1], h2, h3, fun j hj => ?_, fun k hk => ?_⟩
    · simp only [List.length_cons] at hj
      rw [h4 j (by omega), Memory.slot_put_ne _ _ (by omega)]
    · cases k with
      | zero => simpa using h4 i (.inl (by omega))
      | succ k => simpa [Nat.add_assoc, Nat.add_comm 1] using h5 k (by simpa using hk)

/-- A run of reads returns the bytes that stand there. -/
theorem memReadMany_spec {size : Nat} (m : Memory) (vs : List Byte) (i : Nat) (hle : i + vs.length ≤ size)
    (h : ∀ k (hk : k < vs.length), m.slot (i + k) = some vs[k]) : memReadMany m size vs.length i = .ok vs := by
  induction vs generalizing i with
  | nil => rfl
  | cons v vs ih =>
    simp only [List.length_cons] at hle
    have h0 : memRead m size i = .ok v := memRead_ok (by omega) (h 0 (Nat.succ_pos _))
    have h1 := ih (i + 1) (by omega) fun k hk => by
      rw [Nat.add_right_comm, Nat.add_assoc]
      exact h (k + 1) (Nat.succ_lt_succ hk)
    simp [memReadMany, h0, h1]

end Sys2Proof.Machine
end

