-- ==== Sys2Proof/Laws/RingBuffer.lean ====
section
/-! SUPPORT. What each ring-buffer operation does to a ring that holds a known queue (40_ring_buffer.md R150 to R153). -/

namespace Sys2Proof.Machine

namespace Ring.Holds

variable {cap : Nat} {r : Ring} {q : List Byte}

theorem cap_pos (h : r.Holds cap q) : 0 < cap := Nat.lt_of_le_of_lt (Nat.zero_le _) h.rd_lt

theorem length_le (h : r.Holds cap q) : q.length ≤ cap := h.count_eq ▸ h.count_le

theorem wr_lt (h : r.Holds cap q) : r.wr < cap := h.wr_eq ▸ Nat.mod_lt _ h.cap_pos

theorem empty (hc : 0 < cap) : Ring.empty.Holds cap [] :=
  ⟨hc, rfl, Nat.zero_le _, by simp [Ring.empty], rfl, by simp [Ring.empty], fun k hk => absurd hk (by simp), fun _ _ => rfl⟩

/-- A ring that holds no byte lists no slot. -/
theorem buf_nil (h : r.Holds cap []) : r.buf = [] := Memory.eq_nil fun i => h.dead i fun k hk => absurd hk (by simp)

end Ring.Holds

/-- Two places less than a capacity apart are different slots. -/
theorem slot_index_ne {cap a j k : Nat} (hj : j < k) (hk : k < j + cap) : (a + j) % cap ≠ (a + k) % cap := fun h => by
  have h1 : (a + k - (a + j)) % cap = 0 := Nat.sub_mod_eq_zero_of_mod_eq h.symm
  rw [show a + k - (a + j) = k - j by omega, Nat.mod_eq_of_lt (by omega)] at h1
  omega

namespace Ring

variable {cap : Nat} {r : Ring} {q : List Byte}

/-- RB_ENQUEUE below capacity (R150). -/
theorem enqueue_spec (h : r.Holds cap q) (hlt : q.length < cap) (b : Byte) :
    r.enqueue cap b =
        .ok (true, { buf := r.buf.put r.wr b, rd := r.rd, wr := (r.wr + 1) % cap, count := r.count + 1 }) ∧
      Ring.Holds cap { buf := r.buf.put r.wr b, rd := r.rd, wr := (r.wr + 1) % cap, count := r.count + 1 } (q ++ [b]) := by
  have hc := h.count_eq
  refine ⟨by simp [Ring.enqueue, hc, hlt, memWrite_ok _ _ h.wr_lt], ?_⟩
  refine ⟨h.rd_lt, by simp [hc], by simp only; omega, ?_, Memory.wf_put _ _ h.canonical,
    Memory.inside_put _ h.inside h.wr_lt, fun k hk => ?_, fun i hi => ?_⟩
  · simp [h.wr_eq, Nat.add_assoc]
  · simp only [List.length_append, List.length_singleton] at hk
    by_cases hkq : k < q.length
    · have hne : (r.rd + k) % cap ≠ r.wr := by rw [h.wr_eq, hc]; exact slot_index_ne hkq (by omega)
      simp only [Memory.slot_put_ne _ _ hne, h.live k hkq, List.getElem_append_left hkq]
    · obtain rfl : k = q.length := by omega
      simp [← hc, ← h.wr_eq]
  · have hw := hi q.length (by simp)
    rw [← hc, ← h.wr_eq] at hw
    simp only [Memory.slot_put_ne _ _ (Ne.symm hw)]
    exact h.dead i fun k hk => hi k (by simp only [List.length_append, List.length_singleton]; omega)

/-- RB_ENQUEUE on a full buffer (R150). -/
theorem enqueue_full (h : r.Holds cap q) (hfull : cap ≤ q.length) (b : Byte) : r.enqueue cap b = .ok (false, r) := by
  simp [Ring.enqueue, h.count_eq, Nat.not_lt.2 hfull]

/-- RB_DEQUEUE on a buffer that is not empty (R151). -/
theorem dequeue_spec {b : Byte} (h : r.Holds cap (b :: q)) :
    r.dequeue cap = .ok (some b, { r with buf := r.buf.clear r.rd, rd := (r.rd + 1) % cap, count := q.length }) ∧
      Ring.Holds cap { r with buf := r.buf.clear r.rd, rd := (r.rd + 1) % cap, count := q.length } q := by
  have hc : r.count = q.length + 1 := by simpa using h.count_eq
  have h0 : r.buf.slot r.rd = some b := by
    have := h.live 0 (Nat.succ_pos _)
    rwa [Nat.add_zero, Nat.mod_eq_of_lt h.rd_lt] at this
  refine ⟨by simp [Ring.dequeue, hc, memRead_ok h.rd_lt h0], ?_⟩
  refine ⟨Nat.mod_lt _ h.cap_pos, rfl, by have := h.count_le; simp only; omega, ?_, Memory.wf_clear _ h.canonical,
    Memory.inside_clear _ h.inside, fun k hk => ?_, fun i hi => ?_⟩
  · simp [h.wr_eq, hc, Nat.add_assoc, Nat.add_comm 1]
  · have := h.live (k + 1) (Nat.succ_lt_succ hk)
    have hle := h.length_le
    have hne : (r.rd + (k + 1)) % cap ≠ r.rd := by
      have := slot_index_ne (cap := cap) (a := r.rd) (Nat.succ_pos k) (by simp only [List.length_cons] at hle; omega)
      rwa [Nat.add_zero, Nat.mod_eq_of_lt h.rd_lt, ne_comm] at this
    simp only [Nat.mod_add_mod, Nat.add_assoc, Nat.add_comm 1, Memory.slot_clear_ne _ hne]
    exact this
  · by_cases hir : i = r.rd
    · simp [hir]
    · simp only [Memory.slot_clear_ne _ hir]
      refine h.dead i fun k hk => ?_
      cases k with
      | zero => rw [Nat.add_zero, Nat.mod_eq_of_lt h.rd_lt]; exact Ne.symm hir
      | succ k =>
        have := hi k (by simpa using hk)
        rwa [Nat.mod_add_mod, Nat.add_assoc, Nat.add_comm 1] at this

/-- RB_DEQUEUE on an empty buffer (R151). -/
theorem dequeue_empty (h : r.Holds cap []) : r.dequeue cap = .ok (none, r) := by
  simp [Ring.dequeue, h.count_eq]

/-- Dequeuing as often as there are bytes (R152). -/
theorem dequeueMany_spec (h : r.Holds cap q) :
    r.dequeueMany cap q.length = .ok (q, { buf := [], rd := (r.rd + q.length) % cap, wr := r.wr, count := 0 }) := by
  induction q generalizing r with
  | nil =>
    have hrd := Nat.mod_eq_of_lt h.rd_lt
    have hc := h.count_eq
    have hb := h.buf_nil
    cases r
    simp_all [Ring.dequeueMany]
  | cons b q ih =>
    obtain ⟨h1, h2⟩ := dequeue_spec h
    simp [Ring.dequeueMany, h1, ih h2, Nat.add_assoc, Nat.add_comm 1]

/-- RB_DRAIN_ALL (R152). -/
theorem drainAll_spec (h : r.Holds cap q) :
    r.drainAll cap = .ok (q, { buf := [], rd := (r.rd + q.length) % cap, wr := r.wr, count := 0 }) ∧
      Ring.Holds cap { buf := [], rd := (r.rd + q.length) % cap, wr := r.wr, count := 0 } [] := by
  refine ⟨by rw [Ring.drainAll, h.count_eq, dequeueMany_spec h], Nat.mod_lt _ h.cap_pos, rfl, Nat.zero_le _, ?_,
    rfl, by simp, fun k hk => absurd hk (by simp), fun _ _ => rfl⟩
  simp [h.wr_eq, h.count_eq]

end Ring

/-! ## The canonical form, whatever the ring holds -/

theorem Ring.enqueue_wf {cap : Nat} {r r' : Ring} {b : Byte} {ok : Bool} (h : r.enqueue cap b = .ok (ok, r'))
    (hw : r.buf.wf = true) : r'.buf.wf = true := by
  simp only [Ring.enqueue] at h
  split at h
  · split at h
    next h1 => cases h; exact memWrite_wf h1 hw
    next => cases h
  · cases h; exact hw

theorem Ring.dequeue_wf {cap : Nat} {r r' : Ring} {v : Option Byte} (h : r.dequeue cap = .ok (v, r'))
    (hw : r.buf.wf = true) : r'.buf.wf = true := by
  simp only [Ring.dequeue] at h
  split at h
  · split at h
    · cases h; exact Memory.wf_clear _ hw
    · cases h
  · cases h; exact hw

theorem Ring.dequeueMany_wf {cap : Nat} (n : Nat) {r r' : Ring} {vs : List Byte} (h : r.dequeueMany cap n = .ok (vs, r'))
    (hw : r.buf.wf = true) : r'.buf.wf = true := by
  induction n generalizing r vs with
  | zero => cases h; exact hw
  | succ n ih =>
    simp only [Ring.dequeueMany] at h
    split at h
    next h1 =>
      split at h
      next h2 => cases h; exact ih h2 (Ring.dequeue_wf h1 hw)
      next => cases h
    next h1 => cases h; exact Ring.dequeue_wf h1 hw
    next => cases h

/-! ## On `rb[d]` -/

variable {s : State} {d : Side} {q : List Byte}

/-- RB_ENQUEUE d below capacity: the queue grows by the byte. -/
theorem rbEnqueue_room (h : s.Queue d q) (hlt : q.length < s.params.ringCap) (b : Byte) :
    ∃ r, rbEnqueue d b s = .ok true (s.setRb d r) ∧ r.Holds s.params.ringCap (q ++ [b]) := by
  obtain ⟨h1, h2⟩ := Ring.enqueue_spec h hlt b
  exact ⟨_, by simp [rbEnqueue, onRing, h1], h2⟩

/-- RB_ENQUEUE d on a full buffer: nothing changes. -/
theorem rbEnqueue_full (h : s.Queue d q) (hfull : s.params.ringCap ≤ q.length) (b : Byte) :
    rbEnqueue d b s = .ok false s := by
  simp [rbEnqueue, onRing, Ring.enqueue_full h hfull, State.setRb]

/-- RB_DRAIN_ALL d: the queue is returned, the ring is empty. -/
theorem rbDrainAll_spec (h : s.Queue d q) :
    ∃ r, rbDrainAll d s = .ok q (s.setRb d r) ∧ r.Holds s.params.ringCap [] ∧
      r = { buf := [], rd := ((s.rb.get d).rd + q.length) % s.params.ringCap, wr := (s.rb.get d).wr, count := 0 } := by
  obtain ⟨h1, h2⟩ := Ring.drainAll_spec h
  exact ⟨_, by simp [rbDrainAll, onRing, h1], h2, rfl⟩

end Sys2Proof.Machine
end

