-- ==== Sys2Proof/Laws/Primitives.lean ====
section
/-! SUPPORT. What a primitive call can do, said once (42_bridge_controller.md R200 to R207, 60_exceptions.md R263), and the rule for
operations that follow one another. -/

namespace Sys2Proof.Machine

variable {α β : Type}

/-- Every end of `r` is as stated: it returns with `P`, ends the tick with `E`, or stops with a fault that `F` allows. -/
def Run.Ends (r : Run α) (P : α → State → Prop) (E : State → Prop) (F : Fault → Prop) : Prop :=
  match r with
  | .ok a s => P a s
  | .ended s => E s
  | .fault f => F f

namespace Run.Ends

variable {P : α → State → Prop} {E : State → Prop} {F : Fault → Prop}

/-- One operation after another. -/
theorem bind {r : Run α} {k : α → State → Run β} {Q : β → State → Prop}
    (h : r.Ends P E F) (hk : ∀ a s, P a s → (k a s).Ends Q E F) : (r.bind k).Ends Q E F := by
  cases r with
  | ok a s => exact hk a s h
  | ended s => exact h
  | fault f => exact h

theorem mono {r : Run α} {P' : α → State → Prop} {E' : State → Prop} {F' : Fault → Prop} (h : r.Ends P E F)
    (hP : ∀ a s, P a s → P' a s) (hE : ∀ s, E s → E' s) (hF : ∀ f, F f → F' f) : r.Ends P' E' F' := by
  cases r with
  | ok a s => exact hP a s h
  | ended s => exact hE s h
  | fault f => exact hF f h

/-- The next state of an operation that is a step of its own. -/
theorem of_finish {r : Run Unit} {t : State} (h : r.Ends (fun _ => E) E F) (ht : r.finish = .next t) : E t := by
  rcases Run.finish_eq_next ht with rfl | rfl <;> exact h

end Run.Ends

/-! ## Draws -/

@[simp] theorem takeDraw_env (s : State) : s.takeDraw.env = { s.env with draws := s.env.draws.tail } := rfl

/-- A call either succeeds, or ends the tick with the halt of its cause. -/
theorem call_cases (c : IoCause) (failed : Nat → Env → Env) (done : State → Run α) (s : State) :
    call c failed done s = done s.takeDraw ∨
      ∃ n ds, s.env.draws = .fails n :: ds ∧
        call c failed done s = .ended ((s.setEnv (failed n { s.env with draws := ds })).ioFailure c) := by
  rcases hd : s.env.draws with _ | ⟨x, ds⟩
  · exact .inl (by simp [call, hd])
  · cases x with
    | ok => exact .inl (by simp [call, hd])
    | fails n =>
      refine .inr ⟨n, ds, rfl, ?_⟩
      simp [call, hd, State.takeDraw, State.setEnv]

/-- A call that fails. -/
theorem call_fails (c : IoCause) (failed : Nat → Env → Env) (done : State → Run α) {s : State} {n : Nat} {ds : List Draw}
    (h : s.env.draws = .fails n :: ds) :
    call c failed done s = .ended ((s.setEnv (failed n { s.env with draws := ds })).ioFailure c) := by
  simp [call, h, State.takeDraw, State.setEnv]

/-- Every end of a call. -/
theorem call_ends {c : IoCause} {failed : Nat → Env → Env} {done : State → Run α} {s : State}
    {P : α → State → Prop} {E : State → Prop} {F : Fault → Prop}
    (hok : (done s.takeDraw).Ends P E F)
    (hfail : ∀ n ds, s.env.draws = .fails n :: ds → E ((s.setEnv (failed n { s.env with draws := ds })).ioFailure c)) :
    (call c failed done s).Ends P E F := by
  rcases call_cases c failed done s with h | ⟨n, ds, hd, h⟩
  · rw [h]; exact hok
  · rw [h]; exact hfail n ds hd

namespace State.CallsSucceed

variable {s : State}

theorem head_ne (h : s.CallsSucceed) (n : Nat) (ds : List Draw) : s.env.draws ≠ .fails n :: ds := fun he => by
  have := h (.fails n) (by simp [he])
  simp at this

theorem of_draws {t : State} {n : Nat} (h : s.CallsSucceed) (ht : t.env.draws = s.env.draws.drop n) : t.CallsSucceed :=
  fun x hx => h x (List.mem_of_mem_drop (ht ▸ hx))

theorem of_eq {t : State} (h : s.CallsSucceed) (ht : t.env.draws = s.env.draws) : t.CallsSucceed :=
  of_draws (n := 0) h (by simpa using ht)

theorem of_tail {t : State} (h : s.CallsSucceed) (ht : t.env.draws = s.env.draws.tail) : t.CallsSucceed :=
  of_draws (n := 1) h (by simpa using ht)

theorem takeDraw (h : s.CallsSucceed) : s.takeDraw.CallsSucceed := of_tail h rfl

end State.CallsSucceed

theorem call_ok (c : IoCause) (failed : Nat → Env → Env) (done : State → Run α) {s : State} (h : s.CallsSucceed) :
    call c failed done s = done s.takeDraw := by
  rcases call_cases c failed done s with h1 | ⟨n, ds, hd, -⟩
  · exact h1
  · exact absurd hd (h.head_ne n ds)

/-! ## Each primitive when it succeeds -/

variable {s : State}

theorem portReadNB_ok (h : s.CallsSucceed) (sd : Side) (n : Nat) :
    portReadNB sd n s =
      .ok ((s.env.rxq.get sd).take n)
        (s.setEnv { s.env with rxq := s.env.rxq.set sd ((s.env.rxq.get sd).drop n), draws := s.env.draws.tail }) := by
  rw [portReadNB, call_ok _ _ _ h]; rfl

theorem portWrite_empty (sd : Side) : portWrite sd [] s = .ok () s := rfl

theorem send_log (e : Env) (sd : Side) (bytes : List Byte) :
    e.send sd bytes = { e with log := e.log ++ writeOutputs sd bytes } := by
  by_cases h : bytes = [] <;> simp [Env.send, Env.emit, writeOutputs, h]

theorem portWrite_ok (h : s.CallsSucceed) (sd : Side) {bytes : List Byte} (hb : bytes ≠ []) :
    portWrite sd bytes s =
      .ok () (s.setEnv { s.env with log := s.env.log ++ [.wrote sd bytes], draws := s.env.draws.tail }) := by
  rw [portWrite, if_neg hb, call_ok _ _ _ h]
  simp [send_log, writeOutputs, hb, State.takeDraw, State.setEnv]

theorem portSetSpeed_ok (h : s.CallsSucceed) (sd : Side) (v : Nat) :
    portSetSpeed sd v s =
      .ok () { s with
        speed := s.speed.set sd v
        env := { s.env with log := s.env.log ++ [.speedSet sd v], draws := s.env.draws.tail } } := by
  rw [portSetSpeed, call_ok _ _ _ h]; rfl

theorem lineReadMs0_ok (h : s.CallsSucceed) : lineReadMs0 s = .ok s.env.ms0 s.takeDraw := by
  rw [lineReadMs0, call_ok _ _ _ h]; rfl

theorem lineReadMs1_ok (h : s.CallsSucceed) : lineReadMs1 s = .ok s.env.ms1 s.takeDraw := by
  rw [lineReadMs1, call_ok _ _ _ h]; rfl

theorem lineSet_ok (h : s.CallsSucceed) (v : Bool) :
    lineSet v s =
      .ok () { s with
        statusOut := v
        env := { s.env with log := s.env.log ++ [.statusSet v], draws := s.env.draws.tail } } := by
  rw [lineSet, call_ok _ _ _ h]; rfl

theorem timerArm_ok (h : s.CallsSucceed) (d : Side) : timerArm d s = .ok () (s.takeDraw.arm d (s.periodFor d)) := by
  rw [timerArm, call_ok _ _ _ h]; rfl

theorem timerDisarm_ok (h : s.CallsSucceed) (d : Side) : timerDisarm d s = .ok () (s.takeDraw.disarm d) := by
  rw [timerDisarm, call_ok _ _ _ h]

/-- The blocking read holds on an empty queue, whatever the draws (R201). -/
theorem portReadB_hold (n : Nat) (hrx : s.env.rxq.h = []) : portReadB .H n s = .ended (s.setPhase .sleepWait) := by
  simp [portReadB, hrx]

/-- With a byte there it reads as the non-blocking read does. -/
theorem portReadB_read (n : Nat) (hrx : s.env.rxq.h ≠ []) : portReadB .H n s = portReadNB .H n s := by
  obtain ⟨b, bs, hb⟩ := List.exists_cons_of_ne_nil hrx
  simp [portReadB, hb]

end Sys2Proof.Machine
end

