-- ==== Sys2Proof/Laws/Coalescer.lean ====
section
/-! SUPPORT. What the loop of DIR_POLL does to a known queue (42_bridge_controller.md R220, 60_exceptions.md R264), and the shape
of the states the coalescer's operations leave. -/

namespace Sys2Proof.Machine

variable {s : State} {d : Side} {q : List Byte}

/-- On a full buffer every byte is dropped and counted. -/
theorem enqueueAll_full (bytes : List Byte) (h : s.Queue d q) (hfull : s.params.ringCap ≤ q.length)
    (hdrop : s.drop.get d < 2 ^ s.params.dropCntWidth) :
    enqueueAll d bytes s =
      .ok () (s.setDrop d ((s.drop.get d + bytes.length) % 2 ^ s.params.dropCntWidth)) := by
  induction bytes generalizing s with
  | nil => simp [enqueueAll, State.setDrop, Nat.mod_eq_of_lt hdrop]
  | cons b bytes ih =>
    have hlt : nextDrop s.params (s.drop.get d) < 2 ^ s.params.dropCntWidth := Nat.mod_lt _ (Nat.two_pow_pos _)
    have := ih (s := s.setDrop d (nextDrop s.params (s.drop.get d))) h hfull (by simpa using hlt)
    simp only [enqueueAll, rbEnqueue_full h hfull, Run.bind_ok, Bool.false_eq_true, if_false, this]
    simp [State.setDrop, nextDrop, Nat.add_assoc, Nat.add_comm 1]

/-- The loop of DIR_POLL: the bytes that fit are appended in order, the rest are dropped and counted (R220, R264). -/
theorem enqueueAll_spec (bytes : List Byte) (h : s.Queue d q) (hdrop : s.drop.get d < 2 ^ s.params.dropCntWidth) :
    ∃ r, enqueueAll d bytes s =
        .ok () ((s.setRb d r).setDrop d
          ((s.drop.get d + (bytes.length - (bytes.take (s.params.ringCap - q.length)).length)) %
            2 ^ s.params.dropCntWidth)) ∧
      r.Holds s.params.ringCap (q ++ bytes.take (s.params.ringCap - q.length)) := by
  induction bytes generalizing s q with
  | nil => exact ⟨s.rb.get d, by simp [enqueueAll, State.setRb, State.setDrop, Nat.mod_eq_of_lt hdrop], by simpa [State.Queue] using h⟩
  | cons b bytes ih =>
    by_cases hlt : q.length < s.params.ringCap
    · obtain ⟨r, h1, h2⟩ := rbEnqueue_room h hlt b
      obtain ⟨r', h3, h4⟩ := ih (s := s.setRb d r) (q := q ++ [b]) (by simpa [State.Queue] using h2) (by simpa using hdrop)
      have hn : s.params.ringCap - q.length = (s.params.ringCap - (q ++ [b]).length) + 1 := by simp; omega
      refine ⟨r', ?_, by simpa [hn] using h4⟩
      simp only [enqueueAll, h1, Run.bind_ok, if_true, h3, hn, List.take_succ_cons, List.length_cons]
      simp [State.setRb, State.setDrop]
    · have hfull := Nat.not_lt.1 hlt
      have h0 : s.params.ringCap - q.length = 0 := by omega
      refine ⟨s.rb.get d, ?_, by simpa [State.Queue, h0] using h⟩
      rw [enqueueAll_full _ h hfull hdrop]
      simp [h0, State.setRb, State.setDrop]

/-- DIR_POLL when the read succeeds (R220). -/
theorem dirPoll_ok (h : s.Queue d q) (hc : s.CallsSucceed) (hdrop : s.drop.get d < 2 ^ s.params.dropCntWidth) :
    ∃ r, dirPoll d s = .ok () { s with
          rb := s.rb.set d r
          drop := s.drop.set d
            ((s.drop.get d + ((s.polled d).length - (s.accepted d q).length)) % 2 ^ s.params.dropCntWidth)
          arrived := s.arrived.set d (s.polled d).length
          env := { s.env with
            rxq := s.env.rxq.set d ((s.env.rxq.get d).drop s.params.rxChunk)
            draws := s.env.draws.tail } } ∧
      r.Holds s.params.ringCap (q ++ s.accepted d q) := by
  rw [dirPoll, portReadNB_ok hc]
  simp only [Run.bind_ok]
  obtain ⟨r, h1, h2⟩ := enqueueAll_spec (d := d) (q := q)
    (s := (s.setEnv { s.env with rxq := s.env.rxq.set d ((s.env.rxq.get d).drop s.params.rxChunk), draws := s.env.draws.tail }).setArrived
      d ((s.env.rxq.get d).take s.params.rxChunk).length) ((s.env.rxq.get d).take s.params.rxChunk) h hdrop
  exact ⟨r, by rw [h1]; rfl, h2⟩

/-- DIR_FLUSH at the threshold when its calls succeed (R223). -/
theorem dirFlush_ok (h : s.Queue d q) (hc : s.CallsSucceed) (ht : s.params.idleThreshold ≤ s.idle.get d) :
    dirFlush d s = .ok () { s with
      rb := s.rb.set d
        { buf := [], rd := ((s.rb.get d).rd + q.length) % s.params.ringCap, wr := (s.rb.get d).wr, count := 0 }
      idle := s.idle.set d 0
      lastCount := s.lastCount.set d 0
      armed := s.armed.set d false
      exp := s.exp.set d false
      env := { s.env with
        log := s.env.log ++ writeOutputs d.opp q
        draws := s.env.draws.drop (if q = [] then 1 else 2) } } := by
  obtain ⟨r, h1, -, rfl⟩ := rbDrainAll_spec h
  rw [dirFlush, if_pos ht, h1]
  simp only [Run.bind_ok]
  by_cases hq : q = []
  · subst hq
    rw [portWrite_empty]
    simp only [Run.bind_ok]
    refine (timerDisarm_ok (by exact hc.of_eq rfl) d).trans ?_
    simp [State.setRb, State.setIdle, State.setLastCount, State.takeDraw, State.setEnv, State.disarm, writeOutputs]
  · rw [portWrite_ok (by exact hc.of_eq rfl) _ hq]
    simp only [Run.bind_ok]
    refine (timerDisarm_ok (by exact hc.of_tail rfl) d).trans ?_
    simp [State.setRb, State.setIdle, State.setLastCount, State.takeDraw, State.setEnv, State.disarm, writeOutputs, hq,
      ← List.drop_one]

/-- Everything NORMAL_SERVICE does when its calls succeed (R220 to R224): what it leaves alone, and that it holds the whole queue
or has forwarded all of it as one burst. -/
theorem normalService_ok (h : s.Queue d q) (hc : s.CallsSucceed) (hd : s.drop.get d < 2 ^ s.params.dropCntWidth) :
    ∃ t, normalService d s = .ok () t ∧ t.CallsSucceed ∧
      t = { s with
        rb := s.rb.set d (t.rb.get d)
        drop := s.drop.set d
          ((s.drop.get d + ((s.polled d).length - (s.accepted d q).length)) % 2 ^ s.params.dropCntWidth)
        idle := s.idle.set d (t.idle.get d)
        lastCount := s.lastCount.set d (t.rb.get d).count
        exp := s.exp.set d false
        armed := s.armed.set d (t.armed.get d)
        period := s.period.set d (t.period.get d)
        arrived := s.arrived.set d (s.polled d).length
        env := { s.env with
          rxq := s.env.rxq.set d ((s.env.rxq.get d).drop s.params.rxChunk)
          log := t.env.log
          draws := t.env.draws } } ∧
      ∀ q1 idle1, q1 = q ++ s.accepted d q →
        idle1 = (if q1.length ≠ s.lastCount.get d ∨ (s.params.idleResetOn = .arrival ∧ s.polled d ≠ []) then 0
          else if s.exp.get d = true ∧ q1 ≠ [] then s.idle.get d + 1 else s.idle.get d) →
        (idle1 < s.params.idleThreshold → t.Queue d q1 ∧ t.idle.get d = idle1 ∧ t.env.log = s.env.log) ∧
        (s.params.idleThreshold ≤ idle1 → t.Queue d [] ∧ t.idle.get d = 0 ∧ t.armed.get d = false ∧
          t.env.log = s.env.log ++ writeOutputs d.opp q1) := by
  obtain ⟨r, h1, h2⟩ := dirPoll_ok h hc hd
  simp only [normalService, h1, Run.bind_ok]
  generalize hdr : (s.drop.get d + ((s.polled d).length - (s.accepted d q).length)) % 2 ^ s.params.dropCntWidth = dr
  generalize hqa : q ++ s.accepted d q = q1 at *
  generalize hs1 : ({ s with rb := s.rb.set d r, drop := s.drop.set d dr, arrived := s.arrived.set d (s.polled d).length, env := { s.env with rxq := s.env.rxq.set d ((s.env.rxq.get d).drop s.params.rxChunk), draws := s.env.draws.tail } } : State) = s1
  have hq1 : s1.Queue d q1 := by subst hs1; simpa [State.Queue] using h2
  have hc1 : s1.CallsSucceed := by subst hs1; exact hc.of_tail rfl
  have hcnt : (s1.rb.get d).count = q1.length := hq1.count_eq
  have hiff : s1.restartsRun d = true ↔ (q1.length ≠ s.lastCount.get d ∨ (s.params.idleResetOn = .arrival ∧ s.polled d ≠ [])) := by
    simp [State.restartsRun, hcnt]
    subst hs1
    simp [List.length_pos_iff]
  have hchk : ∃ s2, dirSizeCheck d s1 = .ok () s2 ∧ s2.CallsSucceed ∧
     s2 = { s1 with
        idle := s1.idle.set d (if q1.length ≠ s.lastCount.get d ∨ (s.params.idleResetOn = .arrival ∧ s.polled d ≠ []) then 0 else s.idle.get d)
        lastCount := s1.lastCount.set d q1.length
        exp := s1.exp.set d (if q1.length ≠ s.lastCount.get d ∨ (s.params.idleResetOn = .arrival ∧ s.polled d ≠ []) then false else s.exp.get d)
        armed := s1.armed.set d (s2.armed.get d)
        period := s1.period.set d (s2.period.get d)
        env := {s1.env with draws := s2.env.draws} } := by
    by_cases hr : s1.restartsRun d = true
    · refine ⟨_, by simp only [dirSizeCheck, hr, if_true]; exact timerArm_ok (by exact hc1.of_eq rfl) d, hc1.of_tail rfl, ?_⟩
      rw [if_pos (hiff.1 hr), if_pos (hiff.1 hr)]
      simp [State.takeDraw, State.arm, State.setIdle, State.setLastCount, State.setEnv, rbAvailable, hcnt]
    · refine ⟨s1, by simp [dirSizeCheck, hr], hc1, ?_⟩
      have hnot := fun g => hr (hiff.2 g)
      rw [if_neg hnot, if_neg hnot]
      have : q1.length = s.lastCount.get d := by by_contra g; exact hnot (.inl g)
      subst hs1
      simp [this]
  obtain ⟨s2, e2, hc2, hs2⟩ := hchk
  simp only [e2, Run.bind_ok]
  have hq2 : s2.Queue d q1 := by rw [hs2]; exact hq1
  have hcnt2 : (s2.rb.get d).count = q1.length := hq2.count_eq
  have hexp : dirExpiry d s2 = { s2 with exp := s2.exp.set d false, idle := s2.idle.set d (if s2.exp.get d = true ∧ q1 ≠ [] then s2.idle.get d + 1 else s2.idle.get d) } := by
    unfold dirExpiry
    by_cases hx : s2.exp.get d = true
    · by_cases hn : q1 = []
      · have : ¬ 0 < rbAvailable d s2 := by simp [rbAvailable, hcnt2, hn]
        simp only [hx, this, if_true, if_false, hn]
        simp [State.setExp]
      · have : 0 < rbAvailable d s2 := by simp [rbAvailable, hcnt2, List.length_pos_iff, hn]
        simp only [hx, this, if_true]
        simp [hn, State.setExp, State.setIdle]
    · have hx' : s2.exp.get d = false := by simpa using hx
      have : s2.exp.set d false = s2.exp := by rw [← hx']; simp
      simp [hx', this]
  have hi1 : (if s2.exp.get d = true ∧ q1 ≠ [] then s2.idle.get d + 1 else s2.idle.get d) = (if q1.length ≠ s.lastCount.get d ∨ (s.params.idleResetOn = .arrival ∧ s.polled d ≠ []) then 0
          else if s.exp.get d = true ∧ q1 ≠ [] then s.idle.get d + 1 else s.idle.get d) := by
    rw [hs2]; simp only [PerSide.get_set_same]; subst hs1
    split <;> simp
  rw [hi1] at hexp
  generalize hid : (if q1.length ≠ s.lastCount.get d ∨ (s.params.idleResetOn = .arrival ∧ s.polled d ≠ []) then 0
          else if s.exp.get d = true ∧ q1 ≠ [] then s.idle.get d + 1 else s.idle.get d) = id1 at hexp
  rw [hexp]
  generalize hs3 : ({ s2 with exp := s2.exp.set d false, idle := s2.idle.set d id1 } : State) = s3
  have hq3 : s3.Queue d q1 := by subst hs3; exact hq2
  have hc3 : s3.CallsSucceed := by subst hs3; exact hc2.of_eq rfl
  have hcnt3 : (s3.rb.get d).count = q1.length := hq3.count_eq
  have hp3 : s3.params = s.params := by rw [← hs3, hs2, ← hs1]
  have hi3 : s3.idle.get d = id1 := by rw [← hs3]; simp
  by_cases ht : s3.params.idleThreshold ≤ s3.idle.get d
  · rw [dirFlush_ok hq3 hc3 ht]
    refine ⟨_, rfl, hc3.of_draws (n := if q1 = [] then 1 else 2) rfl, ?_, ?_⟩
    · rw [← hs3]; simp only []; rw [hs2, ← hs1]; simp
    · intro q1' idle1 hq' he
      subst hq'
      rw [hid] at he
      subst he
      rw [hp3, hi3] at ht
      refine ⟨fun h => absurd ht (Nat.not_le.2 h), fun _ => ⟨?_, by simp, by simp, ?_⟩⟩
      · have := (Ring.drainAll_spec hq3).2
        simpa [State.Queue] using this
      · have : s3.env.log = s.env.log := by rw [← hs3, hs2, ← hs1]
        simp [this]
  · rw [dirFlush, if_neg ht]
    refine ⟨_, rfl, hc3, ?_, ?_⟩
    · rw [hcnt3, hi3, ← hs3]; simp only []; rw [hs2, ← hs1]; simp
    · intro q1' idle1 hq' he
      subst hq'
      rw [hid] at he
      subst he
      rw [hp3, hi3] at ht
      have : s3.env.log = s.env.log := by rw [← hs3, hs2, ← hs1]
      exact ⟨fun _ => ⟨hq3, hi3, this⟩, fun h => absurd h ht⟩

end Sys2Proof.Machine
end

