-- ==== Sys2Proof/Laws/Interception.lean ====
section
/-! SUPPORT. The scratch buffer and the frame it holds: how many bytes a Sleep read asks for, and what taking them in does
(42_bridge_controller.md R230, R231, R233). -/

namespace Sys2Proof.Machine

variable {s t : State} {fr got : List Byte}

theorem frameLen_pos (b : Byte) : 1 ≤ frameLen b := by
  unfold frameLen
  split
  · decide
  · split <;> decide

theorem frameLen_le (b : Byte) : frameLen b ≤ scratchSize := by
  unfold frameLen scratchSize
  split
  · decide
  · split <;> decide

/-- An open frame asks for at least one more byte. -/
theorem needAfter_pos (ho : frameOpen fr = true) : 1 ≤ needAfter fr := by
  cases fr with
  | nil => decide
  | cons b bs =>
    have := of_decide_eq_true ho
    simp only [needAfter]
    omega

/-- Bytes read on from an open frame: there is a first byte, and they do not go beyond its length. -/
theorem frame_grows (ho : frameOpen fr = true) (hne : got ≠ []) (hle : got.length ≤ needAfter fr) :
    ∃ b bs, fr ++ got = b :: bs ∧ (b :: bs).length ≤ frameLen b := by
  cases fr with
  | nil =>
    obtain ⟨b, bs, rfl⟩ := List.exists_cons_of_ne_nil hne
    exact ⟨b, bs, rfl, hle.trans (frameLen_pos b)⟩
  | cons b bs =>
    have ho := of_decide_eq_true ho
    simp only [needAfter, List.length_cons] at hle ho
    exact ⟨b, bs ++ got, rfl, by simp only [List.length_cons, List.length_append]; omega⟩

/-- So the frame is open or complete after the read. -/
theorem frame_open_or_complete (ho : frameOpen fr = true) (hne : got ≠ []) (hle : got.length ≤ needAfter fr) :
    frameOpen (fr ++ got) = true ∨ frameComplete (fr ++ got) = true := by
  obtain ⟨b, bs, h1, h2⟩ := frame_grows ho hne hle
  rw [h1]
  rcases Nat.lt_or_eq_of_le h2 with h3 | h3
  · exact .inl (decide_eq_true h3)
  · exact .inr (decide_eq_true h3)

namespace State.FrameHeld

theorem congr (h : s.FrameHeld fr) (hs : t.scratch = s.scratch) (hl : t.scratchLen = s.scratchLen) : t.FrameHeld fr :=
  ⟨hl ▸ h.len_eq, hs ▸ h.canonical, hs ▸ h.inside, hs ▸ h.live, hs ▸ h.dead⟩

/-- A scratch buffer just cleared, or as it is at reset. -/
theorem nil (hs : s.scratch = []) (hl : s.scratchLen = 0) : s.FrameHeld [] :=
  ⟨hl, hs ▸ rfl, by simp [hs], fun k hk => absurd hk (by simp), fun k _ => by rw [hs]; rfl⟩

/-- A scratch buffer that holds no byte lists no slot. -/
theorem scratch_nil (h : s.FrameHeld []) : s.scratch = [] := Memory.eq_nil fun i => h.dead i (Nat.zero_le _)

/-- The first byte of a frame held. -/
theorem readFirst {b : Byte} {bs : List Byte} (h : s.FrameHeld (b :: bs)) : memRead s.scratch scratchSize 0 = .ok b :=
  memRead_ok (by decide) (h.live 0 (Nat.succ_pos _))

/-- What the next Sleep read asks for. -/
theorem sleepNeed (h : s.FrameHeld fr) : sleepNeed s = .ok (needAfter fr) := by
  have hl := h.len_eq
  cases fr with
  | nil => simp [Machine.sleepNeed, hl, needAfter]
  | cons b bs => simp [Machine.sleepNeed, hl, h.readFirst, needAfter, frameNeed]

/-- The frame held, read back whole. -/
theorem readAll (h : s.FrameHeld fr) (hle : fr.length ≤ scratchSize) :
    memReadMany s.scratch scratchSize s.scratchLen 0 = .ok fr := by
  rw [h.len_eq]
  exact memReadMany_spec _ _ _ (by omega) fun k hk => by simpa using h.live k hk

/-- Appending bytes to the frame held. -/
theorem append (h : s.FrameHeld fr) (hle : fr.length + got.length ≤ scratchSize) :
    ∃ m, memWriteMany s.scratch scratchSize got s.scratchLen = .ok m ∧
      ({ s with scratch := m, scratchLen := s.scratchLen + got.length } : State).FrameHeld (fr ++ got) := by
  have hl := h.len_eq
  obtain ⟨m, h1, h2, h3, h4, h5⟩ := memWriteMany_spec got s.scratch s.scratchLen h.canonical h.inside (by omega)
  refine ⟨m, h1, by simp [hl], h2, h3, fun k hk => ?_, fun k hk => ?_⟩
  swap
  · rw [List.length_append] at hk
    exact (h4 k (.inr (by omega))).trans (h.dead k (by omega))
  by_cases hkf : k < fr.length
  · rw [List.getElem_append_left hkf]
    exact (h4 k (.inl (by omega))).trans (h.live k hkf)
  · have hkg : k - fr.length < got.length := by simp only [List.length_append] at hk; omega
    have := h5 (k - fr.length) hkg
    rw [List.getElem_append_right (by omega)]
    rwa [hl, show fr.length + (k - fr.length) = k by omega] at this

end State.FrameHeld

/-- Taking in the bytes of one Sleep read: the frame grows, and the exchange runs exactly when it is complete (R230). -/
theorem takeFrameBytes_spec (h : s.FrameHeld fr) (ho : frameOpen fr = true) (hne : got ≠ []) (hle : got.length ≤ needAfter fr) :
    ∃ m, ({ s with scratch := m, scratchLen := s.scratchLen + got.length } : State).FrameHeld (fr ++ got) ∧
      takeFrameBytes got s =
        if frameComplete (fr ++ got) = true then exchange { s with scratch := m, scratchLen := s.scratchLen + got.length }
        else .ok () { s with scratch := m, scratchLen := s.scratchLen + got.length } := by
  obtain ⟨b, bs, h1, h2⟩ := frame_grows ho hne hle
  have hlen : fr.length + got.length = (b :: bs).length := by rw [← h1, List.length_append]
  obtain ⟨m, h3, h4⟩ := h.append (got := got) (by rw [hlen]; exact h2.trans (frameLen_le b))
  refine ⟨m, h4, ?_⟩
  have h5 : memRead m scratchSize 0 = .ok b := (h1 ▸ h4).readFirst
  have h6 : s.scratchLen + got.length = (b :: bs).length := by rw [h.len_eq, hlen]
  simp only [takeFrameBytes, h3, h5, h1, h6, frameComplete, decide_eq_true_eq]

end Sys2Proof.Machine
end

