-- ==== Sys2Proof/Laws/Sound.lean ====
section
/-! SUPPORT. Soundness of the storage (Safety's `State.Sound`), operation by operation: each operation of the control loop, from a
sound state in which the loop may step, returns in such a state, ends the tick in a sound one, and never stops with a fault. -/

namespace Sys2Proof.Machine

variable {α β : Type} {s t : State}

/-- Sound, and not halted. -/
structure State.Live (s : State) : Prop where
  sound : s.Sound
  going : s.phase ≠ .halted

/-- Every end of `r` keeps the storage sound. -/
def Run.Keeps (r : Run α) : Prop := r.Ends (fun _ t => t.Live) (fun t => t.Sound) (fun _ => False)

namespace State.Sound

/-- The parameters, the rings, the counters, the scratch buffer and the phase decide soundness. -/
theorem congr (h : s.Sound) (hp : t.params = s.params) (hr : t.rb = s.rb) (hd : t.drop = s.drop)
    (hs : t.scratch = s.scratch) (hl : t.scratchLen = s.scratchLen) (hph : s.phase ≠ .halted ∨ t.phase = s.phase) :
    t.Sound := by
  obtain ⟨fr, hf, ho⟩ := h.frame
  refine ⟨hp ▸ h.params, fun d => ?_, fun d => by rw [hd, hp]; exact h.drops d, fr, ?_, ?_⟩
  · obtain ⟨q, hq⟩ := h.rings d
    exact ⟨q, by rw [State.Queue, hr, hp]; exact hq⟩
  · exact hf.congr hs hl
  · rcases ho with ho | ⟨h1, h2⟩
    · exact .inl ho
    · exact .inr ⟨(hph.resolve_left (fun g => g h1)).trans h1, h2⟩

theorem setEnv (h : s.Sound) (e : Env) : (s.setEnv e).Sound := h.congr rfl rfl rfl rfl rfl (.inr rfl)

theorem setAgenda (h : s.Sound) (a : List Move) : (s.setAgenda a).Sound := h.congr rfl rfl rfl rfl rfl (.inr rfl)

theorem setResult (h : s.Sound) (r : OpResult) : (s.setResult r).Sound := h.congr rfl rfl rfl rfl rfl (.inr rfl)

theorem setExp (h : s.Sound) (d : Side) (b : Bool) : (s.setExp d b).Sound := h.congr rfl rfl rfl rfl rfl (.inr rfl)

/-- In a state that is not halted the scratch buffer holds an open frame. -/
theorem openFrame (h : s.Sound) (hp : s.phase ≠ .halted) : ∃ fr, s.FrameHeld fr ∧ frameOpen fr = true := by
  obtain ⟨fr, hf, ho⟩ := h.frame
  exact ⟨fr, hf, ho.resolve_right (fun g => hp g.1)⟩

/-- A ring that holds some queue may take the place of `rb[d]`. -/
theorem setRb (h : s.Sound) {d : Side} {r : Ring} {q : List Byte} (hr : r.Holds s.params.ringCap q) : (s.setRb d r).Sound := by
  obtain ⟨fr, hf, ho⟩ := h.frame
  refine ⟨h.params, fun e => ?_, h.drops, fr, hf.congr rfl rfl, ho⟩
  rcases Side.eq_or_opp d e with rfl | rfl
  · exact ⟨q, by simpa [State.Queue] using hr⟩
  · obtain ⟨q', hq'⟩ := h.rings d.opp
    exact ⟨q', by simpa [State.Queue] using hq'⟩

theorem setDrop (h : s.Sound) {d : Side} {n : Nat} (hn : n < 2 ^ s.params.dropCntWidth) : (s.setDrop d n).Sound := by
  obtain ⟨fr, hf, ho⟩ := h.frame
  refine ⟨h.params, h.rings, fun e => ?_, fr, hf.congr rfl rfl, ho⟩
  rcases Side.eq_or_opp d e with rfl | rfl
  · simpa using hn
  · simpa using h.drops d.opp

/-- Emptying the scratch buffer is always allowed. -/
theorem clearScratch (h : s.Sound) : s.clearScratch.Sound := ⟨h.params, h.rings, h.drops, [], .nil rfl rfl, .inl rfl⟩

/-- The state after reset. -/
theorem resetWith {p : Config} (hp : p.wf = true) (e : Env) (a : List Move) : (State.resetWith p e a).Sound := by
  have hc : 0 < p.ringCap := by
    simp only [Config.wf, Bool.and_eq_true, decide_eq_true_eq] at hp
    omega
  exact ⟨hp, fun d => ⟨[], by simpa [State.Queue, State.resetWith] using Ring.Holds.empty hc⟩, fun d => by simp [State.resetWith],
    [], .nil rfl rfl, .inl rfl⟩

end State.Sound

namespace State.Live

theorem congr (h : s.Live) (hp : t.params = s.params) (hr : t.rb = s.rb) (hd : t.drop = s.drop)
    (hs : t.scratch = s.scratch) (hl : t.scratchLen = s.scratchLen) (hph : t.phase = s.phase) : t.Live :=
  ⟨h.sound.congr hp hr hd hs hl (.inr hph), hph ▸ h.going⟩

theorem same (h : s.Live) : (Run.ok () s).Keeps := h

/-- A primitive that, when it succeeds, leaves the storage alone. -/
theorem call (h : s.Live) {c : IoCause} {failed : Nat → Env → Env} {done : State → Run α} (hd : (done s.takeDraw).Keeps) :
    (call c failed done s).Keeps :=
  call_ends hd fun _ _ _ => h.sound.congr rfl rfl rfl rfl rfl (.inl h.going)

theorem clearScratch (h : s.Live) : s.clearScratch.Live := ⟨h.sound.clearScratch, h.going⟩

end State.Live

/-! ## The primitives -/

theorem portReadNB_keeps (h : s.Live) (sd : Side) (n : Nat) : (portReadNB sd n s).Keeps :=
  h.call (h.congr rfl rfl rfl rfl rfl rfl)

theorem portWrite_keeps (h : s.Live) (sd : Side) (bytes : List Byte) : (portWrite sd bytes s).Keeps := by
  unfold portWrite
  split
  · exact h
  · exact h.call (h.congr rfl rfl rfl rfl rfl rfl)

theorem portSetSpeed_keeps (h : s.Live) (sd : Side) (v : Nat) : (portSetSpeed sd v s).Keeps :=
  h.call (h.congr rfl rfl rfl rfl rfl rfl)

theorem lineReadMs0_keeps (h : s.Live) : (lineReadMs0 s).Keeps := h.call (h.congr rfl rfl rfl rfl rfl rfl)

theorem lineReadMs1_keeps (h : s.Live) : (lineReadMs1 s).Keeps := h.call (h.congr rfl rfl rfl rfl rfl rfl)

theorem lineSet_keeps (h : s.Live) (v : Bool) : (lineSet v s).Keeps := h.call (h.congr rfl rfl rfl rfl rfl rfl)

theorem timerArm_keeps (h : s.Live) (d : Side) : (timerArm d s).Keeps := h.call (h.congr rfl rfl rfl rfl rfl rfl)

theorem timerDisarm_keeps (h : s.Live) (d : Side) : (timerDisarm d s).Keeps := h.call (h.congr rfl rfl rfl rfl rfl rfl)

/-! ## Ring buffer -/

theorem rbEnqueue_keeps (h : s.Live) (d : Side) (b : Byte) : (rbEnqueue d b s).Keeps := by
  obtain ⟨q, hq⟩ := h.sound.rings d
  by_cases hlt : q.length < s.params.ringCap
  · obtain ⟨r, h1, h2⟩ := rbEnqueue_room hq hlt b
    rw [h1]
    exact ⟨h.sound.setRb h2, h.going⟩
  · rw [rbEnqueue_full hq (Nat.not_lt.1 hlt)]
    exact h

theorem rbDequeue_keeps (h : s.Live) (d : Side) : (rbDequeue d s).Keeps := by
  obtain ⟨q, hq⟩ := h.sound.rings d
  cases q with
  | nil =>
    simp only [rbDequeue, onRing, Ring.dequeue_empty hq, State.setRb, PerSide.set_get_self]
    exact h
  | cons b q =>
    obtain ⟨h1, h2⟩ := Ring.dequeue_spec hq
    simp only [rbDequeue, onRing, h1]
    exact ⟨h.sound.setRb h2, h.going⟩

theorem rbDrainAll_keeps (h : s.Live) (d : Side) : (rbDrainAll d s).Keeps := by
  obtain ⟨q, hq⟩ := h.sound.rings d
  obtain ⟨r, h1, h2, -⟩ := rbDrainAll_spec hq
  rw [h1]
  exact ⟨h.sound.setRb h2, h.going⟩

/-! ## Normal mode -/

theorem enqueueAll_keeps (d : Side) (bytes : List Byte) (h : s.Live) : (enqueueAll d bytes s).Keeps := by
  induction bytes generalizing s with
  | nil => exact h
  | cons b bs ih =>
    refine Run.Ends.bind (rbEnqueue_keeps h d b) fun ok s1 h1 => ih ?_
    cases ok
    · exact ⟨h1.sound.setDrop (Nat.mod_lt _ (Nat.two_pow_pos _)), h1.going⟩
    · exact h1

theorem dirPoll_keeps (h : s.Live) (d : Side) : (dirPoll d s).Keeps :=
  Run.Ends.bind (portReadNB_keeps h d _) fun bytes _ h1 => enqueueAll_keeps d bytes (h1.congr rfl rfl rfl rfl rfl rfl)

theorem dirSizeCheck_keeps (h : s.Live) (d : Side) : (dirSizeCheck d s).Keeps := by
  unfold dirSizeCheck
  split
  · exact timerArm_keeps (by exact h.congr rfl rfl rfl rfl rfl rfl) d
  · exact h

theorem dirExpiry_live (h : s.Live) (d : Side) : (dirExpiry d s).Live := by
  unfold dirExpiry
  split
  · split <;> exact h.congr rfl rfl rfl rfl rfl rfl
  · exact h

theorem dirFlush_keeps (h : s.Live) (d : Side) : (dirFlush d s).Keeps := by
  unfold dirFlush
  split
  · refine Run.Ends.bind (rbDrainAll_keeps h d) fun burst s1 h1 => ?_
    refine Run.Ends.bind (portWrite_keeps h1 _ _) fun _ s2 h2 => ?_
    exact timerDisarm_keeps (by exact h2.congr rfl rfl rfl rfl rfl rfl) d
  · exact h

theorem normalService_keeps (h : s.Live) (d : Side) : (normalService d s).Keeps := by
  refine Run.Ends.bind (dirPoll_keeps h d) fun _ s1 h1 => ?_
  refine Run.Ends.bind (dirSizeCheck_keeps h1 d) fun _ s2 h2 => ?_
  exact dirFlush_keeps (dirExpiry_live h2 d) d

/-! ## Mode multiplexer -/

theorem enterSleep_keeps (h : s.Live) : (enterSleep s).Keeps := by
  refine Run.Ends.bind (timerDisarm_keeps h .H) fun _ s1 h1 => ?_
  refine Run.Ends.bind (timerDisarm_keeps h1 .P) fun _ s2 h2 => ?_
  exact Run.Ends.bind (portSetSpeed_keeps h2 _ _) fun _ s3 h3 => h3.clearScratch

theorem restartRun_keeps (h : s.Live) (d : Side) : (restartRun d s).Keeps := by
  unfold restartRun
  have h1 : ((s.setIdle d 0).setLastCount d (s.rb.get d).count).Live := h.congr rfl rfl rfl rfl rfl rfl
  simp only
  split
  · exact timerArm_keeps h1 d
  · exact h1

theorem leaveSleep_keeps (h : s.Live) : (leaveSleep s).Keeps := by
  refine Run.Ends.bind (portSetSpeed_keeps h _ _) fun _ s1 h1 => ?_
  refine Run.Ends.bind (portSetSpeed_keeps h1 _ _) fun _ s2 h2 => ?_
  exact Run.Ends.bind (restartRun_keeps h2.clearScratch .H) fun _ s3 h3 => restartRun_keeps h3 .P

theorem modeTransition_keeps (h : s.Live) (mode : Mode) : (modeTransition mode s).Keeps := by
  unfold modeTransition
  split
  · exact h
  · refine Run.Ends.bind (P := fun _ t => t.Live) ?_ fun _ s1 h1 => State.Live.congr h1 rfl rfl rfl rfl rfl rfl
    unfold modeSideEffects
    split
    · exact leaveSleep_keeps h
    · split
      · exact enterSleep_keeps h
      · exact h

/-! ## Configuration store -/

theorem cfgSetParams_live (h : s.Live) (bytes : List Byte) : (cfgSetParams bytes s).Live := by
  unfold cfgSetParams
  split
  · exact h.congr rfl rfl rfl rfl rfl rfl
  · exact h

theorem cfgInputCommand_live (h : s.Live) (bytes : List Byte) : (cfgInputCommand bytes s).2.Live := by
  unfold cfgInputCommand
  generalize decodeFrame bytes = i
  cases i
  case cmdWrite a b c d e => exact cfgSetParams_live h [writePreamble, a, b, c, d, e]
  all_goals exact h

/-! ## Sleep mode -/

/-- Inside an exchange: the storage is sound and the scratch buffer holds the complete frame `fr`. -/
structure State.Busy (s : State) (fr : List Byte) : Prop where
  params : s.params.wf = true
  rings : ∀ d, ∃ q, s.Queue d q
  drops : ∀ d, s.drop.get d < 2 ^ s.params.dropCntWidth
  held : s.FrameHeld fr
  complete : frameComplete fr = true
  going : s.phase ≠ .halted

namespace State.Busy

variable {fr : List Byte}

theorem congr (h : s.Busy fr) (hp : t.params = s.params) (hr : t.rb = s.rb) (hd : t.drop = s.drop)
    (hs : t.scratch = s.scratch) (hl : t.scratchLen = s.scratchLen) (hph : t.phase = s.phase) : t.Busy fr := by
  refine ⟨hp ▸ h.params, fun d => ?_, fun d => by rw [hd, hp]; exact h.drops d, h.held.congr hs hl, h.complete, hph ▸ h.going⟩
  obtain ⟨q, hq⟩ := h.rings d
  exact ⟨q, by rw [State.Queue, hr, hp]; exact hq⟩

/-- A halt inside the exchange leaves the complete frame. -/
theorem halt (h : s.Busy fr) (e : Env) (c : IoCause) : ((s.setEnv e).ioFailure c).Sound :=
  ⟨h.params, h.rings, h.drops, fr, h.held.congr rfl rfl, .inr ⟨rfl, h.complete⟩⟩

/-- The end of the exchange empties the scratch buffer. -/
theorem done (h : s.Busy fr) : s.clearScratch.Live := ⟨⟨h.params, h.rings, h.drops, [], .nil rfl rfl, .inl rfl⟩, h.going⟩

theorem call (h : s.Busy fr) {c : IoCause} {failed : Nat → Env → Env} {done : State → Run α}
    (hd : (done s.takeDraw).Ends (fun _ t => t.Busy fr) State.Sound (fun _ => False)) :
    (call c failed done s).Ends (fun _ t => t.Busy fr) State.Sound (fun _ => False) :=
  call_ends hd fun n ds _ => h.halt (failed n { s.env with draws := ds }) c

theorem lineSet (h : s.Busy fr) (v : Bool) : (lineSet v s).Ends (fun _ t => t.Busy fr) State.Sound (fun _ => False) :=
  h.call (h.congr rfl rfl rfl rfl rfl rfl)

theorem portWrite (h : s.Busy fr) (sd : Side) (bytes : List Byte) :
    (portWrite sd bytes s).Ends (fun _ t => t.Busy fr) State.Sound (fun _ => False) := by
  unfold Machine.portWrite
  split
  · exact h
  · exact h.call (h.congr rfl rfl rfl rfl rfl rfl)

theorem cfgInputCommand (h : s.Busy fr) (bytes : List Byte) : (cfgInputCommand bytes s).2.Busy fr := by
  unfold Machine.cfgInputCommand
  generalize decodeFrame bytes = i
  cases i
  case cmdWrite a b c d e => exact h.congr rfl rfl rfl rfl rfl rfl
  all_goals exact h

end State.Busy

/-- The exchange. -/
theorem exchange_keeps {fr : List Byte} (h : s.Busy fr) (hle : fr.length ≤ scratchSize) : (exchange s).Keeps := by
  rw [exchange, h.held.readAll hle]
  refine Run.Ends.bind (h.lineSet false) fun _ s1 h1 => ?_
  refine Run.Ends.bind ((h1.cfgInputCommand _).portWrite _ _) fun _ s2 h2 => ?_
  exact Run.Ends.bind (h2.lineSet true) fun _ s3 h3 => h3.done

theorem takeFrameBytes_keeps (h : s.Live) {fr got : List Byte} (hf : s.FrameHeld fr) (ho : frameOpen fr = true)
    (hne : got ≠ []) (hle : got.length ≤ needAfter fr) : (takeFrameBytes got s).Keeps := by
  obtain ⟨m, h1, h2⟩ := takeFrameBytes_spec hf ho hne hle
  rw [h2]
  split
  next hc =>
    obtain ⟨b, bs, h3, h4⟩ := frame_grows ho hne hle
    refine exchange_keeps (fr := fr ++ got) ⟨h.sound.params, h.sound.rings, h.sound.drops, h1, hc, h.going⟩ ?_
    rw [h3]
    exact h4.trans (frameLen_le b)
  next hc =>
    exact ⟨⟨h.sound.params, h.sound.rings, h.sound.drops, _, h1,
      .inl ((frame_open_or_complete ho hne hle).resolve_right hc)⟩, h.going⟩

theorem resumed_live (h : s.Live) : s.resumed.Live := by
  unfold State.resumed
  split
  · exact ⟨h.sound.congr rfl rfl rfl rfl rfl (.inl h.going), by simp⟩
  · exact h

/-- Every end of the blocking read: some bytes, no more than asked for; or a tick that ended, held or halted. -/
theorem portReadB_keeps (h : s.Live) {n : Nat} (hn : 1 ≤ n) :
    (portReadB .H n s).Ends (fun got t => t.Live ∧ t.scratch = s.scratch ∧ t.scratchLen = s.scratchLen ∧ got ≠ [] ∧ got.length ≤ n)
      State.Sound (fun _ => False) := by
  have hold : (s.setPhase .sleepWait).Sound := h.sound.congr rfl rfl rfl rfl rfl (.inl h.going)
  rcases hrx : s.env.rxq.h with _ | ⟨b, bs⟩
  · rw [portReadB_hold n hrx]; exact hold
  · rw [portReadB_read n (by simp [hrx])]
    refine call_ends ⟨h.congr rfl rfl rfl rfl rfl rfl, rfl, rfl, ?_, ?_⟩ fun n ds _ =>
      h.sound.congr rfl rfl rfl rfl rfl (.inl h.going)
    · obtain ⟨k, rfl⟩ : ∃ k, n = k + 1 := ⟨n - 1, by omega⟩
      simp [Env.rxTake, hrx]
    · simp [Env.rxTake]

theorem sleepStep_keeps (h : s.Live) : (sleepStep s).Keeps := by
  obtain ⟨fr, hf, ho⟩ := h.sound.openFrame h.going
  rw [sleepStep, hf.sleepNeed]
  refine Run.Ends.bind (portReadB_keeps h (needAfter_pos ho)) fun got s1 ⟨h1, h2, h3, h4, h5⟩ => ?_
  exact Run.Ends.bind (takeFrameBytes_keeps h1 (hf.congr h2 h3) ho h4 h5) fun _ s2 h6 => resumed_live h6

/-! ## The control loop -/

theorem unimplStep_keeps (h : s.Live) (m : UnimplMode) : (unimplStep m s).Keeps :=
  h.sound.congr rfl rfl rfl rfl rfl (.inl h.going)

theorem tickBody_keeps (h : s.Live) (mode : Mode) : (tickBody mode s).Keeps := by
  cases mode
  · exact Run.Ends.bind (normalService_keeps h .H) fun _ s1 h1 => normalService_keeps h1 .P
  · exact unimplStep_keeps h .wakeUp
  · exact unimplStep_keeps h .powerSaving
  · exact sleepStep_keeps h

theorem tick_keeps (h : s.Live) : (tick s).Keeps := by
  refine Run.Ends.bind (lineReadMs0_keeps h) fun m0 s1 h1 => ?_
  refine Run.Ends.bind (lineReadMs1_keeps h1) fun m1 s2 h2 => ?_
  refine Run.Ends.bind (modeTransition_keeps h2 _) fun _ s3 h3 => ?_
  refine Run.Ends.bind (tickBody_keeps h3 _) fun _ s4 h4 => ?_
  exact ⟨h4.sound.congr rfl rfl rfl rfl rfl (.inl h4.going), by simp⟩

theorem startup_keeps (h : s.Live) : (startup s).Keeps := by
  refine Run.Ends.bind (portSetSpeed_keeps h _ _) fun _ s1 h1 => ?_
  refine Run.Ends.bind (portSetSpeed_keeps h1 _ _) fun _ s2 h2 => ?_
  refine Run.Ends.bind (lineSet_keeps h2 true) fun _ s3 h3 => ?_
  refine Run.Ends.bind (portWrite_keeps h3 _ _) fun _ s4 h4 => ?_
  exact ⟨h4.sound.congr rfl rfl rfl rfl rfl (.inl h4.going), by simp⟩

end Sys2Proof.Machine
end

