-- ==== Sys2Proof/Laws/Loop.lean ====
section
/-! SUPPORT. What the operations of a tick keep of the invariant of the agents' own run (Safety's `State.LoopInv`): a predicate for
each stage of a tick, and one lemma for each operation that says in which stage it leaves the machine; wherever it ends the tick,
the invariant holds again. -/

namespace Sys2Proof.Machine

variable {α : Type} {s t : State} {d : Side} {m : Mode}

/-! ## What holds all through a tick -/

/-- The part of the invariant that every point of a tick meets. -/
structure State.Base (s : State) : Prop where
  agents : ∀ m ∈ s.agenda, m.ofAgents = true
  idle_le : ∀ d, s.idle.get d ≤ s.params.idleThreshold
  exp_armed : ∀ d, s.exp.get d = true → s.armed.get d = true
  status_eq : s.status = { halted := false, unimpl := false, cause := 0 }

namespace State.Base

/-- A halt at any point of a tick meets the invariant. -/
theorem halt (h : s.Base) {e : Env} {c : IoCause} (hs : ((s.setEnv e).ioFailure c).Sound) :
    ((s.setEnv e).ioFailure c).LoopInv where
  sound := hs
  agents := h.agents
  idle_le := h.idle_le
  idle_lt := fun g => absurd rfl g
  last_eq := fun g => absurd rfl g
  exp_armed := h.exp_armed
  armed_iff := fun g => by cases g
  sleep_disarmed := fun g => by rcases g with g | g <;> cases g
  run_mode := fun g => by cases g
  wait_mode := fun g => by cases g
  no_frame := fun g => by cases g
  data_speeds := fun g => by cases g
  boot_speed := fun g => by rcases g with g | g <;> cases g
  line_high := fun g => by rcases g with g | g | g <;> cases g
  halted_iff := ⟨fun _ => rfl, fun _ => rfl⟩
  cause_iff := ⟨fun _ => rfl, fun _ => show c.code ≠ 0 by cases c <;> decide⟩
  unimpl_iff := ⟨fun g => by simp [State.ioFailure, h.status_eq] at g, fun g => by cases g⟩
  mark := fun g => by cases g
  fresh := fun g => by cases g

/-- The fields it speaks of. -/
theorem congr (h : s.Base) (ha : t.agenda = s.agenda) (hp : t.params = s.params) (hi : t.idle = s.idle) (hx : t.exp = s.exp)
    (hr : t.armed = s.armed) (hs : t.status = s.status) : t.Base :=
  ⟨ha ▸ h.agents, by rw [hi, hp]; exact h.idle_le, by rw [hx, hr]; exact h.exp_armed, hs ▸ h.status_eq⟩

theorem setIdle (h : s.Base) {n : Nat} (hn : n ≤ s.params.idleThreshold) : (s.setIdle d n).Base := by
  refine ⟨h.agents, fun e => ?_, h.exp_armed, h.status_eq⟩
  rcases Side.eq_or_opp d e with rfl | rfl
  · simpa using hn
  · simpa using h.idle_le d.opp

theorem arm (h : s.Base) (p : Period) : (s.arm d p).Base := by
  refine ⟨h.agents, h.idle_le, fun e he => ?_, h.status_eq⟩
  rcases Side.eq_or_opp d e with rfl | rfl
  · simp
  · simpa using h.exp_armed d.opp (by simpa using he)

theorem disarm (h : s.Base) : (s.disarm d).Base := by
  refine ⟨h.agents, h.idle_le, fun e he => ?_, h.status_eq⟩
  rcases Side.eq_or_opp d e with rfl | rfl
  · simp at he
  · simpa using h.exp_armed d.opp (by simpa using he)

theorem clearExp (h : s.Base) : (s.setExp d false).Base := by
  refine ⟨h.agents, h.idle_le, fun e he => ?_, h.status_eq⟩
  rcases Side.eq_or_opp d e with rfl | rfl
  · simp at he
  · simpa using h.exp_armed d.opp (by simpa using he)

end State.Base

/-- Between the operations of a tick, in any mode: the storage is sound, the status line is high, the phase is still RUN. -/
structure State.Going (s : State) : Prop where
  base : s.Base
  live : s.Live
  line_high : s.statusOut = true
  running : s.phase = .run

theorem State.Live.congrSound (h : s.Live) (e : Env) (c : IoCause) : ((s.setEnv e).ioFailure c).Sound :=
  h.sound.congr rfl rfl rfl rfl rfl (.inl h.going)

/-- One direction between two services: no flush is due, the last count is the count, and the timer runs exactly for bytes. -/
structure State.Steady (s : State) (d : Side) : Prop where
  idle_lt : s.idle.get d < s.params.idleThreshold
  last_eq : s.lastCount.get d = (s.rb.get d).count
  armed_iff : s.armed.get d = true ↔ 0 < (s.rb.get d).count

theorem State.Steady.congr (h : s.Steady d) (hp : t.params = s.params) (hi : t.idle.get d = s.idle.get d)
    (hl : t.lastCount.get d = s.lastCount.get d) (hr : t.rb.get d = s.rb.get d) (ha : t.armed.get d = s.armed.get d) :
    t.Steady d := ⟨by rw [hi, hp]; exact h.idle_lt, by rw [hl, hr]; exact h.last_eq, by rw [ha, hr]; exact h.armed_iff⟩

/-- What the services of a Normal tick leave alone: the last observed mode, no partial frame held, the data-mode speeds. -/
structure State.DataMode (s : State) (m : Mode) : Prop where
  mode : s.prevMode = m
  no_frame : s.scratchLen = 0
  speeds : s.speed.h = uartBaud s.cfg ∧ s.speed.p = peerSpeed s.params s.cfg

/-- Inside the service of direction `d`: all but that direction is as between two services. -/
structure State.Serving (s : State) (d : Side) (m : Mode) : Prop where
  going : s.Going
  data : s.DataMode m
  other : s.Steady d.opp

/-- Between the services of a Normal tick. -/
structure State.Served (s : State) (m : Mode) : Prop where
  going : s.Going
  data : s.DataMode m
  steady : ∀ d, s.Steady d

/-- Every end of a step of the service of `d`. -/
def Run.Serves (r : Run α) (d : Side) (m : Mode) (P : State → Prop) : Prop :=
  r.Ends (fun _ t => t.Serving d m ∧ P t) State.LoopInv (fun _ => False)

theorem State.Serving.call (h : s.Serving d m) {P : State → Prop} {c : IoCause} {failed : Nat → Env → Env} {done : State → Run α}
    (hd : (done s.takeDraw).Serves d m P) : (call c failed done s).Serves d m P :=
  call_ends hd fun _ _ _ => h.going.base.halt (h.going.live.congrSound _ _)

/-- Changes of an environment, and of what belongs to direction `d` alone. -/
theorem State.Serving.congr (h : s.Serving d m) (hb : t.Base) (hl : t.Live) (hp : t.params = s.params) (ho : t.statusOut = s.statusOut)
    (hph : t.phase = s.phase) (hn : t.scratchLen = s.scratchLen) (hsp : t.speed = s.speed) (hc : t.cfg = s.cfg)
    (h1 : t.idle.get d.opp = s.idle.get d.opp) (h2 : t.lastCount.get d.opp = s.lastCount.get d.opp)
    (h3 : t.rb.get d.opp = s.rb.get d.opp) (h4 : t.armed.get d.opp = s.armed.get d.opp)
    (hm : t.prevMode = s.prevMode := by rfl) : t.Serving d m :=
  ⟨⟨hb, hl, ho.trans h.going.line_high, hph.trans h.going.running⟩,
    ⟨hm.trans h.data.mode, hn.trans h.data.no_frame, by rw [hsp, hc, hp]; exact h.data.speeds⟩, h.other.congr hp h1 h2 h3 h4⟩

theorem State.Serving.threshold_pos (h : s.Serving d m) : 0 < s.params.idleThreshold := by
  have := h.going.live.sound.params
  simp only [Config.wf, Bool.and_eq_true, decide_eq_true_eq] at this
  omega

/-- After DIR_POLL: the count has not fallen, and an arrival leaves bytes in the buffer. -/
structure State.Polled (s : State) (d : Side) : Prop where
  idle_lt : s.idle.get d < s.params.idleThreshold
  last_le : s.lastCount.get d ≤ (s.rb.get d).count
  armed_iff : s.armed.get d = true ↔ 0 < s.lastCount.get d
  arrival : 0 < s.arrived.get d → 0 < (s.rb.get d).count

theorem dirPoll_serves (h : s.Serving d m) (hs : s.Steady d) : (dirPoll d s).Serves d m (fun t => t.Polled d) := by
  unfold dirPoll portReadNB
  refine Run.Ends.bind (P := fun _ t => t.Serving d m ∧ t.Steady d) (h.call ?_) fun bytes s1 ⟨h1, h2⟩ => ?_
  · exact ⟨h.congr (h.going.base.congr rfl rfl rfl rfl rfl rfl) (h.going.live.congr rfl rfl rfl rfl rfl rfl)
      rfl rfl rfl rfl rfl rfl rfl rfl rfl rfl, hs.congr rfl rfl rfl rfl rfl⟩
  · have hk := enqueueAll_keeps d bytes (s := s1.setArrived d bytes.length) (h1.going.live.congr rfl rfl rfl rfl rfl rfl)
    obtain ⟨q, hq⟩ := h1.going.live.sound.rings d
    obtain ⟨r, h3, h4⟩ := enqueueAll_spec (s := s1.setArrived d bytes.length) (d := d) (q := q) bytes hq
      (h1.going.live.sound.drops d)
    rw [h3] at hk ⊢
    have hc := hq.count_eq
    have hc' : r.count = (q ++ bytes.take (s1.params.ringCap - q.length)).length := h4.count_eq
    refine ⟨h1.congr (h1.going.base.congr rfl rfl rfl rfl rfl rfl) hk rfl rfl rfl rfl rfl rfl rfl rfl (by simp) rfl,
      h2.idle_lt, ?_, ?_, ?_⟩
    · simp only [State.setDrop_lastCount, State.setRb_lastCount, State.setArrived_lastCount, h2.last_eq, hc,
        State.setDrop_rb, State.setRb_rb, PerSide.get_set_same, hc', List.length_append]
      omega
    · simpa [h2.last_eq] using h2.armed_iff
    · have hcap := hq.cap_pos
      simp only [State.setDrop_arrived, State.setRb_arrived, State.setArrived_arrived, PerSide.get_set_same,
        State.setDrop_rb, State.setRb_rb, hc', List.length_append, List.length_take]
      omega

theorem dirSizeCheck_serves (h : s.Serving d m) (hs : s.Polled d) : (dirSizeCheck d s).Serves d m (fun t => t.Steady d) := by
  unfold dirSizeCheck
  split
  next hr =>
    have h1 : ((s.setLastCount d (rbAvailable d s)).setIdle d 0).Serving d m :=
      h.congr ((h.going.base.congr (t := s.setLastCount d (rbAvailable d s)) rfl rfl rfl rfl rfl rfl).setIdle (Nat.zero_le _))
        (h.going.live.congr rfl rfl rfl rfl rfl rfl) rfl rfl rfl rfl rfl rfl (by simp) (by simp) rfl rfl
    refine h1.call ?_
    have hb : (((s.setLastCount d (rbAvailable d s)).setIdle d 0).takeDraw).Base := h1.going.base.congr rfl rfl rfl rfl rfl rfl
    refine ⟨h1.congr (hb.arm _) (h1.going.live.congr rfl rfl rfl rfl rfl rfl) rfl rfl rfl rfl rfl rfl rfl rfl rfl (by simp [State.takeDraw]), ?_⟩
    refine ⟨by simpa [State.takeDraw] using h.threshold_pos, by simp [State.takeDraw, rbAvailable], ?_⟩
    have hpos : 0 < (s.rb.get d).count := by
      simp only [State.restartsRun, Bool.or_eq_true, Bool.and_eq_true, decide_eq_true_eq] at hr
      have := hs.last_le
      rcases hr with hr | ⟨-, hr⟩
      · omega
      · exact hs.arrival hr
    simpa [State.takeDraw] using hpos
  next hr =>
    have he : s.lastCount.get d = (s.rb.get d).count := by
      simp only [State.restartsRun, Bool.or_eq_true, decide_eq_true_eq, not_or, not_not] at hr
      exact hr.1.symm
    exact ⟨h, hs.idle_lt, he, he ▸ hs.armed_iff⟩

/-- After DIR_EXPIRY: as between two services, but that a flush may be due. -/
structure State.Counted (s : State) (d : Side) : Prop where
  last_eq : s.lastCount.get d = (s.rb.get d).count
  armed_iff : s.armed.get d = true ↔ 0 < (s.rb.get d).count

theorem dirExpiry_serves (h : s.Serving d m) (hs : s.Steady d) : (dirExpiry d s).Serving d m ∧ (dirExpiry d s).Counted d := by
  have hb := h.going.base.clearExp (d := d)
  have hi := hs.idle_lt
  unfold dirExpiry
  split
  · split
    · exact ⟨h.congr (hb.setIdle (n := s.idle.get d + 1) hi) (h.going.live.congr rfl rfl rfl rfl rfl rfl) rfl rfl rfl rfl rfl rfl
        (by simp) rfl rfl rfl, hs.last_eq, hs.armed_iff⟩
    · exact ⟨h.congr hb (h.going.live.congr rfl rfl rfl rfl rfl rfl) rfl rfl rfl rfl rfl rfl rfl rfl rfl rfl, hs.last_eq,
        hs.armed_iff⟩
  · exact ⟨h, hs.last_eq, hs.armed_iff⟩

theorem dirFlush_serves (h : s.Serving d m) (hs : s.Counted d) : (dirFlush d s).Serves d m (fun t => t.Steady d) := by
  unfold dirFlush
  split
  next =>
    have hk := rbDrainAll_keeps h.going.live d
    obtain ⟨q, hq⟩ := h.going.live.sound.rings d
    obtain ⟨r, h1, -, h2⟩ := rbDrainAll_spec hq
    have hc : r.count = 0 := by rw [h2]
    rw [h1] at hk ⊢
    rw [Run.bind_ok]
    have h3 : (s.setRb d r).Serving d m :=
      h.congr (h.going.base.congr rfl rfl rfl rfl rfl rfl) hk rfl rfl rfl rfl rfl rfl rfl rfl (by simp) rfl
    refine Run.Ends.bind (P := fun _ t => t.Serving d m ∧ (t.rb.get d).count = 0) ?_ fun _ s2 ⟨h4, h5⟩ => ?_
    · unfold portWrite
      split
      · exact ⟨h3, by simp [hc]⟩
      · exact h3.call ⟨h3.congr (h3.going.base.congr rfl rfl rfl rfl rfl rfl) (h3.going.live.congr rfl rfl rfl rfl rfl rfl)
          rfl rfl rfl rfl rfl rfl rfl rfl rfl rfl, by simp [State.takeDraw, hc]⟩
    · have h6 : ((s2.setIdle d 0).setLastCount d 0).Serving d m :=
        h4.congr ((h4.going.base.setIdle (Nat.zero_le _)).congr rfl rfl rfl rfl rfl rfl)
          (h4.going.live.congr rfl rfl rfl rfl rfl rfl) rfl rfl rfl rfl rfl rfl (by simp) (by simp) rfl rfl
      refine h6.call ?_
      have hb : (((s2.setIdle d 0).setLastCount d 0).takeDraw).Base := h6.going.base.congr rfl rfl rfl rfl rfl rfl
      refine ⟨h6.congr hb.disarm (h6.going.live.congr rfl rfl rfl rfl rfl rfl) rfl rfl rfl rfl rfl rfl rfl rfl rfl (by simp [State.takeDraw]), ?_⟩
      exact ⟨by simpa [State.takeDraw] using h4.threshold_pos, by simp [State.takeDraw, h5], by simp [State.takeDraw, h5]⟩
  next hlt => exact ⟨h, Nat.lt_of_not_le hlt, hs.last_eq, hs.armed_iff⟩

/-- One service of a Normal tick. -/
theorem normalService_served (h : s.Served m) (d : Side) :
    (normalService d s).Ends (fun _ t => t.Served m) State.LoopInv (fun _ => False) := by
  refine Run.Ends.bind (dirPoll_serves ⟨h.going, h.data, h.steady d.opp⟩ (h.steady d)) fun _ s1 ⟨h1, h2⟩ => ?_
  refine Run.Ends.bind (dirSizeCheck_serves h1 h2) fun _ s2 ⟨h3, h4⟩ => ?_
  obtain ⟨h5, h6⟩ := dirExpiry_serves h3 h4
  refine (dirFlush_serves h5 h6).mono (fun _ t ⟨h7, h8⟩ => ⟨h7.going, h7.data, fun e => ?_⟩) (fun _ => id) (fun _ => id)
  rcases Side.eq_or_opp d e with rfl | rfl
  · exact h8
  · exact h7.other

/-! ## Mode transitions -/

/-- While the loop runs or holds, STATUS is 0. -/
theorem status_iff (hst : s.status = { halted := false, unimpl := false, cause := 0 }) (hp : s.phase = .run ∨ s.phase = .sleepWait) :
    (s.status.halted = true ↔ s.phase = .halted) ∧ (s.status.cause ≠ 0 ↔ s.phase = .halted) ∧
      (s.status.unimpl = true ↔ s.phase = .refused) := by
  rcases hp with e | e <;> simp [hst, e]

/-- Between two bodies of a tick, in whatever mode. -/
structure State.Resting (s : State) : Prop where
  going : s.Going
  idle_lt : ∀ d, s.idle.get d < s.params.idleThreshold
  last_eq : ∀ d, s.lastCount.get d = (s.rb.get d).count

/-- The timers and the switched port as they are in Sleep. -/
structure State.Switched (s : State) : Prop where
  disarmed : ∀ d, s.armed.get d = false
  boot : s.speed.get s.params.sleepSpeedSide = s.params.bootBaud

theorem State.Served.resting (h : s.Served m) : s.Resting :=
  ⟨h.going, fun d => (h.steady d).idle_lt, fun d => (h.steady d).last_eq⟩

theorem State.Going.congr (h : s.Going) (hb : t.Base) (hl : t.Live) (ho : t.statusOut = s.statusOut) (hp : t.phase = s.phase) :
    t.Going := ⟨hb, hl, ho.trans h.line_high, hp.trans h.running⟩

theorem State.Going.call (h : s.Going) {P : α → State → Prop} {c : IoCause} {failed : Nat → Env → Env} {done : State → Run α}
    (hd : (done s.takeDraw).Ends P State.LoopInv (fun _ => False)) :
    (call c failed done s).Ends P State.LoopInv (fun _ => False) :=
  call_ends hd fun _ _ _ => h.base.halt (h.live.congrSound _ _)

theorem State.Resting.disarm (h : s.Resting) (d : Side) :
    (timerDisarm d s).Ends (fun _ t => t.Resting ∧ t.armed = s.armed.set d false) State.LoopInv (fun _ => False) := by
  refine h.going.call ?_
  have hb : s.takeDraw.Base := h.going.base.congr rfl rfl rfl rfl rfl rfl
  exact ⟨⟨h.going.congr hb.disarm (h.going.live.congr rfl rfl rfl rfl rfl rfl) rfl rfl, h.idle_lt, h.last_eq⟩, rfl⟩

/-- ENTER_SLEEP (R213). -/
theorem enterSleep_switched (h : s.Resting) :
    (enterSleep s).Ends (fun _ t => t.Resting ∧ t.Switched) State.LoopInv (fun _ => False) := by
  refine Run.Ends.bind (h.disarm .H) fun _ s1 ⟨h1, e1⟩ => ?_
  refine Run.Ends.bind (h1.disarm .P) fun _ s2 ⟨h2, e2⟩ => ?_
  have hoff : ∀ d, s2.armed.get d = false := fun d => by
    rw [e2, e1]
    cases d <;> simp [PerSide.set]
  refine Run.Ends.bind (P := fun _ t => t.Resting ∧ t.Switched) (h2.going.call ⟨⟨?_, h2.idle_lt, h2.last_eq⟩, hoff, by simp [State.takeDraw]⟩) fun _ s3 ⟨h3, h4⟩ =>
    ⟨⟨?_, h3.idle_lt, h3.last_eq⟩, h4.disarmed, h4.boot⟩
  · exact h2.going.congr (h2.going.base.congr rfl rfl rfl rfl rfl rfl) (h2.going.live.congr rfl rfl rfl rfl rfl rfl) rfl rfl
  · exact h3.going.congr (h3.going.base.congr rfl rfl rfl rfl rfl rfl) h3.going.live.clearScratch rfl rfl

/-- One direction of LEAVE_SLEEP's loop (R214). -/
theorem restartRun_steady (h : s.Going) (hm : s.DataMode m) (ha : s.armed.get d = false) :
    (restartRun d s).Ends (fun _ t => t.Going ∧ t.DataMode m ∧ t.Steady d ∧ t.armed.get d.opp = s.armed.get d.opp ∧
      (s.Steady d.opp → t.Steady d.opp)) State.LoopInv (fun _ => False) := by
  have ht : 0 < s.params.idleThreshold := by
    have := h.live.sound.params
    simp only [Config.wf, Bool.and_eq_true, decide_eq_true_eq] at this
    omega
  have h1 : ((s.setIdle d 0).setLastCount d (s.rb.get d).count).Going :=
    h.congr ((h.base.setIdle (Nat.zero_le _)).congr rfl rfl rfl rfl rfl rfl) (h.live.congr rfl rfl rfl rfl rfl rfl) rfl rfl
  unfold restartRun
  simp only
  split
  next hpos =>
    refine h1.call ?_
    have hb : (((s.setIdle d 0).setLastCount d (s.rb.get d).count).takeDraw).Base := h1.base.congr rfl rfl rfl rfl rfl rfl
    refine ⟨h1.congr (hb.arm _) (h1.live.congr rfl rfl rfl rfl rfl rfl) rfl rfl, ⟨hm.mode, hm.no_frame, hm.speeds⟩, ?_,
      by simp [State.takeDraw], fun ho => ho.congr rfl (by simp [State.takeDraw]) (by simp [State.takeDraw]) rfl (by simp [State.takeDraw])⟩
    exact ⟨by simpa [State.takeDraw] using ht, by simp [State.takeDraw], by simpa [State.takeDraw] using hpos⟩
  next hpos =>
    refine ⟨h1, ⟨hm.mode, hm.no_frame, hm.speeds⟩, ⟨by simpa using ht, by simp, ?_⟩, rfl,
      fun ho => ho.congr rfl (by simp) (by simp) rfl rfl⟩
    simp only [State.setLastCount_armed, State.setIdle_armed, State.setLastCount_rb, State.setIdle_rb, ha]
    exact ⟨fun g => absurd g (by decide), fun g => absurd g hpos⟩

/-- LEAVE_SLEEP (R214). -/
theorem leaveSleep_served (h : s.Going) (hoff : ∀ d, s.armed.get d = false) :
    (leaveSleep s).Ends (fun _ t => ∃ m, t.Served m) State.LoopInv (fun _ => False) := by
  refine Run.Ends.bind (P := fun _ t => t.Going ∧ t.armed = s.armed ∧ t.speed.h = uartBaud t.cfg) (h.call ⟨?_, rfl, rfl⟩)
    fun _ s1 ⟨h1, e1, e2⟩ => ?_
  · exact h.congr (h.base.congr rfl rfl rfl rfl rfl rfl) (h.live.congr rfl rfl rfl rfl rfl rfl) rfl rfl
  refine Run.Ends.bind (P := fun _ t => t.Going ∧ t.armed = s.armed ∧ t.speed.h = uartBaud t.cfg ∧ t.speed.p = peerSpeed t.params t.cfg)
    (h1.call ⟨?_, e1, e2, rfl⟩) fun _ s2 ⟨h2, e3, e4, e5⟩ => ?_
  · exact h1.congr (h1.base.congr rfl rfl rfl rfl rfl rfl) (h1.live.congr rfl rfl rfl rfl rfl rfl) rfl rfl
  refine Run.Ends.bind (restartRun_steady (d := .H) (h2.congr (h2.base.congr rfl rfl rfl rfl rfl rfl) h2.live.clearScratch rfl rfl)
    ⟨rfl, rfl, e4, e5⟩ (by rw [State.clearScratch_armed, e3]; exact hoff .H)) fun _ s3 ⟨h3, h4, h5, h6, _⟩ => ?_
  refine (restartRun_steady (d := .P) h3 h4 (h6.trans (by rw [State.clearScratch_armed, e3]; exact hoff .P))).mono
    (fun _ t ⟨g1, g2, g3, _, g5⟩ => ⟨_, g1, g2, fun d => ?_⟩) (fun _ => id) (fun _ => id)
  cases d
  · exact g5 h5
  · exact g3

/-- A tick in mode `m` after MODE_TRANSITION. -/
structure State.Ready (s : State) (m : Mode) : Prop where
  resting : s.Resting
  mode : s.prevMode = m
  normal : m = .normal → s.Served m
  sleep : m = .sleep → s.Switched

theorem State.Base.setPrevMode (h : s.Base) (m : Mode) : (s.setPrevMode m).Base := h.congr rfl rfl rfl rfl rfl rfl

theorem State.Resting.setPrevMode (h : s.Resting) (m : Mode) : (s.setPrevMode m).Resting :=
  ⟨h.going.congr (h.going.base.setPrevMode m) (h.going.live.congr rfl rfl rfl rfl rfl rfl) rfl rfl, h.idle_lt, h.last_eq⟩

theorem State.Served.setPrevMode (h : s.Served m) (n : Mode) : (s.setPrevMode n).Served n :=
  ⟨(h.resting.setPrevMode n).going, ⟨rfl, h.data.no_frame, h.data.speeds⟩, fun d => (h.steady d).congr rfl rfl rfl rfl rfl⟩

/-- MODE_TRANSITION (R212), from Normal or Sleep. -/
theorem modeTransition_ready {m0 m : Mode} (h : s.Ready m0) (hm : m0 = .normal ∨ m0 = .sleep) :
    (modeTransition m s).Ends (fun _ t => t.Ready m) State.LoopInv (fun _ => False) := by
  have hmode := h.mode
  unfold modeTransition
  split
  next he =>
    have e : m = m0 := he.trans hmode
    exact ⟨h.resting, he.symm, fun g => e ▸ h.normal (e ▸ g), fun g => h.sleep (e ▸ g)⟩
  next hne =>
    unfold modeSideEffects
    split
    next hs =>
      have hsw := h.sleep (hmode ▸ hs)
      refine Run.Ends.bind (leaveSleep_served h.resting.going hsw.disarmed) fun _ s1 ⟨_, h1⟩ => ?_
      exact ⟨h1.resting.setPrevMode m, rfl, fun _ => h1.setPrevMode m, fun g => absurd (g.trans hs.symm) hne⟩
    next hs =>
      have hn : m0 = .normal := hm.resolve_right fun g => hs (hmode.trans g)
      split
      next hsl =>
        refine Run.Ends.bind (enterSleep_switched h.resting) fun _ s1 ⟨h1, h2⟩ => ?_
        exact ⟨h1.setPrevMode m, rfl, (fun g => by rw [hsl] at g; cases g), fun _ => ⟨h2.disarmed, h2.boot⟩⟩
      next hsl =>
        exact ⟨h.resting.setPrevMode m, rfl, fun _ => (h.normal hn).setPrevMode m, fun g => absurd g hsl⟩

/-! ## The bodies of the other modes -/

/-- Inside a Sleep step. -/
structure State.Asleep (s : State) : Prop where
  base : s.Base
  idle_lt : ∀ d, s.idle.get d < s.params.idleThreshold
  last_eq : ∀ d, s.lastCount.get d = (s.rb.get d).count
  switched : s.Switched
  mode : s.prevMode = .sleep
  phase : s.phase = .run ∨ s.phase = .sleepWait

namespace State.Asleep

/-- The environment, the record, the status line and the scratch buffer play no part. -/
theorem congr (h : s.Asleep) (ha : t.agenda = s.agenda) (hp : t.params = s.params) (hi : t.idle = s.idle) (hx : t.exp = s.exp)
    (hr : t.armed = s.armed) (hs : t.status = s.status) (hl : t.lastCount = s.lastCount) (hb : t.rb = s.rb)
    (hv : t.speed = s.speed) (hm : t.prevMode = s.prevMode) (hph : t.phase = s.phase) : t.Asleep :=
  ⟨h.base.congr ha hp hi hx hr hs, by rw [hi, hp]; exact h.idle_lt, by rw [hl, hb]; exact h.last_eq,
    ⟨by rw [hr]; exact h.switched.disarmed, by rw [hv, hp]; exact h.switched.boot⟩, hm.trans h.mode, hph ▸ h.phase⟩

theorem setPhase (h : s.Asleep) {p : Phase} (hp : p = .run ∨ p = .sleepWait) : (s.setPhase p).Asleep :=
  ⟨h.base.congr rfl rfl rfl rfl rfl rfl, h.idle_lt, h.last_eq, ⟨h.switched.disarmed, h.switched.boot⟩, h.mode, hp⟩

/-- Between two steps in Sleep the invariant holds. -/
theorem inv (h : s.Asleep) (hs : s.Sound) (ho : s.statusOut = true) : s.LoopInv where
  sound := hs
  agents := h.base.agents
  idle_le := h.base.idle_le
  idle_lt := fun _ => h.idle_lt
  last_eq := fun _ => h.last_eq
  exp_armed := h.base.exp_armed
  armed_iff := fun _ g => by rw [h.mode] at g; cases g
  sleep_disarmed := fun _ _ => h.switched.disarmed
  run_mode := fun _ => .inr h.mode
  wait_mode := fun _ => h.mode
  no_frame := fun _ g => by rw [h.mode] at g; cases g
  data_speeds := fun _ g => by rw [h.mode] at g; cases g
  boot_speed := fun _ _ => h.switched.boot
  line_high := fun _ => ho
  halted_iff := (status_iff h.base.status_eq h.phase).1
  cause_iff := (status_iff h.base.status_eq h.phase).2.1
  unimpl_iff := (status_iff h.base.status_eq h.phase).2.2
  mark := fun g => by rcases h.phase with e | e <;> rw [e] at g <;> cases g
  fresh := fun g => by rcases h.phase with e | e <;> rw [e] at g <;> cases g

/-- A call of the exchange, which leaves the machine asleep and busy. -/
theorem busyCall {fr : List Byte} (h : s.Asleep) (hb : s.Busy fr) {P : α → State → Prop} {c : IoCause}
    {failed : Nat → Env → Env} {done : State → Run α} (hd : (done s.takeDraw).Ends P State.LoopInv (fun _ => False)) :
    (call c failed done s).Ends P State.LoopInv (fun _ => False) :=
  call_ends hd fun n ds _ => h.base.halt (hb.halt (failed n { s.env with draws := ds }) c)

end State.Asleep

theorem cfgInputCommand_asleep (h : s.Asleep) (bytes : List Byte) : (cfgInputCommand bytes s).2.Asleep := by
  unfold cfgInputCommand
  generalize decodeFrame bytes = i
  cases i
  case cmdWrite a b c d e => exact h.congr rfl rfl rfl rfl rfl rfl rfl rfl rfl rfl rfl
  all_goals exact h

/-- EXCHANGE (R233). -/
theorem exchange_asleep {fr : List Byte} (h : s.Asleep) (hb : s.Busy fr) (hle : fr.length ≤ scratchSize) :
    (exchange s).Ends (fun _ t => t.Asleep ∧ t.Live ∧ t.statusOut = true) State.LoopInv (fun _ => False) := by
  rw [exchange, hb.held.readAll hle]
  refine Run.Ends.bind (P := fun _ t => t.Asleep ∧ t.Busy fr) (h.busyCall hb ⟨h.congr rfl rfl rfl rfl rfl rfl rfl rfl rfl rfl rfl,
    hb.congr rfl rfl rfl rfl rfl rfl⟩) fun _ s1 ⟨h1, b1⟩ => ?_
  have h2 := cfgInputCommand_asleep h1 fr
  have b2 := b1.cfgInputCommand fr
  refine Run.Ends.bind (P := fun _ t => t.Asleep ∧ t.Busy fr) ?_ fun _ s3 ⟨h3, b3⟩ => ?_
  · unfold portWrite
    split
    · exact ⟨h2, b2⟩
    · exact h2.busyCall b2 ⟨h2.congr rfl rfl rfl rfl rfl rfl rfl rfl rfl rfl rfl, b2.congr rfl rfl rfl rfl rfl rfl⟩
  refine Run.Ends.bind (P := fun _ t => t.Asleep ∧ t.Busy fr ∧ t.statusOut = true) (h3.busyCall b3
    ⟨h3.congr rfl rfl rfl rfl rfl rfl rfl rfl rfl rfl rfl, b3.congr rfl rfl rfl rfl rfl rfl, rfl⟩) fun _ s4 ⟨h4, b4, e4⟩ => ?_
  exact ⟨h4.congr rfl rfl rfl rfl rfl rfl rfl rfl rfl rfl rfl, b4.done, e4⟩

theorem takeFrameBytes_asleep (h : s.Asleep) (hl : s.Live) (ho : s.statusOut = true) {fr got : List Byte} (hf : s.FrameHeld fr)
    (hop : frameOpen fr = true) (hne : got ≠ []) (hle : got.length ≤ needAfter fr) :
    (takeFrameBytes got s).Ends (fun _ t => t.Asleep ∧ t.Live ∧ t.statusOut = true) State.LoopInv (fun _ => False) := by
  have hk := takeFrameBytes_keeps hl hf hop hne hle
  obtain ⟨m, h1, h2⟩ := takeFrameBytes_spec hf hop hne hle
  rw [h2] at hk ⊢
  have h3 : ({ s with scratch := m, scratchLen := s.scratchLen + got.length } : State).Asleep :=
    h.congr rfl rfl rfl rfl rfl rfl rfl rfl rfl rfl rfl
  split
  next hc =>
    obtain ⟨b, bs, h4, h5⟩ := frame_grows hop hne hle
    refine exchange_asleep h3 (fr := fr ++ got) ⟨hl.sound.params, hl.sound.rings, hl.sound.drops, h1, hc, hl.going⟩ ?_
    rw [h4]
    exact h5.trans (frameLen_le b)
  next hc =>
    rw [if_neg hc] at hk
    exact ⟨h3, hk, ho⟩

/-- SLEEP_STEP (R230): a step that returns leaves the phase RUN. -/
theorem sleepStep_asleep (h : s.Asleep) (hl : s.Live) (ho : s.statusOut = true) :
    (sleepStep s).Ends (fun _ t => t.Asleep ∧ t.Live ∧ t.statusOut = true ∧ t.phase = .run) State.LoopInv (fun _ => False) := by
  have hk := sleepStep_keeps hl
  obtain ⟨fr, hf, hop⟩ := hl.sound.openFrame hl.going
  rw [sleepStep, hf.sleepNeed]
  have hold : (s.setPhase .sleepWait).LoopInv :=
    (h.setPhase (.inr rfl)).inv (hl.sound.congr rfl rfl rfl rfl rfl (.inl hl.going)) ho
  refine Run.Ends.bind (P := fun got t => t.Asleep ∧ t.Live ∧ t.statusOut = true ∧ t.FrameHeld fr ∧ got ≠ [] ∧ got.length ≤ needAfter fr)
    ?_ fun got s1 ⟨h1, l1, o1, f1, n1, e1⟩ => ?_
  · rcases hrx : s.env.rxq.h with _ | ⟨b, bs⟩
    · rw [portReadB_hold _ hrx]; exact hold
    · rw [portReadB_read _ (by simp [hrx])]
      refine call_ends ⟨h.congr rfl rfl rfl rfl rfl rfl rfl rfl rfl rfl rfl, hl.congr rfl rfl rfl rfl rfl rfl, ho,
        hf.congr rfl rfl, ?_, ?_⟩ fun n ds _ => h.base.halt (hl.congrSound _ _)
      · obtain ⟨k, hk⟩ : ∃ k, needAfter fr = k + 1 := ⟨needAfter fr - 1, by have := needAfter_pos hop; omega⟩
        simp [Env.rxTake, hrx, hk]
      · simp [Env.rxTake]
  refine Run.Ends.bind (takeFrameBytes_asleep h1 l1 o1 f1 hop n1 e1) fun _ s2 ⟨h2, l2, o2⟩ => ?_
  refine ⟨?_, resumed_live l2, ?_, ?_⟩
  · unfold State.resumed
    split
    · exact h2.setPhase (.inl rfl)
    · exact h2
  · unfold State.resumed
    split <;> exact o2
  · unfold State.resumed
    split
    · rfl
    next hne => exact h2.phase.resolve_right hne

/-- UNIMPL_STEP (R236). -/
theorem unimplStep_inv {m : UnimplMode} (h : s.Ready (UnimplMode.toMode m)) : (s.refuseMode m).LoopInv := by
  have hm := h.mode
  have hst := h.resting.going.base.status_eq
  have hnl := h.resting.going.live
  exact {
    sound := hnl.sound.congr rfl rfl rfl rfl rfl (.inl hnl.going)
    agents := h.resting.going.base.agents
    idle_le := h.resting.going.base.idle_le
    idle_lt := fun _ => h.resting.idle_lt
    last_eq := fun _ => h.resting.last_eq
    exp_armed := h.resting.going.base.exp_armed
    armed_iff := fun g => by cases g
    sleep_disarmed := fun g => by rcases g with g | g <;> cases g
    run_mode := fun g => by cases g
    wait_mode := fun g => by cases g
    no_frame := fun g => by cases g
    data_speeds := fun g => by cases g
    boot_speed := fun g => by rcases g with g | g <;> cases g
    line_high := fun _ => h.resting.going.line_high
    halted_iff := ⟨fun g => by simp [State.refuseMode, hst] at g, fun g => by cases g⟩
    cause_iff := ⟨fun g => by simp [State.refuseMode, hst] at g, fun g => by cases g⟩
    unimpl_iff := ⟨fun _ => rfl, fun _ => rfl⟩
    mark := fun _ => ⟨m, rfl, hm⟩
    fresh := fun g => by cases g }

/-- The end of a Normal tick. -/
theorem State.Served.inv (h : s.Served .normal) : s.LoopInv := by
  have hm := h.data.mode
  have hp := h.going.running
  have hst := h.going.base.status_eq
  exact {
    sound := h.going.live.sound
    agents := h.going.base.agents
    idle_le := h.going.base.idle_le
    idle_lt := fun _ => h.resting.idle_lt
    last_eq := fun _ => h.resting.last_eq
    exp_armed := h.going.base.exp_armed
    armed_iff := fun _ _ d => (h.steady d).armed_iff
    sleep_disarmed := fun _ g => by rw [hm] at g; cases g
    run_mode := fun _ => .inl hm
    wait_mode := fun g => by rw [hp] at g; cases g
    no_frame := fun _ _ => h.data.no_frame
    data_speeds := fun _ _ => h.data.speeds
    boot_speed := fun _ g => by rw [hm] at g; cases g
    line_high := fun _ => h.going.line_high
    halted_iff := (status_iff hst (.inl hp)).1
    cause_iff := (status_iff hst (.inl hp)).2.1
    unimpl_iff := (status_iff hst (.inl hp)).2.2
    mark := fun g => by rw [hp] at g; cases g
    fresh := fun g => by rw [hp] at g; cases g }

theorem setPhase_self (h : s.phase = .run) : s.setPhase .run = s := by rw [State.setPhase, ← h]

/-! ## The steps of the control loop -/

/-- A state of the agents' own run that may tick. -/
theorem State.LoopInv.ready (h : s.LoopInv) (hp : s.phase = .run) :
    ∃ m, s.Ready m ∧ (m = .normal ∨ m = .sleep) := by
  have hne : s.phase ≠ .halted := by simp [hp]
  have hst : s.status = { halted := false, unimpl := false, cause := 0 } := by
    have h1 := h.halted_iff
    have h2 := h.cause_iff
    have h3 := h.unimpl_iff
    cases hs : s.status
    simp_all
  have hr : s.Resting := ⟨⟨⟨h.agents, h.idle_le, h.exp_armed, hst⟩, ⟨h.sound, hne⟩, h.line_high (.inl hp), hp⟩, h.idle_lt hne, h.last_eq hne⟩
  rcases h.run_mode hp with hm | hm
  · refine ⟨.normal, ⟨hr, hm, fun _ => ⟨hr.going, ⟨hm, h.no_frame hp hm, h.data_speeds hp hm⟩, fun d => ?_⟩, fun g => by cases g⟩, .inl rfl⟩
    exact ⟨h.idle_lt hne d, h.last_eq hne d, h.armed_iff hp hm d⟩
  · exact ⟨.sleep, ⟨hr, hm, (fun g => by cases g), fun _ => ⟨h.sleep_disarmed (.inl hp) hm, h.boot_speed (.inl hp) hm⟩⟩, .inr rfl⟩

theorem State.Ready.asleep (h : s.Ready .sleep) : s.Asleep :=
  ⟨h.resting.going.base, h.resting.idle_lt, h.resting.last_eq, h.sleep rfl, h.mode, .inl h.resting.going.running⟩

/-- Every end of the body of a tick: the invariant holds, and a body that returns leaves the phase RUN. -/
theorem tickBody_inv (h : s.Ready m) :
    (tickBody m s).Ends (fun _ t => t.LoopInv ∧ t.phase = .run) State.LoopInv (fun _ => False) := by
  cases m
  · refine Run.Ends.bind (normalService_served (h.normal rfl) .H) fun _ s1 h1 => ?_
    exact (normalService_served h1 .P).mono (fun _ t h2 => ⟨h2.inv, h2.going.running⟩) (fun _ => id) (fun _ => id)
  · exact unimplStep_inv (m := .wakeUp) h
  · exact unimplStep_inv (m := .powerSaving) h
  · exact (sleepStep_asleep h.asleep h.resting.going.live h.resting.going.line_high).mono
      (fun _ t ⟨h1, h2, h3, h4⟩ => ⟨h1.inv h2.sound h3, h4⟩) (fun _ => id) (fun _ => id)

/-- TICK (R240). -/
theorem tick_inv (h : s.LoopInv) (hp : s.phase = .run) :
    (tick s).Ends (fun _ => State.LoopInv) State.LoopInv (fun _ => False) := by
  obtain ⟨m0, hr, hm⟩ := h.ready hp
  have draw {s : State} (g : s.Ready m0) : s.takeDraw.Ready m0 :=
    have hr : s.takeDraw.Resting := ⟨g.resting.going.congr (g.resting.going.base.congr rfl rfl rfl rfl rfl rfl)
      (g.resting.going.live.congr rfl rfl rfl rfl rfl rfl) rfl rfl, g.resting.idle_lt, g.resting.last_eq⟩
    ⟨hr, g.mode, fun e => ⟨hr.going, ⟨(g.normal e).data.mode, (g.normal e).data.no_frame, (g.normal e).data.speeds⟩,
      fun d => ((g.normal e).steady d).congr rfl rfl rfl rfl rfl⟩, fun e => ⟨(g.sleep e).disarmed, (g.sleep e).boot⟩⟩
  refine Run.Ends.bind (hr.resting.going.call (P := fun _ t => t.Ready m0) (draw hr)) fun b0 s1 h1 => ?_
  refine Run.Ends.bind (h1.resting.going.call (P := fun _ t => t.Ready m0) (draw h1)) fun b1 s2 h2 => ?_
  refine Run.Ends.bind (modeTransition_ready h2 hm) fun _ s3 h3 => ?_
  refine Run.Ends.bind (tickBody_inv h3) fun _ s4 ⟨h4, e4⟩ => ?_
  rw [setPhase_self e4]
  exact h4

/-- STARTUP (R301). -/
theorem startup_inv (h : s.LoopInv) (hp : s.phase = .startup) :
    (startup s).Ends (fun _ => State.LoopInv) State.LoopInv (fun _ => False) := by
  obtain ⟨hc, hm, hn, hd⟩ := h.fresh hp
  have hne : s.phase ≠ .halted := by simp [hp]
  have hst : s.status = { halted := false, unimpl := false, cause := 0 } := by
    have h1 := h.halted_iff
    have h2 := h.cause_iff
    have h3 := h.unimpl_iff
    cases hs : s.status
    simp_all
  have hb : s.Base := ⟨h.agents, h.idle_le, h.exp_armed, hst⟩
  have hl : s.Live := ⟨h.sound, hne⟩
  -- the state while STARTUP runs: only the speeds, the status line and the environment differ
  have key : ∀ t : State, t = { s with speed := t.speed, statusOut := t.statusOut, env := t.env } → t.Base ∧ t.Live := fun t e => by
    rw [e]
    exact ⟨hb.congr rfl rfl rfl rfl rfl rfl, hl.congr rfl rfl rfl rfl rfl rfl⟩
  have stop {t : State} (e : t = { s with speed := t.speed, statusOut := t.statusOut, env := t.env }) (env : Env) (c : IoCause) :
      ((t.setEnv env).ioFailure c).LoopInv :=
    (key t e).1.halt ((key t e).2.congrSound _ _)
  refine Run.Ends.bind (P := fun _ t => t = { s with speed := t.speed, statusOut := t.statusOut, env := t.env } ∧ t.speed.h = uartBaud s.cfg)
    (call_ends ⟨rfl, rfl⟩ fun _ _ _ => stop rfl _ _) fun _ s1 ⟨e1, v1⟩ => ?_
  refine Run.Ends.bind (P := fun _ t => t = { s with speed := t.speed, statusOut := t.statusOut, env := t.env } ∧
      t.speed.h = uartBaud s.cfg ∧ t.speed.p = peerSpeed s.params s.cfg)
    (call_ends ⟨by rw [e1]; rfl, v1, by rw [e1]; rfl⟩ fun _ _ _ => stop e1 _ _) fun _ s2 ⟨e2, v2⟩ => ?_
  refine Run.Ends.bind (P := fun _ t => t = { s with speed := t.speed, statusOut := t.statusOut, env := t.env } ∧
      (t.speed.h = uartBaud s.cfg ∧ t.speed.p = peerSpeed s.params s.cfg) ∧ t.statusOut = true)
    (call_ends ⟨by rw [e2]; rfl, v2, rfl⟩ fun _ _ _ => stop e2 _ _) fun _ s3 ⟨e3, v3, o3⟩ => ?_
  refine Run.Ends.bind (P := fun _ t => t = { s with speed := t.speed, statusOut := t.statusOut, env := t.env } ∧
      (t.speed.h = uartBaud s.cfg ∧ t.speed.p = peerSpeed s.params s.cfg) ∧ t.statusOut = true) ?_ fun _ s4 ⟨e4, v4, o4⟩ => ?_
  · unfold portWrite
    split
    · exact ⟨e3, v3, o3⟩
    · exact call_ends ⟨by rw [e3]; rfl, v3, o3⟩ fun _ _ _ => stop e3 _ _
  · have hb4 := (key s4 e4).1
    have hl4 := (key s4 e4).2
    have hl5 : (s4.setPhase .run).Live := ⟨hl4.sound.congr rfl rfl rfl rfl rfl (.inl hl4.going), by simp⟩
    refine State.Served.inv ⟨⟨hb4.congr rfl rfl rfl rfl rfl rfl, hl5, o4, rfl⟩, ⟨?_, ?_, ?_⟩, fun d => ⟨?_, ?_, ?_⟩⟩
    · rw [e4]; exact hm
    · rw [e4]; exact hn
    · have : s4.cfg = s.cfg := by rw [e4]
      have h2 : s4.params = s.params := by rw [e4]
      simp only [State.setPhase_speed, State.setPhase_cfg, State.setPhase_params, this, h2]
      exact v4
    · rw [e4]; exact h.idle_lt hne d
    · rw [e4]; exact h.last_eq hne d
    · rw [e4]
      simp [(hd d).1, (hd d).2]

end Sys2Proof.Machine
end

