-- ==== Sys2Proof/Laws/Phases.lean ====
section
/-! SUPPORT. How the operations of the control loop leave the phase (10_state.md R58, 60_exceptions.md R263): an operation that
returns leaves it as it was, and one that ends the tick leaves HALTED. Only the Sleep read may end in SLEEP_WAIT, and only
UNIMPL_STEP in REFUSED. Also LEAVE_SLEEP's loop when its calls succeed. -/

namespace Sys2Proof.Machine

variable {α β : Type} {s : State}

/-- Returns in phase `p`, or ends the tick in HALTED. -/
def Run.Paced (r : Run α) (p : Phase) : Prop :=
  r.Ends (fun _ t => t.phase = p) (fun t => t.phase = .halted) (fun _ => True)

theorem Run.Paced.bind {r : Run α} {k : α → State → Run β} {p : Phase} (h : r.Paced p)
    (hk : ∀ a t, t.phase = p → (k a t).Paced p) : (r.bind k).Paced p := Run.Ends.bind h hk

/-- For a step of its own that answers a next state, the phase says whether it returned. -/
theorem Run.Paced.of_finish {r : Run Unit} {p : Phase} {t : State} (h : r.Paced p) (hp : p ≠ .halted) (ht : r.finish = .next t) :
    (t.phase = .halted → r = .ended t) ∧ (t.phase ≠ .halted → r = .ok () t ∧ t.phase = p) := by
  rcases Run.finish_eq_next ht with rfl | rfl
  · exact ⟨fun g => absurd (Eq.trans (Eq.symm h) g) hp, fun _ => ⟨rfl, h⟩⟩
  · exact ⟨fun _ => rfl, fun g => absurd h g⟩

theorem call_paced {c : IoCause} {failed : Nat → Env → Env} {done : State → Run α} (hd : (done s.takeDraw).Paced s.phase) :
    (call c failed done s).Paced s.phase := call_ends hd fun _ _ _ => rfl

theorem portReadNB_paced (sd : Side) (n : Nat) : (portReadNB sd n s).Paced s.phase := call_paced rfl

theorem portSetSpeed_paced (sd : Side) (v : Nat) : (portSetSpeed sd v s).Paced s.phase := call_paced rfl

theorem lineSet_paced (v : Bool) : (lineSet v s).Paced s.phase := call_paced rfl

theorem lineReadMs0_paced : (lineReadMs0 s).Paced s.phase := call_paced rfl

theorem lineReadMs1_paced : (lineReadMs1 s).Paced s.phase := call_paced rfl

theorem timerArm_paced (d : Side) : (timerArm d s).Paced s.phase := call_paced rfl

theorem timerDisarm_paced (d : Side) : (timerDisarm d s).Paced s.phase := call_paced rfl

theorem portWrite_paced (sd : Side) (bytes : List Byte) : (portWrite sd bytes s).Paced s.phase := by
  unfold portWrite
  split
  · rfl
  · exact call_paced rfl

theorem rbEnqueue_paced (d : Side) (b : Byte) : (rbEnqueue d b s).Paced s.phase := by
  unfold rbEnqueue onRing
  split
  · rfl
  · trivial

theorem rbDrainAll_paced (d : Side) : (rbDrainAll d s).Paced s.phase := by
  unfold rbDrainAll onRing
  split
  · rfl
  · trivial

theorem enqueueAll_paced (d : Side) (bytes : List Byte) : (enqueueAll d bytes s).Paced s.phase := by
  induction bytes generalizing s with
  | nil => rfl
  | cons b bs ih =>
    refine (rbEnqueue_paced d b).bind fun ok t ht => ?_
    have := ih (s := if ok then t else t.setDrop d (nextDrop t.params (t.drop.get d)))
    rwa [show (if ok then t else t.setDrop d (nextDrop t.params (t.drop.get d))).phase = s.phase by
      cases ok <;> simpa using ht] at this

theorem dirPoll_paced (d : Side) : (dirPoll d s).Paced s.phase :=
  (portReadNB_paced d _).bind fun bytes t ht => ht ▸ enqueueAll_paced (s := t.setArrived d bytes.length) d bytes

theorem dirSizeCheck_paced (d : Side) : (dirSizeCheck d s).Paced s.phase := by
  unfold dirSizeCheck
  split
  · exact call_paced rfl
  · rfl

@[simp] theorem dirExpiry_phase (d : Side) : (dirExpiry d s).phase = s.phase := by
  unfold dirExpiry
  split
  · split <;> rfl
  · rfl

theorem dirFlush_paced (d : Side) : (dirFlush d s).Paced s.phase := by
  unfold dirFlush
  split
  · refine (rbDrainAll_paced d).bind fun burst t ht => ?_
    rw [← ht]
    refine (portWrite_paced d.opp burst).bind fun _ u hu => ?_
    rw [← hu]
    exact timerDisarm_paced (s := (u.setIdle d 0).setLastCount d 0) d
  · rfl

theorem normalService_paced (d : Side) : (normalService d s).Paced s.phase := by
  refine (dirPoll_paced d).bind fun _ t ht => ?_
  rw [← ht]
  refine (dirSizeCheck_paced d).bind fun _ u hu => ?_
  rw [← hu]
  simpa using dirFlush_paced (s := dirExpiry d u) d

theorem enterSleep_paced : (enterSleep s).Paced s.phase := by
  refine (timerDisarm_paced .H).bind fun _ t ht => ?_
  rw [← ht]
  refine (timerDisarm_paced .P).bind fun _ u hu => ?_
  rw [← hu]
  exact (portSetSpeed_paced _ _).bind fun _ v hv => hv

theorem restartRun_paced (d : Side) : (restartRun d s).Paced s.phase := by
  unfold restartRun
  simp only
  split
  · exact timerArm_paced (s := (s.setIdle d 0).setLastCount d (s.rb.get d).count) d
  · rfl

theorem leaveSleep_paced : (leaveSleep s).Paced s.phase := by
  refine (portSetSpeed_paced _ _).bind fun _ t ht => ?_
  rw [← ht]
  refine (portSetSpeed_paced _ _).bind fun _ u hu => ?_
  rw [← hu]
  refine (restartRun_paced (s := u.clearScratch) .H).bind fun _ v hv => ?_
  exact Eq.trans hv rfl ▸ restartRun_paced .P

theorem modeTransition_paced (mode : Mode) : (modeTransition mode s).Paced s.phase := by
  unfold modeTransition
  split
  · rfl
  · refine Run.Paced.bind ?_ fun _ t ht => ht
    unfold modeSideEffects
    split
    · exact leaveSleep_paced
    · split
      · exact enterSleep_paced
      · rfl

@[simp] theorem cfgInputCommand_phase (bytes : List Byte) : (cfgInputCommand bytes s).2.phase = s.phase := by
  unfold cfgInputCommand
  generalize decodeFrame bytes = i
  cases i <;> rfl

theorem exchange_paced : (exchange s).Paced s.phase := by
  unfold exchange
  split
  · trivial
  · next frame _ =>
    refine (lineSet_paced false).bind fun _ t ht => ?_
    rw [← ht, ← cfgInputCommand_phase (s := t) frame]
    refine (portWrite_paced _ _).bind fun _ u hu => ?_
    rw [← hu]
    exact (lineSet_paced true).bind fun _ v hv => hv

theorem takeFrameBytes_paced (bytes : List Byte) : (takeFrameBytes bytes s).Paced s.phase := by
  unfold takeFrameBytes
  split
  · trivial
  · next m _ =>
    split
    · trivial
    · simp only
      split
      · exact exchange_paced (s := { s with scratch := m, scratchLen := s.scratchLen + bytes.length })
      · rfl

/-- One direction of LEAVE_SLEEP's loop when its calls succeed (R214). -/
theorem restartRun_ok (h : s.CallsSucceed) (d : Side) :
    ∃ t, restartRun d s = .ok () t ∧ t.CallsSucceed ∧
      t = { s with
        idle := s.idle.set d 0
        lastCount := s.lastCount.set d (s.rb.get d).count
        armed := if 0 < (s.rb.get d).count then s.armed.set d true else s.armed
        exp := if 0 < (s.rb.get d).count then s.exp.set d false else s.exp
        period := if 0 < (s.rb.get d).count then s.period.set d (s.periodFor d) else s.period
        env := { s.env with draws := t.env.draws } } := by
  unfold restartRun
  by_cases hpos : 0 < (s.rb.get d).count
  · simp only [hpos, if_true]
    refine ⟨_, timerArm_ok (by exact h.of_eq rfl) d, h.of_tail rfl, ?_⟩
    simp [State.takeDraw, State.setEnv, State.arm, State.setIdle, State.setLastCount, State.periodFor]
  · simp only [hpos, if_false]
    exact ⟨_, rfl, h.of_eq rfl, rfl⟩

end Sys2Proof.Machine
end

