-- ==== Sys2Proof/Tests/Slice0.lean ====
section
/-! SUPPORT. Tests: the syntax check refuses ill-formed terms, every constructor decodes from a word written out from the spec's
encoding of it, single steps agree with the vectors of 95_test_vectors.md, and the hypotheses of every obligation are met. -/

namespace Sys2Proof.Tests

open Sys2Proof Sys2Proof.Machine

/-! ## WellFormed smoke tests -/

/-- A write frame is no CMD_INVALID (R113, R114). -/
theorem test_wf_refuses_write_frame : (Instr.cmdInvalid [0xC0, 0x12, 0x34, 0x3D, 0x06, 0x44]).wellFormed = false := by decide

/-- The read frame is no CMD_INVALID (R113, R114). -/
theorem test_wf_refuses_read_frame : (Instr.cmdInvalid [0xC1, 0xC1, 0xC1]).wellFormed = false := by decide

/-- Frames that are neither are. -/
theorem test_wf_accepts_invalid_frames :
    (Instr.cmdInvalid [0xC1, 0xC1, 0xC0]).wellFormed = true ∧ (Instr.cmdInvalid [0xC0, 0xC1, 0xC1]).wellFormed = true ∧
      (Instr.cmdInvalid []).wellFormed = true := by decide

/-! ## Decoding: words written out from the encodings of R111, R112, R127 and R128 -/

/-- `W6`: byte 0 in bits 47:40 is 0xC0, then a, b, c, d, e (R111). -/
theorem test_decode_cmd_write :
    decodeTableWord 48 0b110000000001001000110100001111010000011001000100 = some (.cmdWrite 0x12 0x34 0x3D 0x06 0x44) := by decide

/-- `R3` (R112), and a frame that differs from it in one bit of its last byte (V15). -/
theorem test_decode_cmd_read :
    decodeTableWord 24 0b110000011100000111000001 = some .cmdRead ∧
      decodeTableWord 24 0b110000011100000111000000 = some (.cmdInvalid [0xC1, 0xC1, 0xC0]) := by decide

/-- Sequences of every other length or first byte (R114). -/
theorem test_decode_invalid_frames :
    decode (.frame []) = .ok (.cmdInvalid []) ∧ decode (.frame [0xC2]) = .ok (.cmdInvalid [0xC2]) ∧
      decode (.frame [0xC1, 0xC1, 0xC1, 0xC1, 0xC1, 0xC1]) = .ok (.cmdInvalid [0xC1, 0xC1, 0xC1, 0xC1, 0xC1, 0xC1]) ∧
      decode (.frame [0xC0, 0x00, 0x00, 0x1A, 0x17, 0x44, 0x00]) = .ok (.cmdInvalid [0xC0, 0x00, 0x00, 0x1A, 0x17, 0x44, 0x00]) := by
  decide

/-- Unit 000, operations 0 to 3, direction in bit 0 (R127, R128). -/
theorem test_decode_ring_buffer :
    decode (.op 0b00000000 [0x41]) = .ok (.rbEnqueue .H 0x41) ∧ decode (.op 0b00000001 [0x99]) = .ok (.rbEnqueue .P 0x99) ∧
      decodeTableWord 8 0b00000010 = some (.rbDequeue .H) ∧ decodeTableWord 8 0b00000101 = some (.rbDrainAll .P) ∧
      decodeTableWord 8 0b00000110 = some (.rbAvailable .H) := by decide

/-- Unit 001, operations 0 to 4, bit 0 clear. -/
theorem test_decode_config_store :
    decode (.op 0b00100000 [1, 2, 3]) = .ok (.cfgSetParams [1, 2, 3]) ∧ decodeTableWord 8 0b00100010 = some .cfgGetParams ∧
      decode (.op 0b00100100 [0xC2]) = .ok (.cfgInputCommand [0xC2]) ∧ decodeTableWord 8 0b00100110 = some .cfgAirRate ∧
      decodeTableWord 8 0b00101000 = some .cfgUartBaud := by decide

/-- Unit 010, operations 0 to 3; the operand bytes follow R126's codes. -/
theorem test_decode_mode_multiplexer :
    decode (.op 0b01000000 [0b01]) = .ok (.modeDecode true false) ∧ decode (.op 0b01000000 [0b10]) = .ok (.modeDecode false true) ∧
      decode (.op 0b01000010 [3]) = .ok (.modeTransition .sleep) ∧ decodeTableWord 8 0b01000100 = some .enterSleep ∧
      decodeTableWord 8 0b01000110 = some .leaveSleep := by decide

/-- Unit 010, operations 4 to 8, with a direction. -/
theorem test_decode_coalescer :
    decodeTableWord 8 0b01001000 = some (.dirPoll .H) ∧ decodeTableWord 8 0b01001011 = some (.dirSizeCheck .P) ∧
      decodeTableWord 8 0b01001100 = some (.dirExpiry .H) ∧ decodeTableWord 8 0b01001111 = some (.dirFlush .P) ∧
      decodeTableWord 8 0b01010001 = some (.normalService .P) := by decide

/-- Unit 010, operations 9 to 12. -/
theorem test_decode_control_loop :
    decodeTableWord 8 0b01010010 = some .sleepStep ∧ decode (.op 0b01010100 [1]) = .ok (.unimplStep .powerSaving) ∧
      decodeTableWord 8 0b01010110 = some .tick ∧ decodeTableWord 8 0b01011000 = some .startup := by decide

/-- Unit 011 (R268, R269, R300). -/
theorem test_decode_events :
    decodeTableWord 8 0b01100001 = some (.evTimerExpire .P) ∧ decode (.op 0b01100010 [0x41]) = .ok (.evRxByte .H 0x41) ∧
      decodeTableWord 8 0b01100100 = some .evReset := by decide

/-- Reserved: bit 0 set where no direction is taken, an unlisted operation, units 100 to 111 (R129). -/
theorem test_decode_reserved :
    decode (.op 0b01010111 []) = .error (.reservedCode 0x57) ∧ decode (.op 0b00001000 []) = .error (.reservedCode 0x08) ∧
      decode (.op 0b10000000 []) = .error (.reservedCode 0x80) ∧ decodeTableWord 8 0b11111111 = none := by decide

/-! ## Small states -/

/-- The next state, if there is one. -/
def nextOf (o : Host.Outcome State Fault Refusal) : Option State :=
  match o with
  | .next s => some s
  | .fault _ => none
  | .refused _ => none

/-- S0 of 95_test_vectors.md, but with nothing in the log. -/
def s0 : State := { State.reset with phase := .run, statusOut := true }

/-- `s0` with other levels on the lines. -/
def s0Lines (ms0 ms1 : Bool) : State := { s0 with env := { s0.env with ms0 := ms0, ms1 := ms1 } }

/-- Two bytes queued at the start of the array. -/
def ring2 : Ring := { buf := [(0, 0x31), (1, 0x32)], rd := 0, wr := 2, count := 2 }

/-- A full ring of capacity 4. -/
def ring4 : Ring := { buf := [(0, 0x01), (1, 0x02), (2, 0x03), (3, 0x04)], rd := 0, wr := 0, count := 4 }

/-- The state after V50: 31 32 in `rb[H]`, timer H armed. -/
def s50 : State :=
  { s0 with rb := { h := ring2, p := Ring.empty }, lastCount := { h := 2, p := 0 }, armed := { h := true, p := false } }

/-- `s50` with two bytes queued on P as well. -/
def s50b : State := { s50 with rb := .both ring2, lastCount := .both 2, armed := .both true }

/-- `s50` with two expiries counted and a third pending: the flush of V52 is due. -/
def s52 : State := { s50 with idle := { h := 2, p := 0 }, exp := { h := true, p := false } }

/-- Sleep, with bytes pending on H. -/
def sSleep (rx : List Byte) : State :=
  { s0 with prevMode := .sleep, env := { s0.env with ms0 := true, ms1 := true, rxq := { h := rx, p := [] } } }

/-- `sSleep` with the frame bytes `C0` read, as after V72. -/
def sFrame (rx : List Byte) : State := { sSleep rx with scratch := [(0, 0xC0)], scratchLen := 1 }

/-- A state with other draws waiting. -/
def withDraws (s : State) (ds : List Draw) : State := s.setEnv { s.env with draws := ds }

/-! ## Single steps: ring buffer (T6) -/

/-- V1: an empty buffer takes 41 at slot 0. -/
theorem test_rb_enqueue_v1 :
    (nextOf (exec (.rbEnqueue .H 0x41) s0)).map (fun t => (t.result, t.rb.h)) =
      some (.bit true, { buf := [(0, 0x41)], rd := 0, wr := 1, count := 1 }) := by decide

/-- V2: a full buffer rejects the newest byte and does not count it (R150: its caller does). -/
theorem test_rb_enqueue_full_v2 :
    (nextOf (exec (.rbEnqueue .P 0x99) (s0.setRb .P ring4))).map (fun t => (t.result, t.rb.p, t.drop.p)) =
      some (.bit false, ring4, 0) := by decide

/-- V4, its second operation: the write wraps to slot 0. -/
theorem test_rb_enqueue_wraps_v4 :
    (nextOf (exec (.rbEnqueue .H 0x02) (s0.setRb .H { buf := [(3, 0x01)], rd := 3, wr := 0, count := 1 }))).map (fun t => t.rb.h) =
      some { buf := [(0, 0x02), (3, 0x01)], rd := 3, wr := 1, count := 2 } := by decide

/-- V9: RING_CAP = 1 holds one byte. -/
theorem test_rb_enqueue_cap_one_v9 :
    (nextOf (exec (.rbEnqueue .H 0x0B) { s0.setRb .H { buf := [(0, 0x0A)], rd := 0, wr := 0, count := 1 } with
      params := { Config.reference with ringCap := 1 } })).map (fun t => (t.result, t.rb.h.count)) = some (.bit false, 1) := by decide

/-- E2: the oldest byte leaves. -/
theorem test_rb_dequeue_e2 :
    (nextOf (exec (.rbDequeue .H) (s0.setRb .H { ring4 with buf := [(0, 0x10), (1, 0x11), (2, 0x12), (3, 0x13)] }))).map
      (fun t => (t.result, t.rb.h.rd, t.rb.h.count, t.rb.h.wr)) = some (.optByte (some 0x10), 1, 3, 0) := by decide

/-- A slot that leaves the live window holds no value any more (R91; 93 I1): a dequeue clears the one, a drain clears all. -/
theorem test_left_slots_hold_no_value :
    (nextOf (exec (.rbDequeue .H) (s0.setRb .H ring2))).map (fun t => t.rb.h.buf) = some [(1, 0x32)] ∧
      (nextOf (exec (.rbDrainAll .H) (s0.setRb .H ring2))).map (fun t => t.rb.h.buf) = some [] := by decide

/-- V3: nothing leaves an empty buffer. -/
theorem test_rb_dequeue_empty_v3 :
    (nextOf (exec (.rbDequeue .H) (s0.setRb .H { buf := [], rd := 2, wr := 2, count := 0 }))).map (fun t => (t.result, t.rb.h)) =
      some (.optByte none, { buf := [], rd := 2, wr := 2, count := 0 }) := by decide

/-- V7: the drain wraps. -/
theorem test_rb_drain_all_v7 :
    (nextOf (exec (.rbDrainAll .H)
      (s0.setRb .H { buf := [(0, 0x11), (1, 0x12), (3, 0x10)], rd := 3, wr := 2, count := 3 }))).map
        (fun t => (t.result, t.rb.h.rd, t.rb.h.wr, t.rb.h.count)) = some (.byteSeq [0x10, 0x11, 0x12], 2, 2, 0) := by decide

/-- V8: a full buffer of capacity 4. -/
theorem test_rb_available_v8 :
    (nextOf (exec (.rbAvailable .P) (s0.setRb .P ring4))).map (fun t => t.result) = some (.number 4) := by decide

/-! ## Configuration store (T7, T8) -/

/-- V11: no check of the preamble. -/
theorem test_cfg_set_params_v11 :
    (nextOf (exec (.cfgSetParams [0xAA, 0xBB, 0xCC, 0xDD, 0xEE, 0xFF]) s0)).map (fun t => recordBytes t.cfg) =
      some [0xAA, 0xBB, 0xCC, 0xDD, 0xEE, 0xFF] := by decide

/-- V12: five bytes are no record. -/
theorem test_cfg_set_params_short_v12 :
    (nextOf (exec (.cfgSetParams [0xC0, 0x01, 0x02, 0x03, 0x04]) s0)).map (fun t => t.cfg) = some referenceRecord := by decide

/-- R36, R171: the record after reset. -/
theorem test_cfg_get_params :
    (nextOf (exec .cfgGetParams s0)).map (fun t => t.result) = some (.byteSeq [0xC0, 0x00, 0x00, 0x1A, 0x17, 0x44]) := by decide

/-- V21 to V32: every class, and bits 7:6 ignored. -/
theorem test_air_rates_t8 :
    ([0x00, 0x09, 0x12, 0x1B, 0x24, 0x2D, 0x36, 0x3F, 0x1A, 0xC0, 0xFF, 0x3D] : List Byte).map
      (fun b => (nextOf (exec .cfgAirRate (s0.setCfg { referenceRecord with speed := b }))).map (fun t => t.result)) =
    ([300, 1200, 2400, 4800, 9600, 19200, 19200, 19200, 2400, 300, 19200, 19200] : List Nat).map (fun n => some (.number n)) := by
  decide

/-- V21 to V32. -/
theorem test_uart_bauds_t8 :
    ([0x00, 0x09, 0x12, 0x1B, 0x24, 0x2D, 0x36, 0x3F, 0x1A, 0xC0, 0xFF, 0x3D] : List Byte).map
      (fun b => (nextOf (exec .cfgUartBaud (s0.setCfg { referenceRecord with speed := b }))).map (fun t => t.result)) =
    ([1200, 2400, 4800, 9600, 19200, 38400, 57600, 115200, 9600, 1200, 115200, 115200] : List Nat).map (fun n => some (.number n)) := by
  decide

/-- V13: the response is OK, and no port speed moves (R316). -/
theorem test_cmd_write_v13 :
    (nextOf (exec (.cmdWrite 0xFF 0xFF 0xFF 0xFF 0xFF) s0)).map (fun t => (t.result, recordBytes t.cfg, t.speed)) =
      some (.byteSeq [0x4F, 0x4B], [0xC0, 0xFF, 0xFF, 0xFF, 0xFF, 0xFF], { h := 9600, p := 2400 }) := by decide

/-- T2 (b): the dump of the record after reset. -/
theorem test_cmd_read_t2 :
    (nextOf (exec .cmdRead s0)).map (fun t => t.result) =
      some (.byteSeq [0x43, 0x30, 0x20, 0x30, 0x30, 0x20, 0x30, 0x30, 0x20, 0x31, 0x41, 0x20, 0x31, 0x37, 0x20, 0x34, 0x34]) := by decide

/-- V14: letters are uppercase. -/
theorem test_cmd_read_v14 :
    (nextOf (exec .cmdRead (s0.setCfg { preamble := 0xC0, addrHigh := 0xFF, addrLow := 0xFF, speed := 0xFF, channel := 0xFF, option := 0xFF }))).map
      (fun t => t.result) =
      some (.byteSeq [0x43, 0x30, 0x20, 0x46, 0x46, 0x20, 0x46, 0x46, 0x20, 0x46, 0x46, 0x20, 0x46, 0x46, 0x20, 0x46, 0x46]) := by decide

/-- V15. -/
theorem test_cmd_invalid_v15 :
    (nextOf (exec (.cmdInvalid [0xC1, 0xC1, 0xC0]) s0)).map (fun t => (t.result, t.cfg)) =
      some (.byteSeq [0x45, 0x52, 0x52, 0x4F, 0x52], referenceRecord) := by decide

/-- V16, V17, V18, V20 and the six-byte 0xC1 sequence are all answered ERROR. -/
theorem test_input_command_errors :
    ([[0xC0, 0xC1, 0xC1], [], [0xC2], [0xC0, 0x00, 0x00, 0x1A, 0x17, 0x44, 0x00], [0xC1, 0xC1, 0xC1, 0xC1, 0xC1, 0xC1]] : List (List Byte)).map
      (fun bs => (nextOf (exec (.cfgInputCommand bs) s0)).map (fun t => (t.result, t.cfg))) =
    List.replicate 5 (some (.byteSeq [0x45, 0x52, 0x52, 0x4F, 0x52], referenceRecord)) := by decide

/-- V19: a write through CFG_INPUT_COMMAND. -/
theorem test_input_command_write_v19 :
    (nextOf (exec (.cfgInputCommand [0xC0, 0x0A, 0x00, 0x1A, 0x17, 0x44]) s0)).map (fun t => (t.result, recordBytes t.cfg)) =
      some (.byteSeq [0x4F, 0x4B], [0xC0, 0x0A, 0x00, 0x1A, 0x17, 0x44]) := by decide

/-! ## Mode multiplexer (T4, T9) -/

/-- T4. -/
theorem test_mode_decode_t4 :
    [(false, false), (true, false), (false, true), (true, true)].map
      (fun m => (nextOf (exec (.modeDecode m.1 m.2) s0)).map (fun t => t.result)) =
    [some (.mode .normal), some (.mode .wakeUp), some (.mode .powerSaving), some (.mode .sleep)] := by decide

/-- V41: both timers disarmed, H at 9600 again, P kept. -/
theorem test_enter_sleep_v41 :
    (nextOf (exec .enterSleep (s50.setExp .H true))).map (fun t => (t.armed, t.exp, t.speed, t.env.log)) =
      some (.both false, .both false, { h := 9600, p := 2400 }, [.speedSet .H 9600]) := by decide

/-- V43: the speeds of the record as it is. -/
theorem test_leave_sleep_v43 :
    (nextOf (exec .leaveSleep ((sSleep []).setCfg { referenceRecord with speed := 0x3D }))).map (fun t => (t.speed, t.env.log)) =
      some ({ h := 115200, p := 19200 }, [.speedSet .H 115200, .speedSet .P 19200]) := by decide

/-- PR2, line 8: a direction that held bytes is re-armed with 10/115200 s and a fresh run. -/
theorem test_leave_sleep_rearms_pr2 :
    (nextOf (exec .leaveSleep (((sSleep []).setCfg { referenceRecord with speed := 0x3D }).setRb .H ring2))).map
      (fun t => (t.armed, t.period.h, t.lastCount, t.idle)) =
      some ({ h := true, p := false }, { bits := 10, speed := 115200 }, { h := 2, p := 0 }, .both 0) := by decide

/-- V44: LEAVE_SLEEP runs for PowerSaving too. -/
theorem test_mode_transition_v44 :
    (nextOf (exec (.modeTransition .powerSaving) (sSleep []))).map (fun t => (t.prevMode, t.env.log)) =
      some (.powerSaving, [.speedSet .H 9600, .speedSet .P 2400]) := by decide

/-- V84: the failing call keeps prev_mode; the timers are already disarmed. -/
theorem test_mode_transition_v84 :
    (nextOf (exec (.modeTransition .sleep) { s50 with env := { s50.env with draws := [.ok, .ok, .fails 0] } })).map
      (fun t => (t.status.byte, t.prevMode, t.armed, t.phase)) = some (0x15, .normal, .both false, .halted) := by decide

/-! ## Normal mode (T10) -/

/-- V60: at most RX_CHUNK bytes are taken. -/
theorem test_dir_poll_v60 :
    (nextOf (exec (.dirPoll .H) { s0 with
      params := { Config.reference with rxChunk := 2 }, env := { s0.env with rxq := { h := [1, 2, 3], p := [] } } })).map
      (fun t => (t.rb.h.buf, t.env.rxq.h, t.arrived.h)) = some ([(0, 1), (1, 2)], [3], 2) := by decide

/-- V57: the newest bytes are the ones lost. -/
theorem test_dir_poll_overflow_v57 :
    (nextOf (exec (.dirPoll .H) { s0 with env := { s0.env with rxq := { h := [1, 2, 3, 4, 5, 6], p := [] } } })).map
      (fun t => (t.rb.h, t.drop, t.env.rxq.h)) = some (ring4, { h := 2, p := 0 }, []) := by decide

/-- The example of R221, with the period of V50. -/
theorem test_dir_size_check_r221 :
    (nextOf (exec (.dirSizeCheck .H) (s0.setRb .H ring2))).map (fun t => (t.lastCount.h, t.idle.h, t.armed.h, t.period.h)) =
      some (2, 0, true, { bits := 10, speed := 9600 }) := by decide

/-- V59: with IDLE_RESET_ON = ARRIVAL an arrival on a full buffer restarts the run. -/
theorem test_dir_size_check_arrival_v59 :
    (nextOf (exec (.dirSizeCheck .H) { s0 with
      params := { Config.reference with idleResetOn := .arrival }, rb := { h := ring4, p := Ring.empty },
      lastCount := { h := 4, p := 0 }, arrived := { h := 1, p := 0 }, idle := { h := 2, p := 0 } })).map (fun t => (t.idle.h, t.armed.h)) =
      some (0, true) := by decide

/-- The example of R222. -/
theorem test_dir_expiry_r222 :
    (nextOf (exec (.dirExpiry .H) { s50 with idle := { h := 1, p := 0 }, exp := { h := true, p := true } })).map
      (fun t => (t.exp, t.idle)) = some ({ h := false, p := true }, { h := 2, p := 0 }) := by decide

/-- An expiry on an empty buffer is consumed and not counted (R222). -/
theorem test_dir_expiry_empty :
    (nextOf (exec (.dirExpiry .P) { s0 with exp := { h := false, p := true } })).map (fun t => (t.exp, t.idle)) =
      some (.both false, .both 0) := by decide

/-- The example of R223. -/
theorem test_dir_flush_r223 :
    (nextOf (exec (.dirFlush .H) { s50 with idle := { h := 3, p := 0 } })).map
      (fun t => (t.env.log, t.rb.h.count, t.idle.h, t.lastCount.h, t.armed.h)) =
      some ([.wrote .P [0x31, 0x32]], 0, 0, 0, false) := by decide

/-- V82: the write fails. -/
theorem test_dir_flush_fails_v82 :
    (nextOf (exec (.dirFlush .H) { s50 with idle := { h := 3, p := 0 }, env := { s50.env with draws := [.fails 1] } })).map
      (fun t => (t.status.byte, t.rb.h.count, t.idle.h, t.armed.h, t.env.log)) =
      some (0x11, 0, 3, true, [.wrote .P [0x31]]) := by decide

/-- V54: an arrival and an expiry in one service count as a change. -/
theorem test_normal_service_v54 :
    (nextOf (exec (.normalService .H) { s52 with env := { s52.env with rxq := { h := [0x33], p := [] } } })).map
      (fun t => (t.idle.h, t.exp.h, t.rb.h.count, t.env.log)) = some (0, false, 3, []) := by decide

/-- V58, one service: the dropped byte changes no count, so the expiry counts. -/
theorem test_normal_service_v58 :
    (nextOf (exec (.normalService .H) { s0 with
      rb := { h := ring4, p := Ring.empty }, lastCount := { h := 4, p := 0 }, armed := { h := true, p := false },
      exp := { h := true, p := false }, env := { s0.env with rxq := { h := [0x07], p := [] } } })).map
      (fun t => (t.drop.h, t.idle.h, t.rb.h)) = some (1, 1, ring4) := by decide

/-! ## Sleep mode and the unimplemented modes (T11, T12) -/

/-- V70: nothing there, so the step holds. -/
theorem test_sleep_step_v70 :
    (nextOf (exec .sleepStep (sSleep []))).map (fun t => (t.phase, t.scratchLen)) = some (.sleepWait, 0) := by decide

/-- V73: the read that completes the frame runs it; no slot of the scratch buffer holds a value afterwards (R91; 93 I2). -/
theorem test_sleep_step_v73 :
    (nextOf (exec .sleepStep (sFrame [0x12, 0x34, 0x3D, 0x06, 0x44, 0xC1]))).map
      (fun t => (recordBytes t.cfg, t.env.log, t.scratch.length, t.env.rxq.h, t.speed.h)) =
      some ([0xC0, 0x12, 0x34, 0x3D, 0x06, 0x44], [.statusSet false, .wrote .H [0x4F, 0x4B], .statusSet true], 0, [0xC1], 9600) := by
  decide

/-- R201, 93 I10: a failing read to come does not lift the hold. -/
theorem test_step_holds_whatever_the_draws :
    (nextOf (step (withDraws ((sSleep []).setPhase .sleepWait) [.fails 0]))).map (fun t => (t.phase, t.status.byte, t.env.draws)) =
      some (.sleepWait, 0, [.fails 0]) := by decide

/-- V80, V81 (R236). -/
theorem test_unimpl_step_v81 :
    (nextOf (exec (.unimplStep .powerSaving) s0)).map (fun t => (t.status.byte, t.phase, t.refusedMark)) =
      some (0x02, .refused, some .powerSaving) := by decide

/-! ## The control loop (T9, T10, T11, T12) -/

/-- V52: the third expiry flushes. -/
theorem test_tick_v52 :
    (nextOf (exec .tick s52)).map (fun t => (t.phase, t.env.log, t.rb.h.count, t.idle.h, t.armed.h)) =
      some (.run, [.wrote .P [0x31, 0x32]], 0, 0, false) := by decide

/-- V72: from a hold the loop's own step reads the first byte only and ends the tick. -/
theorem test_step_resumes_v72 :
    (nextOf (step ((sSleep [0xC0, 0x12, 0x34]).setPhase .sleepWait))).map (fun t => (t.phase, t.scratchLen, t.env.rxq.h)) =
      some (.run, 1, [0x12, 0x34]) := by decide

/-- V83: a failing line read. -/
theorem test_tick_v83 :
    (nextOf (exec .tick { s0 with env := { s0.env with draws := [.fails 0] } })).map (fun t => (t.status.byte, t.phase, t.rb)) =
      some (0x19, .halted, s0.rb) := by decide

/-- STARTUP from reset (R301), with a banner. -/
theorem test_startup_r301 :
    (nextOf (exec .startup (State.resetWith { Config.reference with banner := [0x48] } Env.quiet []))).map
      (fun t => (t.phase, t.speed, t.statusOut, t.env.log)) =
      some (.run, { h := 9600, p := 2400 }, true, [.speedSet .H 9600, .speedSet .P 2400, .statusSet true, .wrote .H [0x48]]) := by decide

/-- R58, R59: no operation moves the phase out of STARTUP but STARTUP. -/
theorem test_startup_is_left_by_startup :
    step { State.reset with agenda := [.run (.op 0x52 [])] } = .fault .notEnabled ∧
      step { State.reset with agenda := [.run (.op 0x54 [0])] } = .fault .notEnabled := ⟨rfl, rfl⟩

/-- The step after reset is STARTUP; the peer speed of PEER_DATA_SPEED = UART_BAUD (R209). -/
theorem test_step_after_reset :
    (nextOf (step (State.resetWith { Config.reference with peerDataSpeed := .uartBaud } Env.quiet []))).map (fun t => (t.phase, t.speed)) =
      some (.run, { h := 9600, p := 9600 }) := by decide

/-! ## Events (R268, R269, R300) -/

/-- V56: a disarmed timer's expiry has no effect; an armed one's sets its flag (R268). -/
theorem test_timer_expire_v56 :
    (nextOf (exec (.evTimerExpire .P) s50)).map (fun t => t.exp) = some (.both false) ∧
      (nextOf (exec (.evTimerExpire .H) s50)).map (fun t => t.exp) = some { h := true, p := false } := by decide

/-- The example of R269. -/
theorem test_rx_byte_r269 :
    (nextOf (exec (.evRxByte .H 0x41) (sSleep [0x40]))).map (fun t => t.env.rxq) = some { h := [0x40, 0x41], p := [] } := by decide

/-- V86: a reset leaves REFUSED for STARTUP. -/
theorem test_reset_v86 :
    (nextOf (exec .evReset { s50 with status := { halted := false, unimpl := true, cause := 0 }, phase := .refused })).map
      (fun t => (t.status.byte, t.phase, t.rb.h.count, t.armed)) = some (0x00, .startup, 0, .both false) := by decide

/-! ## The hypotheses of the obligations are met

One theorem for each obligation that has hypotheses, named after it; each clause has its input. -/

/-- The parts of the witnesses. -/
theorem ring2_holds : ring2.Holds 4 [0x31, 0x32] :=
  ⟨by decide, rfl, by decide, rfl, rfl, by decide, by decide, fun i h => by
    have h0 : 0 ≠ i := h 0 (by decide)
    have h1 : 1 ≠ i := h 1 (by decide)
    simp [ring2, Memory.slot, h0, h1]⟩

theorem ring4_holds : ring4.Holds 4 [0x01, 0x02, 0x03, 0x04] :=
  ⟨by decide, rfl, by decide, rfl, rfl, by decide, by decide, fun i h => by
    have h0 : 0 ≠ i := h 0 (by decide)
    have h1 : 1 ≠ i := h 1 (by decide)
    have h2 : 2 ≠ i := h 2 (by decide)
    have h3 : 3 ≠ i := h 3 (by decide)
    simp [ring4, Memory.slot, h0, h1, h2, h3]⟩

theorem empty_holds : Ring.empty.Holds 4 [] := Ring.Holds.empty (by decide)

theorem s0_queue (d : Side) : s0.Queue d [] := by cases d <;> exact empty_holds

theorem s50_queue : s50.Queue .H [0x31, 0x32] ∧ s50.Queue .P [] := ⟨ring2_holds, empty_holds⟩

theorem s0_calls : s0.CallsSucceed := (fun x hx => by cases hx)

theorem s50_calls : s50.CallsSucceed := (fun x hx => by cases hx)

theorem sSleep_calls (rx : List Byte) : (sSleep rx).CallsSucceed := (fun x hx => by cases hx)

theorem sSleep_frame (rx : List Byte) : (sSleep rx).FrameHeld [] := State.FrameHeld.nil rfl rfl

theorem sFrame_frame (rx : List Byte) : (sFrame rx).FrameHeld [0xC0] :=
  ⟨rfl, rfl, (fun x hx => by cases List.mem_singleton.mp hx; decide), (fun k hk => by
    have h0 : k = 0 := by simpa using hk
    cases h0; rfl), (fun k hk => by
    have h0 : 0 ≠ k := by simp at hk; omega
    simp [sFrame, Memory.slot, h0])⟩

theorem s50_served : s50.Served .normal := by
  have hs : s50.Sound := by
    refine ⟨by decide, fun d => ?_, (fun d => by cases d <;> decide), [], State.FrameHeld.nil rfl rfl, .inl rfl⟩
    cases d
    · exact ⟨_, s50_queue.1⟩
    · exact ⟨_, s50_queue.2⟩
  refine ⟨⟨⟨fun m hm => (by cases hm), (fun d => by cases d <;> decide), (fun d hd => by cases d <;> cases hd), rfl⟩, ⟨hs, by decide⟩, rfl, rfl⟩,
    ⟨rfl, rfl, by decide⟩, fun d => ?_⟩
  cases d <;> exact ⟨by decide, rfl, by decide⟩

theorem s50b_served : s50b.Served .normal := by
  have hs : s50b.Sound :=
    ⟨by decide, fun d => ⟨_, by cases d <;> exact ring2_holds⟩, (fun d => by cases d <;> decide), [], State.FrameHeld.nil rfl rfl, .inl rfl⟩
  refine ⟨⟨⟨fun m hm => (by cases hm), (fun d => by cases d <;> decide), (fun d hd => by cases d <;> cases hd), rfl⟩, ⟨hs, by decide⟩, rfl, rfl⟩,
    ⟨rfl, rfl, by decide⟩, fun d => ?_⟩
  cases d <;> exact ⟨by decide, rfl, by decide⟩

theorem s0_served : s0.Served .normal := by
  have hs : s0.Sound := by
    refine ⟨by decide, fun d => ⟨_, s0_queue d⟩, (fun d => by cases d <;> decide), [], State.FrameHeld.nil rfl rfl, .inl rfl⟩
  refine ⟨⟨⟨fun m hm => (by cases hm), (fun d => by cases d <;> decide), (fun d hd => by cases d <;> cases hd), rfl⟩, ⟨hs, by decide⟩, rfl, rfl⟩,
    ⟨rfl, rfl, by decide⟩, fun d => ?_⟩
  cases d <;> exact ⟨by decide, rfl, by decide⟩

theorem sFrame_sound (rx : List Byte) : (sFrame rx).Sound :=
  ⟨s0_served.going.live.sound.params, s0_served.going.live.sound.rings, s0_served.going.live.sound.drops, [0xC0], sFrame_frame rx,
    .inl (by decide)⟩

theorem sFrame_asleep (rx : List Byte) : (sFrame rx).Asleep :=
  ⟨s0_served.going.base.congr rfl rfl rfl rfl rfl rfl, fun d => (s0_served.steady d).idle_lt, fun d => (s0_served.steady d).last_eq,
    ⟨(fun d => by cases d <;> rfl), rfl⟩, rfl, .inl rfl⟩

theorem witness_DecodeOfEncode : (Instr.cmdInvalid [0x55]).wellFormed = true ∧ Instr.tick.wellFormed = true := by decide

theorem witness_EncodeOfDecode : decode (.op 0x62 [0x41]) = .ok (.evRxByte .H 0x41) := by decide

/-- Each phase clause: an event while HALTED, an operation in STARTUP and in RUN, the suspended SLEEP_STEP; and each of the two stops. -/
theorem witness_StepRunsTheDecodedInstruction :
    (decode (.op 0x60 []) = .ok (.evTimerExpire .H) ∧ isEvent (.evTimerExpire .H) = true ∧
      ({ s0 with phase := .halted, agenda := [.run (.op 0x60 [])] } : State).agenda = [.run (.op 0x60 [])]) ∧
    (decode (.op 0x22 []) = .ok .cfgGetParams ∧ Instr.cfgGetParams ≠ .sleepStep ∧ State.reset.phase = .startup ∧ s0.phase = .run) ∧
    (decode (.op 0x52 []) = .ok .sleepStep ∧ ((sSleep []).setPhase .sleepWait).phase = .sleepWait) ∧
    (decode (.op 0x54 [0]) = .ok (.unimplStep .wakeUp) ∧ State.reset.phase = .startup) ∧
    (decode (.op 0x56 []) = .ok .tick ∧ isEvent .tick = false ∧ Instr.tick ≠ .sleepStep) := by decide

theorem witness_LoopTakesTheStepOfItsPhase :
    (State.reset.agenda = [] ∧ State.reset.phase = .startup) ∧
    (({ s0 with agenda := [.loop] } : State).agenda = [.loop] ∧ s0.phase = .run) ∧
    (((sSleep []).setPhase .sleepWait).agenda = [] ∧ ((sSleep []).setPhase .sleepWait).phase = .sleepWait) := by decide

theorem witness_ReservedCodesAreRejected :
    ({ s0 with agenda := [.run (.op 0x57 [])] } : State).agenda = [.run (.op 0x57 [])] ∧
      decode (.op 0x57 []) = .error (.reservedCode 0x57) := by decide

theorem witness_FetchedWordRunsNext :
    decodeTableWord 8 0x60 = some (.evTimerExpire .H) ∧ decodeTableWord 8 0x56 = some .tick ∧
      decodeTableWord 8 0x58 = some .startup := by decide

/-- Room at the last free place but one, and a full buffer. -/
theorem witness_RbEnqueueAppendsOrRejects :
    (s50.Queue .H [0x31, 0x32] ∧ [(0x31 : Byte), 0x32].length < s50.params.ringCap) ∧
      ((s0.setRb .H ring4).Queue .H [0x01, 0x02, 0x03, 0x04] ∧
        [(0x01 : Byte), 0x02, 0x03, 0x04].length = (s0.setRb .H ring4).params.ringCap) :=
  ⟨⟨s50_queue.1, by decide⟩, ring4_holds, by decide⟩

theorem witness_RbDequeueRemovesOldest : s50.Queue .H (0x31 :: [0x32]) ∧ s0.Queue .P [] := ⟨s50_queue.1, s0_queue .P⟩

theorem witness_RbDrainAllReturnsTheQueue : s50.Queue .H [0x31, 0x32] := s50_queue.1

theorem witness_RbAvailableCountsTheQueue : (s0.setRb .P ring4).Queue .P [0x01, 0x02, 0x03, 0x04] := ring4_holds

theorem witness_RingCountingLaw : s0.Queue .H [] := s0_queue .H

theorem witness_CfgSetParamsOverwritesAtSixBytes : ([0, 1, 2, 3, 4, 5, 6] : List Byte).length ≠ 6 ∧ ([] : List Byte).length ≠ 6 := by decide

/-- A sequence of neither form, at the length of each. -/
theorem witness_InputCommandClassifies :
    (∀ a b c d e, ([0xC1, 0xC1, 0xC1, 0xC1, 0xC1, 0xC1] : List Byte) ≠ [0xC0, a, b, c, d, e]) ∧
      ([0xC1, 0xC1, 0xC0] : List Byte) ≠ [0xC1, 0xC1, 0xC1] := by
  refine ⟨fun a b c d e h => ?_, by decide⟩
  simp at h

theorem witness_WriteThenGetReturnsTheBytes :
    (∀ a b c d e, ([0xC1, 0xC1, 0xC1] : List Byte) ≠ [0xC0, a, b, c, d, e]) ∧ ([0xC0, 0xC1, 0xC1] : List Byte) ≠ [0xC1, 0xC1, 0xC1] := by
  refine ⟨fun a b c d e h => ?_, by decide⟩
  simp at h

theorem witness_EnterSleepEffect : s50.CallsSucceed := s50_calls

/-- One direction holds bytes, the other does not. -/
theorem witness_LeaveSleepEffect : s50.CallsSucceed ∧ 0 < (s50.rb.get .H).count ∧ (s50.rb.get .P).count = 0 :=
  ⟨s50_calls, by decide, rfl⟩

theorem witness_ModeTransitionSideEffects :
    (Mode.normal = s0.prevMode) ∧ (Mode.wakeUp ≠ s0.prevMode ∧ Mode.wakeUp ≠ .sleep ∧ s0.prevMode ≠ .sleep) ∧
      (s0.prevMode ≠ .sleep ∧ s0.phase ≠ .halted) ∧ ((sSleep []).prevMode = .sleep ∧ (sSleep []).phase ≠ .halted) ∧
      s0.CallsSucceed := ⟨rfl, by decide, by decide, by decide, s0_calls⟩

theorem witness_DirPollTakesInTheBytes :
    s50.Queue .H [0x31, 0x32] ∧ s50.CallsSucceed ∧ s50.drop.get .H < 2 ^ s50.params.dropCntWidth := ⟨s50_queue.1, s50_calls, by decide⟩

/-- A changed count; an arrival that changed none; and neither, under either parameter. -/
theorem witness_DirSizeCheckRestartsTheRun :
    (s0.setRb .H ring2).CallsSucceed ∧ ((s0.setRb .H ring2).rb.get .H).count ≠ (s0.setRb .H ring2).lastCount.get .H ∧
      (({ s0 with params := { Config.reference with idleResetOn := .arrival } } : State).params.idleResetOn = .arrival ∧
        0 < ({ s0 with arrived := .both 1 } : State).arrived.get .P) ∧
      ((s50.rb.get .H).count = s50.lastCount.get .H ∧ s50.params.idleResetOn = .countChange ∧ s50.arrived.get .H = 0) :=
  ⟨(fun x hx => by cases hx), by decide, by decide, by decide⟩

theorem witness_DirExpiryCountsOnce :
    s50.exp.get .H = false ∧ ((s0.setExp .P true).exp.get .P = true ∧ ((s0.setExp .P true).rb.get .P).count = 0) ∧
      (s52.exp.get .H = true ∧ 0 < (s52.rb.get .H).count) := by decide

/-- At the threshold, and one below it. -/
theorem witness_DirFlushForwardsOneBurst :
    (s50.setIdle .H 3).Queue .H [0x31, 0x32] ∧ (s50.setIdle .H 3).CallsSucceed ∧
      (s50.setIdle .H 3).params.idleThreshold ≤ (s50.setIdle .H 3).idle.get .H ∧ s52.idle.get .H < s52.params.idleThreshold :=
  ⟨ring2_holds, (fun x hx => by cases hx), by decide, by decide⟩

/-- The write fails; the disarm after it fails; the disarm of an empty burst fails. -/
theorem witness_FailedBurstWriteHalts :
    ((withDraws (s50.setIdle .H 3) [.fails 1]).Queue .H [0x31, 0x32] ∧ [(0x31 : Byte), 0x32] ≠ [] ∧
      (withDraws (s50.setIdle .H 3) [.fails 1]).params.idleThreshold ≤ (withDraws (s50.setIdle .H 3) [.fails 1]).idle.get .H ∧
      (withDraws (s50.setIdle .H 3) [.fails 1]).env.draws = .fails 1 :: []) ∧
    ((withDraws (s50.setIdle .H 3) [.ok, .fails 0]).Queue .H [0x31, 0x32] ∧
      (withDraws (s50.setIdle .H 3) [.ok, .fails 0]).params.idleThreshold ≤
        (withDraws (s50.setIdle .H 3) [.ok, .fails 0]).idle.get .H ∧
      (withDraws (s50.setIdle .H 3) [.ok, .fails 0]).env.draws =
        (if [(0x31 : Byte), 0x32] = [] then [] else [Draw.ok]) ++ .fails 0 :: []) ∧
    ((withDraws (s0.setIdle .P 3) [.fails 0]).Queue .P [] ∧
      (withDraws (s0.setIdle .P 3) [.fails 0]).params.idleThreshold ≤ (withDraws (s0.setIdle .P 3) [.fails 0]).idle.get .P ∧
      (withDraws (s0.setIdle .P 3) [.fails 0]).env.draws = (if ([] : List Byte) = [] then [] else [Draw.ok]) ++ .fails 0 :: []) :=
  ⟨⟨ring2_holds, by decide, by decide, rfl⟩, ⟨ring2_holds, by decide, rfl⟩, empty_holds, by decide, rfl⟩

/-- A poll that halts; a size check that halts; a service that runs through. -/
theorem witness_NormalServiceRunsItsFourSteps :
    s50.phase ≠ .halted ∧
    (nextOf (exec (.dirPoll .H) (s50.setEnv { s50.env with draws := [.fails 0] }))).map (fun t => t.phase) = some .halted ∧
    (nextOf (exec (.dirSizeCheck .H) ((s0.setRb .H ring2).setEnv { s0.env with draws := [.fails 0] }))).map (fun t => t.phase) =
      some .halted ∧
    (nextOf (exec (.dirPoll .H) s50)).map (fun t => t.phase) = some .run ∧
    (nextOf (exec (.dirSizeCheck .H) s50)).map (fun t => t.phase) = some .run ∧
    (nextOf (exec (.dirExpiry .H) s50)).isSome = true := by decide

theorem witness_NormalServiceIsIndependent : (nextOf (exec (.normalService .H) s52)).isSome = true := by decide

/-- Below the threshold (`s50`) and at it (`s52`). -/
theorem witness_NormalServiceHoldsOrForwards :
    s50.Queue .H [0x31, 0x32] ∧ s50.CallsSucceed ∧ s50.drop.get .H < 2 ^ s50.params.dropCntWidth ∧
      s50.idle.get .H < s50.params.idleThreshold ∧
      s52.Queue .H [0x31, 0x32] ∧ s52.CallsSucceed ∧ s52.params.idleThreshold ≤ s52.idle.get .H + 1 :=
  ⟨s50_queue.1, s50_calls, by decide, by decide, ring2_holds, (fun x hx => by cases hx), by decide⟩

/-- With a failing draw ahead as well. -/
theorem witness_SleepStepHoldsWithoutAByte :
    (withDraws (sFrame []) [.fails 0]).FrameHeld [0xC0] ∧ frameOpen [0xC0] = true ∧ (withDraws (sFrame []) [.fails 0]).env.rxq.h = [] :=
  ⟨(sFrame_frame []).congr rfl rfl, by decide, rfl⟩

/-- Four of the five missing bytes leave the frame open. -/
theorem witness_SleepStepCollectsTheFrame :
    (sFrame [1, 2, 3, 4]).FrameHeld [0xC0] ∧ frameOpen [0xC0] = true ∧ (sFrame [1, 2, 3, 4]).CallsSucceed ∧
      (sFrame [1, 2, 3, 4]).env.rxq.h ≠ [] ∧ ([1, 2, 3, 4] : List Byte) = (sFrame [1, 2, 3, 4]).env.rxq.h.take (needAfter [0xC0]) ∧
      frameOpen ([0xC0] ++ [1, 2, 3, 4]) = true :=
  ⟨sFrame_frame _, by decide, (fun x hx => by cases hx), by decide, by decide, by decide⟩

/-- The five missing bytes complete it; a one-byte frame is complete at once. -/
theorem witness_SleepStepRunsTheExchange :
    (sFrame [1, 2, 3, 4, 5, 6]).FrameHeld [0xC0] ∧ (sFrame [1, 2, 3, 4, 5, 6]).CallsSucceed ∧
      ([1, 2, 3, 4, 5] : List Byte) = (sFrame [1, 2, 3, 4, 5, 6]).env.rxq.h.take (needAfter [0xC0]) ∧
      frameComplete ([0xC0] ++ [1, 2, 3, 4, 5]) = true ∧
      (nextOf (exec (.cfgInputCommand ([0xC0] ++ [1, 2, 3, 4, 5])) (sFrame [1, 2, 3, 4, 5, 6]))).map (fun u => u.result) =
        some (.byteSeq [0x4F, 0x4B]) ∧
      (sSleep [0x55]).FrameHeld [] ∧ frameOpen [] = true ∧ frameComplete ([] ++ [0x55]) = true :=
  ⟨sFrame_frame _, (fun x hx => by cases hx), by decide, by decide, by decide, sSleep_frame _, by decide, by decide⟩

theorem witness_HeldLoopIgnoresTheLines :
    ((sSleep [0x55]).setPhase .sleepWait).phase = .sleepWait ∧ ((sSleep [0x55]).setPhase .sleepWait).agenda = [] ∧
      (nextOf (step ((sSleep [0x55]).setPhase .sleepWait))).isSome = true := by decide

theorem witness_HoldLastsUntilAByteArrives :
    ((sFrame []).setPhase .sleepWait).Sound ∧ ((sFrame []).setPhase .sleepWait).phase = .sleepWait ∧
      ((sFrame []).setPhase .sleepWait).env.rxq.h = [] ∧ ((sFrame []).setPhase .sleepWait).agenda = [] :=
  ⟨(sFrame_sound []).congr rfl rfl rfl rfl rfl (.inl (by decide)), rfl, rfl, rfl⟩

/-- A transition that halts, a service of H that halts, and a tick of each mode that runs on. -/
theorem witness_TickRunsItsStepsInOrder :
    (withDraws (s0Lines true true) [.ok, .ok, .fails 0]).phase = .run ∧
    (∀ x ∈ (withDraws (s0Lines true true) [.ok, .ok, .fails 0]).env.draws.take 2, x = Draw.ok) ∧
    (nextOf (exec (.modeTransition .sleep) ((withDraws (s0Lines true true) [.ok, .ok, .fails 0]).dropDraws 2))).map
      (fun t => t.phase) = some .halted ∧
    (nextOf (exec (.normalService .H) ((withDraws s50 [.ok, .ok, .fails 0]).dropDraws 2))).map (fun t => t.phase) =
      some .halted ∧
    [(Mode.normal, false, false), (.wakeUp, true, false), (.powerSaving, false, true), (.sleep, true, true)].all (fun m =>
      decide ((nextOf (exec (.modeDecode m.2.1 m.2.2) s0)).map (fun t => t.result) = some (.mode m.1)) &&
      decide ((nextOf (exec (.modeTransition m.1) ((s0Lines m.2.1 m.2.2).dropDraws 2))).map (fun t => t.phase) = some .run)) = true := by
  decide

theorem witness_TickAndStartupNeedTheirPhase : State.reset.phase ≠ .run ∧ s0.phase ≠ .startup := by decide

/-- Nothing due (`s50`); the tick that leaves Sleep, with a partial frame held; and a tick in which a flush is due (`s52`). -/
theorem witness_NormalTickConservesBytes :
    (s50.phase = .run ∧ s50.env.ms0 = false ∧ s50.env.ms1 = false ∧ s50.CallsSucceed ∧ s50.Sound ∧
      s50.Queue .H [0x31, 0x32] ∧ s50.Queue .P []) ∧
    (∃ s : State, s.prevMode = .sleep ∧ s.scratchLen = 1 ∧ s.phase = .run ∧ s.env.ms0 = false ∧ s.env.ms1 = false ∧ s.CallsSucceed ∧
      s.Sound ∧ s.Queue .H [0x31, 0x32] ∧ s.Queue .P []) ∧
    (s52.phase = .run ∧ s52.env.ms0 = false ∧ s52.env.ms1 = false ∧ s52.CallsSucceed ∧ s52.Sound ∧
      s52.Queue .H [0x31, 0x32] ∧ s52.Queue .P [] ∧
      (nextOf (exec .tick s52)).map (fun t => t.env.log) = some [.wrote .P [0x31, 0x32]]) := by
  have h := s50_served.going.live.sound
  refine ⟨⟨rfl, rfl, rfl, s50_calls, h, s50_queue.1, s50_queue.2⟩,
    ⟨{ s50 with prevMode := .sleep, armed := .both false, scratch := [(0, 0xC0)], scratchLen := 1 }, rfl, rfl, rfl, rfl, rfl, s50_calls,
      ⟨h.params, h.rings, h.drops, [0xC0], (sFrame_frame []).congr rfl rfl, .inl (by decide)⟩, s50_queue.1, s50_queue.2⟩,
    ⟨rfl, rfl, rfl, s50_calls, h.congr rfl rfl rfl rfl rfl (.inl (by decide)), s50_queue.1, s50_queue.2, by decide⟩⟩

theorem witness_SleepTickLeavesTheRelayAlone :
    (sSleep [0x55]).env.ms0 = true ∧ (sSleep [0x55]).env.ms1 = true ∧ (sSleep [0x55]).prevMode = .sleep ∧
      (nextOf (exec .tick (sSleep [0x55]))).map (fun t => t.env.log) =
        some [.statusSet false, .wrote .H [0x45, 0x52, 0x52, 0x4F, 0x52], .statusSet true] := by decide

theorem witness_StartupSequence : State.reset.phase = .startup ∧ State.reset.CallsSucceed := ⟨rfl, (fun x hx => by cases hx)⟩

theorem witness_TimerExpirySetsOnlyTheFlag : s50.armed.get .H = true ∧ s50.armed.get .P = false := by decide

theorem witness_EventsCommute :
    Instr.evTimerExpire .H ∈ [Instr.evTimerExpire .H, .evTimerExpire .P, .evRxByte .H 0x41, .evRxByte .P 0x42] ∧
      Instr.evRxByte .P 0x42 ∈ [Instr.evTimerExpire .H, .evTimerExpire .P, .evRxByte .H 0x41, .evRxByte .P 0x42] ∧
      (nextOf (exec (.evTimerExpire .H) s50)).isSome = true ∧ (nextOf (exec (.evRxByte .P 0x42) s50)).isSome = true := by decide

/-- One state for each kind of clause, each with a failing first draw: RUN, with no frame begun and a byte there; STARTUP; a partial frame
held; and the two conditions of the size check. -/
theorem witness_FirstFailingCallHalts :
    ((withDraws (sSleep [1]) [.fails 2]).env.draws = .fails 2 :: [] ∧ (withDraws (sSleep [1]) [.fails 2]).phase = .run ∧
      (withDraws (sSleep [1]) [.fails 2]).scratchLen = 0 ∧ (withDraws (sSleep [1]) [.fails 2]).env.rxq.h ≠ []) ∧
    ((withDraws State.reset [.fails 2]).env.draws = .fails 2 :: [] ∧ (withDraws State.reset [.fails 2]).phase = .startup) ∧
    ((withDraws (sFrame [1]) [.fails 2]).env.draws = .fails 2 :: [] ∧ (withDraws (sFrame [1]) [.fails 2]).FrameHeld [0xC0] ∧
      frameOpen [0xC0] = true ∧ (withDraws (sFrame [1]) [.fails 2]).env.rxq.h ≠ []) ∧
    ((withDraws (s0.setRb .H ring2) [.fails 2]).env.draws = .fails 2 :: [] ∧
      ((withDraws (s0.setRb .H ring2) [.fails 2]).rb.get .H).count ≠ (withDraws (s0.setRb .H ring2) [.fails 2]).lastCount.get .H) ∧
    (∃ s : State, s.env.draws = .fails 2 :: [] ∧ s.params.idleResetOn = .arrival ∧ 0 < s.arrived.get .P ∧
      (s.rb.get .P).count = s.lastCount.get .P) :=
  ⟨⟨rfl, rfl, rfl, by decide⟩, ⟨rfl, rfl⟩, ⟨rfl, (sFrame_frame [1]).congr rfl rfl, by decide, by decide⟩, ⟨rfl, by decide⟩,
    { withDraws s0 [.fails 2] with params := { Config.reference with idleResetOn := .arrival }, arrived := .both 1 },
    rfl, rfl, by decide, rfl⟩

/-- The three calls of the exchange that can fail, on a write frame and on the one-byte frame. -/
theorem witness_FailedExchangeCallHalts :
    (∀ ds ∈ [[Draw.ok, .fails 0], [.ok, .ok, .fails 1], [.ok, .ok, .ok, .fails 1]],
      (withDraws (sFrame [1, 2, 3, 4, 5]) ds).FrameHeld [0xC0] ∧ (withDraws (sFrame [1, 2, 3, 4, 5]) ds).env.draws = ds ∧
        (withDraws (sSleep [0x55]) ds).FrameHeld [] ∧ (withDraws (sSleep [0x55]) ds).env.draws = ds) ∧
    frameOpen [0xC0] = true ∧ (sFrame [1, 2, 3, 4, 5]).env.rxq.h ≠ [] ∧
    ([1, 2, 3, 4, 5] : List Byte) = (sFrame [1, 2, 3, 4, 5]).env.rxq.h.take (needAfter [0xC0]) ∧
    frameComplete ([0xC0] ++ [1, 2, 3, 4, 5]) = true ∧
    (nextOf (exec (.cfgInputCommand ([0xC0] ++ [1, 2, 3, 4, 5])) (sFrame [1, 2, 3, 4, 5]))).map (fun u => u.result) =
      some (.byteSeq [0x4F, 0x4B]) ∧
    frameOpen [] = true ∧ ([0x55] : List Byte) = (sSleep [0x55]).env.rxq.h.take (needAfter []) ∧ frameComplete ([] ++ [0x55]) = true ∧
    (nextOf (exec (.cfgInputCommand ([] ++ [0x55])) (sSleep [0x55]))).map (fun u => u.result) =
      some (.byteSeq [0x45, 0x52, 0x52, 0x4F, 0x52]) :=
  ⟨fun ds _ => ⟨(sFrame_frame [1, 2, 3, 4, 5]).congr rfl rfl, rfl, (sSleep_frame [0x55]).congr rfl rfl, rfl⟩, by decide, by decide, by decide, by decide,
    by decide, by decide, by decide, by decide, by decide⟩

theorem witness_HaltedAndRefusedLoopsStop :
    (s0.setPhase .halted).agenda = [] ∧ (s0.setPhase .halted).phase = .halted ∧ (s0.setPhase .refused).phase = .refused ∧
      decode (.op 0x56 []) = .ok .tick ∧ isEvent .tick = false := by decide

/-- An expiry and a reset, each in a state that is halted. -/
theorem witness_HaltAndRefusalAreSticky :
    (nextOf (step { s50 with phase := .halted, agenda := [.run (.op 0x60 [])] })).map (fun t => t.exp.h) = some true ∧
      (nextOf (step { s50 with phase := .refused, agenda := [.run (.op 0x64 [])] })).map (fun t => t.phase) = some .startup := by decide

theorem witness_StepKeepsStorageSound : s50.Sound ∧ (nextOf (step s50)).isSome = true :=
  ⟨s50_served.going.live.sound, by decide⟩

theorem witness_SoundStatesNeverMisreadStorage : s50.Sound := s50_served.going.live.sound

theorem witness_StepKeepsLoopInvariant : s50.LoopInv ∧ (nextOf (step s50)).isSome = true := ⟨s50_served.inv, by decide⟩

theorem witness_ResetMeetsTheInvariants :
    Config.reference.wf = true ∧ (∀ m ∈ [Move.loop, .lines true true, .run (.op 0x62 [0x55])], m.ofAgents = true) := by decide

/-- A tick, and a SLEEP_STEP by itself that holds. -/
theorem witness_PhaseFollowsItsEdges :
    (nextOf (step { s0 with agenda := [.loop] })).isSome = true ∧
      (nextOf (step { sSleep [] with agenda := [.run (.op 0x52 [])] })).map (fun t => t.phase) = some .sleepWait := by decide

/-- A write frame completed in a Sleep tick, one completed from the hold, one whose answer fails, and a reset after the record was
changed: the record changes in each. -/
theorem witness_OnlyWriteFramesChangeTheRecord :
    ∀ s ∈ [sFrame [0x12, 0x34, 0x3D, 0x06, 0x44], (sFrame [0x12, 0x34, 0x3D, 0x06, 0x44]).setPhase .sleepWait,
        withDraws (sFrame [0x12, 0x34, 0x3D, 0x06, 0x44]) [.ok, .ok, .ok, .ok, .fails 1],
        { s0 with cfg := { referenceRecord with option := 0x45 }, agenda := [.run (.op 0x64 [])] }],
      s.LoopInv ∧ (nextOf (step s)).map (fun t => decide (t.cfg = s.cfg)) = some false := by
  intro s hs
  simp only [List.mem_cons, List.not_mem_nil, or_false] at hs
  rcases hs with rfl | rfl | rfl | rfl
  · exact ⟨(sFrame_asleep _).inv (sFrame_sound _) rfl, by decide⟩
  · exact ⟨((sFrame_asleep _).setPhase (.inr rfl)).inv ((sFrame_sound [0x12, 0x34, 0x3D, 0x06, 0x44]).congr rfl rfl rfl rfl rfl (.inl (by decide))) rfl,
      by decide⟩
  · have h : (withDraws (sFrame [0x12, 0x34, 0x3D, 0x06, 0x44]) [.ok, .ok, .ok, .ok, .fails 1]).Asleep :=
      (sFrame_asleep [0x12, 0x34, 0x3D, 0x06, 0x44]).congr rfl rfl rfl rfl rfl rfl rfl rfl rfl rfl rfl
    exact ⟨h.inv ((sFrame_sound [0x12, 0x34, 0x3D, 0x06, 0x44]).congr rfl rfl rfl rfl rfl (.inl (by decide))) rfl, by decide⟩
  · have h := s0_served
    exact ⟨State.Served.inv ⟨h.going.congr ⟨by decide, h.going.base.idle_le, h.going.base.exp_armed, rfl⟩
      (h.going.live.congr rfl rfl rfl rfl rfl rfl) rfl rfl, ⟨rfl, rfl, by decide⟩, fun d => (h.steady d).congr rfl rfl rfl rfl rfl⟩,
      by decide⟩

theorem witness_QuiescentTickIsQuiet :
    s0.LoopInv ∧ s0.CallsSucceed ∧ s0.quiescent = true ∧ s0.prevMode = .normal ∧ s0.env.ms0 = false ∧ s0.env.ms1 = false :=
  ⟨s0_served.inv, s0_calls, by decide, rfl, rfl, rfl⟩

theorem idleRounds_inv {s : State} (h : s.Served .normal) (n : Nat) (hn : n = 2 ∨ n = 3) :
    ({ s with agenda := idleRounds .H n } : State).LoopInv := by
  have hb : ({ s with agenda := idleRounds .H n } : State).Base :=
    ⟨(by rcases hn with rfl | rfl <;> decide : ∀ m ∈ idleRounds .H n, m.ofAgents = true), h.going.base.idle_le, h.going.base.exp_armed, h.going.base.status_eq⟩
  exact State.Served.inv ⟨h.going.congr hb (h.going.live.congr rfl rfl rfl rfl rfl rfl) rfl rfl,
    ⟨h.data.mode, h.data.no_frame, h.data.speeds⟩, fun d => (h.steady d).congr rfl rfl rfl rfl rfl⟩

/-- Two rounds, below the threshold, and three, at it, with the opposite direction empty and with it holding bytes. -/
theorem witness_SilenceFlushesExactlyOnce :
    (∀ n, n = 2 ∨ n = 3 → ({ s50 with agenda := idleRounds .H n } : State).LoopInv ∧
      ({ s50b with agenda := idleRounds .H n } : State).LoopInv) ∧
      s50.CallsSucceed ∧ s50.phase = .run ∧ s50.prevMode = .normal ∧ s50.env.ms0 = false ∧ s50.env.ms1 = false ∧
      s50.env.rxq = .both [] ∧ s50.Queue .H [0x31, 0x32] ∧ s50.idle.get .H = 0 ∧ s50.exp.get .H = false ∧
      s50.exp.get Side.H.opp = false ∧ 2 < s50.params.idleThreshold ∧ s50.params.idleThreshold ≤ 3 ∧
      s50b.env = s50.env ∧ s50b.exp = s50.exp ∧ s50b.idle = s50.idle ∧ s50b.Queue .H [0x31, 0x32] ∧ s50b.isEmpty .P = false :=
  ⟨fun n hn => ⟨idleRounds_inv s50_served n hn, idleRounds_inv s50b_served n hn⟩, s50_calls, rfl, rfl, rfl, rfl, by decide, s50_queue.1, rfl,
    rfl, rfl, by decide, by decide, rfl, rfl, rfl, ring2_holds, by decide⟩

end Sys2Proof.Tests
end

section
/-! PROOFS. What a step can do, said once: which instruction it issues and in which phases the instruction runs. Every statement
about `step` below is one about `exec` through these rules. -/

namespace Sys2Proof.Machine

variable {α : Type} {s t : State} {i : Instr} {E : State → Prop} {F : Fault → Prop}

/-- The outcome of a step is as stated: a next state meets `E`, and a fault is one that `F` allows. -/
def StepEnds (o : Host.Outcome State Fault Refusal) (E : State → Prop) (F : Fault → Prop) : Prop :=
  match o with
  | .next t => E t
  | .fault f => F f
  | .refused _ => True

namespace StepEnds

variable {o : Host.Outcome State Fault Refusal}

theorem mono {E' : State → Prop} {F' : Fault → Prop} (h : StepEnds o E F) (hE : ∀ t, E t → E' t) (hF : ∀ f, F f → F' f) :
    StepEnds o E' F' := by
  cases o with
  | next t => exact hE t h
  | fault f => exact hF f h
  | refused r => trivial

theorem of_forall (hE : ∀ t, E t) (hF : ∀ f, F f) : StepEnds o E F := by
  cases o with
  | next t => exact hE t
  | fault f => exact hF f
  | refused r => trivial

theorem of_next (h : StepEnds o E F) (ho : o = .next t) : E t := by subst ho; exact h

theorem of_fault {f : Fault} (h : StepEnds o E F) (ho : o = .fault f) : F f := by subst ho; exact h

end StepEnds

/-- An operation that is a step of its own and returns nothing. -/
theorem Run.Ends.finish {r : Run Unit} (h : r.Ends (fun _ => E) E F) : StepEnds r.finish E F := by
  cases r <;> exact h

/-- An operation that is a step of its own and returns a value. -/
theorem Run.Ends.finishWith {r : Run α} {f : α → OpResult} (h : r.Ends (fun a t => E (t.setResult (f a))) E F) :
    StepEnds (r.finishWith f) E F := by
  cases r <;> exact h

/-- The step of `s` issues instruction `i` and leaves the moves `rest`: the loop's own step, with no move pending or asked for
as a move, or the operation of a word. -/
inductive State.Issues (s : State) : Instr → List Move → Prop where
  | idle (h : s.agenda = []) : s.Issues (nextOfPhase s.phase) []
  | loop {rest : List Move} (h : s.agenda = .loop :: rest) : s.Issues (nextOfPhase s.phase) rest
  | word {rest : List Move} {w : CodeWord} {i : Instr} (h : s.agenda = .run w :: rest) (hw : decode w = .ok i) : s.Issues i rest

/-- A step issues an instruction, changes the environment, or is refused when its word has no instruction. -/
theorem step_ends (hissue : ∀ i rest, s.Issues i rest → StepEnds (issue i (s.setAgenda rest)) E F)
    (henv : ∀ m rest e, s.agenda = m :: rest → E ((s.setAgenda rest).setEnv e)) : StepEnds (step s) E F := by
  unfold step
  split
  next ha =>
    have hs : s.setAgenda [] = s := by rw [State.setAgenda, ← ha]
    have := hissue _ _ (.idle ha)
    rwa [hs] at this
  next m rest ha =>
    cases m with
    | loop => exact hissue _ _ (.loop ha)
    | run w =>
      simp only [takeMove, runWord]
      split
      next i hw => exact hissue i rest (.word ha hw)
      next => trivial
      next => trivial
    | lines ms0 ms1 => exact henv _ rest _ ha
    | draws ds => exact henv _ rest _ ha

/-- The control loop may issue `i` in the phase of `s` (10_state.md R58, R59; 42_bridge_controller.md R201, R243). -/
structure State.Enabled (s : State) (i : Instr) : Prop where
  not_halted : s.phase ≠ .halted
  not_refused : s.phase ≠ .refused
  wait : s.phase = .sleepWait → i = .sleepStep
  startup : s.phase = .startup → movesPhase i = false

/-- An event sets the pending expiry of an armed timer, changes the environment, or resets (60_exceptions.md R268, R269, R300). -/
theorem execEvent_ends (he : isEvent i = true) (hsame : E s) (hexp : ∀ d, s.armed.get d = true → E (s.setExp d true))
    (henv : ∀ e, E (s.setEnv e)) (hreset : i = .evReset → E (State.resetWith s.params s.env s.agenda)) :
    StepEnds (exec i s) E F := by
  cases i with
  | evTimerExpire d =>
    change E (if s.armed.get d then s.setExp d true else s)
    split
    next ha => exact hexp d ha
    next => exact hsame
  | evRxByte sd b => exact henv _
  | evReset => exact hreset rfl
  | _ => cases he

/-- An instruction issued: an event runs in every phase, an operation of the loop where it is enabled. -/
theorem issue_ends (hsame : E s) (hexp : ∀ d, s.armed.get d = true → E (s.setExp d true))
    (henv : ∀ e, E (s.setEnv e)) (hreset : i = .evReset → E (State.resetWith s.params s.env s.agenda))
    (hloop : isEvent i = false → s.Enabled i → StepEnds (exec i s) E F) (hoff : F .notEnabled) (hhalt : ∀ c, F (.ioHalted c)) :
    StepEnds (issue i s) E F := by
  unfold issue
  split
  next he => exact execEvent_ends he hsame hexp henv hreset
  next he =>
    have hl := hloop (by simpa using he)
    unfold issueLoop
    split
    next => exact hhalt _
    next => trivial
    next hp =>
      split
      next hi => exact hl ⟨by simp [hp], by simp [hp], fun _ => hi, by simp [hp]⟩
      next => exact hoff
    next hp =>
      split
      next => exact hoff
      next hi => exact hl ⟨by simp [hp], by simp [hp], by simp [hp], fun _ => by simpa using hi⟩
    next hp => exact hl ⟨by simp [hp], by simp [hp], by simp [hp], by simp [hp]⟩

/-- TICK runs in RUN only. -/
theorem execTick_ends (h : s.phase = .run → (tick s).Ends (fun _ => E) E F) (hoff : F .notEnabled) :
    StepEnds (execTick s) E F := by
  unfold execTick
  split
  next hp => exact (h hp).finish
  next => exact hoff

/-- STARTUP runs in phase STARTUP only. -/
theorem execStartup_ends (h : s.phase = .startup → (startup s).Ends (fun _ => E) E F) (hoff : F .notEnabled) :
    StepEnds (execStartup s) E F := by
  unfold execStartup
  split
  next hp => exact (h hp).finish
  next => exact hoff

end Sys2Proof.Machine
end

section
/-! PROOFS. O52 and O53: every step from a sound state ends in a sound state or in a fault that is none of the two storage faults. -/

namespace Sys2Proof.Machine

variable {α : Type} {s : State} {i : Instr}

/-- Not a fault of the storage. -/
def Fault.notStorage (f : Fault) : Prop := f ≠ .unwrittenByte ∧ f ≠ .indexOutside

theorem Run.Keeps.ends {r : Run Unit} (h : r.Keeps) : r.Ends (fun _ => State.Sound) State.Sound Fault.notStorage :=
  h.mono (fun _ _ g => g.sound) (fun _ => id) (fun _ => False.elim)

theorem Run.Keeps.finish {r : Run Unit} (h : r.Keeps) : StepEnds r.finish State.Sound Fault.notStorage := h.ends.finish

theorem Run.Keeps.finishWith {r : Run α} {f : α → OpResult} (h : r.Keeps) :
    StepEnds (r.finishWith f) State.Sound Fault.notStorage :=
  Run.Ends.finishWith (Run.Ends.mono h (fun _ _ g => g.sound.setResult _) (fun _ => id) (fun _ => False.elim))

/-- Every operation of the control loop, where the loop is not halted. -/
theorem exec_sound (h : s.Live) (hi : isEvent i = false) : StepEnds (exec i s) State.Sound Fault.notStorage := by
  have hoff : Fault.notStorage .notEnabled := ⟨nofun, nofun⟩
  cases i with
  | cmdWrite a b c d e => exact (cfgSetParams_live h _).sound.setResult _
  | cmdRead => exact h.sound.setResult _
  | cmdInvalid bytes => exact h.sound.setResult _
  | rbEnqueue d b => exact (rbEnqueue_keeps h d b).finishWith
  | rbDequeue d => exact (rbDequeue_keeps h d).finishWith
  | rbDrainAll d => exact (rbDrainAll_keeps h d).finishWith
  | rbAvailable d => exact h.sound.setResult _
  | cfgSetParams bytes => exact (cfgSetParams_live h bytes).sound
  | cfgGetParams => exact h.sound.setResult _
  | cfgInputCommand bytes => exact (cfgInputCommand_live h bytes).sound.setResult _
  | cfgAirRate => exact h.sound.setResult _
  | cfgUartBaud => exact h.sound.setResult _
  | modeDecode ms0 ms1 => exact h.sound.setResult _
  | modeTransition mode => exact (modeTransition_keeps h mode).finish
  | enterSleep => exact (enterSleep_keeps h).finish
  | leaveSleep => exact (leaveSleep_keeps h).finish
  | dirPoll d => exact (dirPoll_keeps h d).finish
  | dirSizeCheck d => exact (dirSizeCheck_keeps h d).finish
  | dirExpiry d => exact (dirExpiry_live h d).sound
  | dirFlush d => exact (dirFlush_keeps h d).finish
  | normalService d => exact (normalService_keeps h d).finish
  | sleepStep => exact (sleepStep_keeps h).finish
  | unimplStep m => exact (unimplStep_keeps h m).finish
  | tick => exact execTick_ends (fun _ => (tick_keeps h).ends) hoff
  | startup => exact execStartup_ends (fun _ => (startup_keeps h).ends) hoff
  | evTimerExpire d => cases hi
  | evRxByte sd b => cases hi
  | evReset => cases hi

/-- Every step from a sound state. -/
theorem step_sound (h : s.Sound) : StepEnds (step s) State.Sound Fault.notStorage := by
  refine step_ends (fun i rest _ => ?_) fun m rest e _ => (h.setAgenda rest).setEnv e
  have ha := h.setAgenda rest
  exact issue_ends ha (fun d _ => ha.setExp d true) ha.setEnv (fun _ => .resetWith ha.params _ _)
    (fun hi hen => exec_sound ⟨ha, hen.not_halted⟩ hi) ⟨nofun, nofun⟩ fun c => ⟨nofun, nofun⟩

/-- Settles O52: soundness is kept by every operation, and the loop issues none in HALTED, where a complete frame may be held. -/
theorem stepKeepsStorageSound : Obligations.StepKeepsStorageSound := fun _ _ h ht => (step_sound h).of_next ht

/-- Settles O53: the ends of a step from a sound state hold no storage fault. -/
theorem soundStatesNeverMisreadStorage : Obligations.SoundStatesNeverMisreadStorage := fun _ h =>
  ⟨fun hf => ((step_sound h).of_fault hf).1 rfl, fun hf => ((step_sound h).of_fault hf).2 rfl⟩

end Sys2Proof.Machine
end

section
/-! PROOFS. O54: the invariant of the agents' own run, step by step. A move of the agents issues an event, TICK or STARTUP, or
takes the held Sleep step up again; `tick_inv`, `startup_inv` and `sleepStep_asleep` say where each of these ends. -/

namespace Sys2Proof.Machine

variable {s : State} {i : Instr} {rest : List Move}

namespace State.LoopInv

/-- The environment, the moves to come and the pending expiries of armed timers are free. -/
theorem congr (h : s.LoopInv) (e : Env) {a : List Move} (ha : ∀ m ∈ a, m.ofAgents = true) {x : PerSide Bool}
    (hx : ∀ d, x.get d = true → s.armed.get d = true) : ({ s with env := e, agenda := a, exp := x } : State).LoopInv :=
  { h with sound := h.sound.congr rfl rfl rfl rfl rfl (.inr rfl), agents := ha, exp_armed := hx }

theorem setEnv (h : s.LoopInv) (e : Env) : (s.setEnv e).LoopInv := h.congr e h.agents h.exp_armed

theorem setAgenda (h : s.LoopInv) (ha : ∀ m ∈ rest, m.ofAgents = true) : (s.setAgenda rest).LoopInv :=
  h.congr s.env ha h.exp_armed

/-- An expiry of an armed timer. -/
theorem expire (h : s.LoopInv) {d : Side} (hd : s.armed.get d = true) : (s.setExp d true).LoopInv := by
  refine h.congr s.env h.agents fun e he => ?_
  rcases Side.eq_or_opp d e with rfl | rfl
  · exact hd
  · exact h.exp_armed d.opp (by simpa using he)

/-- The state after reset. -/
theorem resetWith {p : Config} (hp : p.wf = true) (e : Env) {a : List Move} (ha : ∀ m ∈ a, m.ofAgents = true) :
    (State.resetWith p e a).LoopInv where
  sound := .resetWith hp e a
  agents := ha
  idle_le := fun d => by simp [State.resetWith]
  idle_lt := fun _ d => by
    simp only [Config.wf, Bool.and_eq_true, decide_eq_true_eq] at hp
    simp only [State.resetWith, PerSide.get_both]
    omega
  last_eq := fun _ d => by simp [State.resetWith, Ring.empty]
  exp_armed := fun d g => by simp [State.resetWith] at g
  armed_iff := nofun
  sleep_disarmed := fun _ => nofun
  run_mode := nofun
  wait_mode := nofun
  no_frame := nofun
  data_speeds := nofun
  boot_speed := fun _ => nofun
  line_high := nofun
  halted_iff := ⟨nofun, nofun⟩
  cause_iff := ⟨fun g => absurd rfl g, nofun⟩
  unimpl_iff := ⟨nofun, nofun⟩
  mark := nofun
  fresh := fun _ => ⟨rfl, rfl, rfl, fun d => by simp [State.resetWith, Ring.empty]⟩

/-- While the loop holds it is inside a Sleep step. -/
theorem asleep (h : s.LoopInv) (hp : s.phase = .sleepWait) : s.Asleep where
  base := by
    refine ⟨h.agents, h.idle_le, h.exp_armed, ?_⟩
    have h1 := h.halted_iff
    have h2 := h.cause_iff
    have h3 := h.unimpl_iff
    cases hs : s.status
    simp_all
  idle_lt := h.idle_lt (by simp [hp])
  last_eq := h.last_eq (by simp [hp])
  switched := ⟨h.sleep_disarmed (.inr hp) (h.wait_mode hp), h.boot_speed (.inr hp) (h.wait_mode hp)⟩
  mode := h.wait_mode hp
  phase := .inr hp

theorem live (h : s.LoopInv) (hp : s.phase ≠ .halted) : s.Live := ⟨h.sound, hp⟩

end State.LoopInv

/-- The Sleep step that was held. -/
theorem heldStep_inv (h : s.LoopInv) (hp : s.phase = .sleepWait) :
    (sleepStep s).Ends (fun _ => State.LoopInv) State.LoopInv (fun _ => True) :=
  (sleepStep_asleep (h.asleep hp) (h.live (by simp [hp])) (h.line_high (.inr (.inl hp)))).mono
    (fun _ _ ⟨h1, h2, h3, _⟩ => h1.inv h2.sound h3) (fun _ => id) (fun _ _ => trivial)

/-- What the agents' moves issue: an event, TICK, STARTUP, or the held Sleep step. -/
theorem State.LoopInv.issues (h : s.LoopInv) (hi : s.Issues i rest) :
    (∀ m ∈ rest, m.ofAgents = true) ∧
      (isEvent i = true ∨ i = .tick ∨ i = .startup ∨ (i = .sleepStep ∧ s.phase = .sleepWait)) := by
  have own : nextOfPhase s.phase = .tick ∨ nextOfPhase s.phase = .startup ∨
      (nextOfPhase s.phase = .sleepStep ∧ s.phase = .sleepWait) := by
    cases s.phase <;> simp [nextOfPhase]
  have ha := h.agents
  cases hi with
  | idle => exact ⟨nofun, .inr own⟩
  | loop hs =>
    rw [hs] at ha
    exact ⟨fun m hm => ha m (List.mem_cons_of_mem _ hm), .inr own⟩
  | @word _ w _ hs hw =>
    rw [hs] at ha
    have := ha _ List.mem_cons_self
    simp only [Move.ofAgents, hw, Bool.or_eq_true, decide_eq_true_eq, or_assoc] at this
    exact ⟨fun m hm => ha m (List.mem_cons_of_mem _ hm), this.imp id (.imp id .inl)⟩

/-- What the loop issues in the agents' own run: TICK in RUN, STARTUP in STARTUP, the held Sleep step in SLEEP_WAIT. -/
theorem agentsLoop_ends {E : State → Prop} {F : Fault → Prop} (hev : isEvent i = false)
    (hi : isEvent i = true ∨ i = .tick ∨ i = .startup ∨ (i = .sleepStep ∧ s.phase = .sleepWait))
    (htick : s.phase = .run → (tick s).Ends (fun _ => E) E F)
    (hstart : s.phase = .startup → (startup s).Ends (fun _ => E) E F)
    (hheld : s.phase = .sleepWait → (sleepStep s).Ends (fun _ => E) E F) (hoff : F .notEnabled) :
    StepEnds (exec i s) E F := by
  rcases hi with hi | rfl | rfl | ⟨rfl, hp⟩
  · rw [hev] at hi
    cases hi
  · exact execTick_ends htick hoff
  · exact execStartup_ends hstart hoff
  · exact (hheld hp).finish

/-- Every step of the agents' own run. -/
theorem step_inv (h : s.LoopInv) : StepEnds (step s) State.LoopInv (fun _ => True) := by
  refine step_ends (fun i rest hi => ?_) fun m rest e hm => ?_
  · obtain ⟨ha, hi⟩ := h.issues hi
    have h1 := h.setAgenda ha
    refine issue_ends h1 (fun d hd => h1.expire hd) h1.setEnv (fun _ => .resetWith h1.sound.params _ h1.agents)
      (fun hev _ => agentsLoop_ends hev hi (fun hp => ?_) (fun hp => ?_) (heldStep_inv h1) trivial) trivial fun _ => trivial
    · exact (tick_inv h1 hp).mono (fun _ _ => id) (fun _ => id) (fun _ _ => trivial)
    · exact (startup_inv h1 hp).mono (fun _ _ => id) (fun _ => id) (fun _ _ => trivial)
  · have ha := h.agents
    rw [hm] at ha
    exact (h.setAgenda fun m hm => ha m (List.mem_cons_of_mem _ hm)).setEnv e

/-- Settles O54: each instruction the agents' moves can issue ends in the invariant. -/
theorem stepKeepsLoopInvariant : Obligations.StepKeepsLoopInvariant := fun _ _ h ht => (step_inv h).of_next ht

end Sys2Proof.Machine
end

section
/-! PROOFS. O56: the phase after each operation of the loop. Only TICK, STARTUP, SLEEP_STEP and UNIMPL_STEP move it without a
halt, and each of them from the phases of its own edges only. -/

namespace Sys2Proof.Machine

variable {α : Type} {s : State} {i : Instr} {p : Phase}

theorem Run.Paced.finish {r : Run Unit} (h : r.Paced p) :
    StepEnds r.finish (fun t => t.phase = p ∨ t.phase = .halted) (fun _ => True) :=
  (h.mono (fun _ _ => .inl) (fun _ => .inr) (fun _ => id)).finish

theorem Run.Paced.finishWith {r : Run α} {f : α → OpResult} (h : r.Paced p) :
    StepEnds (r.finishWith f) (fun t => t.phase = p ∨ t.phase = .halted) (fun _ => True) :=
  Run.Ends.finishWith (h.mono (fun _ _ => .inl) (fun _ => .inr) (fun _ => id))

theorem onRing_paced (d : Side) (f : Nat → Ring → Except Fault (α × Ring)) : (onRing d f s).Paced s.phase := by
  unfold onRing
  split
  · rfl
  · trivial

@[simp] theorem cfgSetParams_phase (bytes : List Byte) : (cfgSetParams bytes s).phase = s.phase := by
  unfold cfgSetParams
  split <;> rfl

/-- Every operation of the loop but TICK, STARTUP, SLEEP_STEP and UNIMPL_STEP leaves the phase or halts. -/
theorem exec_paced (hev : isEvent i = false) (hm : movesPhase i = false) (ht : i ≠ .tick) (hs : i ≠ .startup) :
    StepEnds (exec i s) (fun t => t.phase = s.phase ∨ t.phase = .halted) (fun _ => True) := by
  cases i with
  | cmdWrite a b c d e => exact .inl (cfgSetParams_phase [writePreamble, a, b, c, d, e])
  | cmdRead => exact .inl rfl
  | cmdInvalid bytes => exact .inl rfl
  | rbEnqueue d b => exact (rbEnqueue_paced d b).finishWith
  | rbDequeue d => exact (onRing_paced d Ring.dequeue).finishWith
  | rbDrainAll d => exact (rbDrainAll_paced d).finishWith
  | rbAvailable d => exact .inl rfl
  | cfgSetParams bytes => exact .inl (cfgSetParams_phase bytes)
  | cfgGetParams => exact .inl rfl
  | cfgInputCommand bytes => exact .inl (cfgInputCommand_phase bytes)
  | cfgAirRate => exact .inl rfl
  | cfgUartBaud => exact .inl rfl
  | modeDecode ms0 ms1 => exact .inl rfl
  | modeTransition mode => exact (modeTransition_paced mode).finish
  | enterSleep => exact enterSleep_paced.finish
  | leaveSleep => exact leaveSleep_paced.finish
  | dirPoll d => exact (dirPoll_paced d).finish
  | dirSizeCheck d => exact (dirSizeCheck_paced d).finish
  | dirExpiry d => exact .inl (dirExpiry_phase d)
  | dirFlush d => exact (dirFlush_paced d).finish
  | normalService d => exact (normalService_paced d).finish
  | sleepStep => cases hm
  | unimplStep m => cases hm
  | tick => exact absurd rfl ht
  | startup => exact absurd rfl hs
  | evTimerExpire d => cases hev
  | evRxByte sd b => cases hev
  | evReset => cases hev

/-- STARTUP ends in RUN or is halted (70_reset_and_hazards.md R301). -/
theorem startup_paced : (startup s).Paced .run := by
  refine Run.Ends.bind (portSetSpeed_paced _ _) fun _ s1 _ => ?_
  refine Run.Ends.bind (portSetSpeed_paced _ _) fun _ s2 _ => ?_
  refine Run.Ends.bind (lineSet_paced true) fun _ s3 _ => ?_
  exact Run.Ends.bind (portWrite_paced _ _) fun _ s4 _ => rfl

/-- A Sleep step taken up again holds on, ends in RUN, or is halted (42_bridge_controller.md R230, R234). -/
theorem heldStep_phase (hp : s.phase = .sleepWait) :
    (sleepStep s).Ends (fun _ t => t.phase = .run) (fun t => t.phase = .sleepWait ∨ t.phase = .halted) (fun _ => True) := by
  unfold sleepStep
  split
  · trivial
  next need _ =>
    refine Run.Ends.bind (P := fun _ t => t.phase = .sleepWait) ?_ fun bytes s1 h1 => ?_
    · unfold portReadB
      split
      · exact .inl rfl
      · exact (hp ▸ portReadNB_paced .H need : (portReadNB .H need s).Paced .sleepWait).mono (fun _ _ => id) (fun _ => .inr) (fun _ => id)
    · refine Run.Ends.bind ((h1 ▸ takeFrameBytes_paced bytes : (takeFrameBytes bytes s1).Paced .sleepWait).mono
        (fun _ _ => id) (fun _ => .inr) (fun _ => id)) fun _ s2 h2 => ?_
      change s2.resumed.phase = .run
      simp [State.resumed, show s2.phase = .sleepWait from h2]

@[simp] theorem phaseEdge_self : phaseEdge p p = true := by cases p <;> rfl

/-- The phase after an operation that the loop may issue: from RUN every phase is reached by an edge, in STARTUP and SLEEP_WAIT the
loop issues only what stays there, follows an edge, or halts. -/
theorem exec_phaseEdge (hev : isEvent i = false) (he : s.Enabled i) :
    StepEnds (exec i s) (fun t => phaseEdge s.phase t.phase = true) (fun _ => True) := by
  cases hp : s.phase with
  | startup =>
    by_cases ht : i = .tick
    · subst ht
      exact execTick_ends (fun hr => by rw [hp] at hr; cases hr) trivial
    by_cases hs : i = .startup
    · subst hs
      exact execStartup_ends (fun _ => startup_paced.mono (fun _ _ h => by simp [h, phaseEdge]) (fun _ h => by simp [h, phaseEdge])
        (fun _ => id)) trivial
    refine (exec_paced hev (he.startup hp) ht hs).mono (fun t h => ?_) (fun _ => id)
    rcases h with h | h <;> simp [h, hp, phaseEdge]
  | run => exact StepEnds.of_forall (fun t => by cases t.phase <;> rfl) fun _ => trivial
  | sleepWait =>
    obtain rfl := he.wait hp
    refine Run.Ends.finish ((heldStep_phase hp).mono (fun _ _ h => by simp [h, phaseEdge]) (fun _ h => ?_) (fun _ => id))
    rcases h with h | h <;> simp [h, phaseEdge]
  | halted => exact absurd hp he.not_halted
  | refused => exact absurd hp he.not_refused

/-- Every step. -/
theorem step_phaseEdge (s : State) : StepEnds (step s) (fun t => phaseEdge s.phase t.phase = true) (fun _ => True) :=
  step_ends
    (fun i rest _ => issue_ends (s := s.setAgenda rest) phaseEdge_self (fun _ _ => phaseEdge_self) (fun _ => phaseEdge_self)
      (fun _ => by cases s.phase <;> rfl) exec_phaseEdge trivial fun _ => trivial)
    fun _ _ _ _ => phaseEdge_self

/-- Settles O56: by the phase in which the loop issues the operation; an event stays in its phase or resets. -/
theorem phaseFollowsItsEdges : Obligations.PhaseFollowsItsEdges := fun s _ ht => (step_phaseEdge s).of_next ht

end Sys2Proof.Machine
end

section
/-! PROOFS. The record through the operations of the loop: none but CFG_SET_PARAMS writes it, and of the operations a tick runs only
the exchange calls that, on a write frame (10_state.md R34, 42_bridge_controller.md R233). -/

namespace Sys2Proof.Machine

variable {α : Type} {s : State} {c : ConfigRecord} {d : Side}

namespace Run.Ends

variable {r : Run α} {P P' : α → State → Prop} {E E' : State → Prop} {F F' : Fault → Prop}

theorem and (h : r.Ends P E F) (h' : r.Ends P' E' F') :
    r.Ends (fun a t => P a t ∧ P' a t) (fun t => E t ∧ E' t) (fun f => F f ∧ F' f) := by
  cases r <;> exact ⟨h, h'⟩

theorem of_forall (hP : ∀ a t, P a t) (hE : ∀ t, E t) (hF : ∀ f, F f) : r.Ends P E F := by
  cases r with
  | ok a t => exact hP a t
  | ended t => exact hE t
  | fault f => exact hF f

end Run.Ends

/-- Every end of `r` has the record `c`. -/
def Run.KeepsRecord (r : Run α) (c : ConfigRecord) : Prop :=
  r.Ends (fun _ t => t.cfg = c) (fun t => t.cfg = c) (fun _ => True)

theorem call_record {k : IoCause} {failed : Nat → Env → Env} {done : State → Run α} (h : s.cfg = c)
    (hd : (done s.takeDraw).KeepsRecord c) : (call k failed done s).KeepsRecord c := call_ends hd fun _ _ _ => h

theorem portReadNB_record (h : s.cfg = c) (sd : Side) (n : Nat) : (portReadNB sd n s).KeepsRecord c := call_record h h

theorem portSetSpeed_record (h : s.cfg = c) (sd : Side) (v : Nat) : (portSetSpeed sd v s).KeepsRecord c := call_record h h

theorem lineSet_record (h : s.cfg = c) (v : Bool) : (lineSet v s).KeepsRecord c := call_record h h

theorem timerArm_record (h : s.cfg = c) (d : Side) : (timerArm d s).KeepsRecord c := call_record h h

theorem timerDisarm_record (h : s.cfg = c) (d : Side) : (timerDisarm d s).KeepsRecord c := call_record h h

theorem portWrite_record (h : s.cfg = c) (sd : Side) (bytes : List Byte) : (portWrite sd bytes s).KeepsRecord c := by
  unfold portWrite
  split
  · exact h
  · exact call_record h h

theorem onRing_record {f : Nat → Ring → Except Fault (α × Ring)} (h : s.cfg = c) : (onRing d f s).KeepsRecord c := by
  unfold onRing
  split
  · exact h
  · trivial

theorem enqueueAll_record (bytes : List Byte) (h : s.cfg = c) : (enqueueAll d bytes s).KeepsRecord c := by
  induction bytes generalizing s with
  | nil => exact h
  | cons b bs ih =>
    refine Run.Ends.bind (onRing_record h) fun ok s1 h1 => ih ?_
    cases ok <;> exact h1

theorem dirExpiry_record (h : s.cfg = c) (d : Side) : (dirExpiry d s).cfg = c := by
  unfold dirExpiry
  split
  · split <;> exact h
  · exact h

theorem dirSizeCheck_record (h : s.cfg = c) (d : Side) : (dirSizeCheck d s).KeepsRecord c := by
  unfold dirSizeCheck
  split
  · exact timerArm_record (by exact h) d
  · exact h

theorem dirFlush_record (h : s.cfg = c) (d : Side) : (dirFlush d s).KeepsRecord c := by
  unfold dirFlush
  split
  · refine Run.Ends.bind (onRing_record h) fun burst s1 h1 => ?_
    exact Run.Ends.bind (portWrite_record h1 _ _) fun _ s2 h2 => timerDisarm_record (by exact h2) d
  · exact h

/-- NORMAL_SERVICE (R224). -/
theorem normalService_record (h : s.cfg = c) (d : Side) : (normalService d s).KeepsRecord c := by
  refine Run.Ends.bind (P := fun _ t => t.cfg = c) ?_ fun _ s1 h1 => ?_
  · exact Run.Ends.bind (portReadNB_record h d _) fun bytes s1 h1 => enqueueAll_record bytes h1
  · exact Run.Ends.bind (dirSizeCheck_record h1 d) fun _ s2 h2 => dirFlush_record (dirExpiry_record h2 d) d

theorem enterSleep_record (h : s.cfg = c) : (enterSleep s).KeepsRecord c := by
  refine Run.Ends.bind (timerDisarm_record h .H) fun _ s1 h1 => ?_
  refine Run.Ends.bind (timerDisarm_record h1 .P) fun _ s2 h2 => ?_
  exact Run.Ends.bind (portSetSpeed_record h2 _ _) fun _ s3 h3 => h3

theorem restartRun_record (h : s.cfg = c) (d : Side) : (restartRun d s).KeepsRecord c := by
  unfold restartRun
  simp only
  split
  · exact timerArm_record (by exact h) d
  · exact h

theorem leaveSleep_record (h : s.cfg = c) : (leaveSleep s).KeepsRecord c := by
  refine Run.Ends.bind (portSetSpeed_record h _ _) fun _ s1 h1 => ?_
  refine Run.Ends.bind (portSetSpeed_record h1 _ _) fun _ s2 h2 => ?_
  exact Run.Ends.bind (restartRun_record (by exact h2) .H) fun _ s3 h3 => restartRun_record h3 .P

/-- MODE_TRANSITION (R212). -/
theorem modeTransition_record (h : s.cfg = c) (mode : Mode) : (modeTransition mode s).KeepsRecord c := by
  unfold modeTransition
  split
  · exact h
  · refine Run.Ends.bind (P := fun _ t => t.cfg = c) ?_ fun _ s1 h1 => h1
    unfold modeSideEffects
    split
    · exact leaveSleep_record h
    · split
      · exact enterSleep_record h
      · exact h

/-- STARTUP (R301). -/
theorem startup_record (h : s.cfg = c) : (startup s).KeepsRecord c := by
  refine Run.Ends.bind (portSetSpeed_record h _ _) fun _ s1 h1 => ?_
  refine Run.Ends.bind (portSetSpeed_record h1 _ _) fun _ s2 h2 => ?_
  refine Run.Ends.bind (lineSet_record h2 true) fun _ s3 h3 => ?_
  exact Run.Ends.bind (portWrite_record h3 _ _) fun _ s4 h4 => h4

/-- The body of a tick in any mode but Sleep. -/
theorem tickBody_record {mode : Mode} (hm : mode ≠ .sleep) (h : s.cfg = c) : (tickBody mode s).KeepsRecord c := by
  cases mode with
  | normal => exact Run.Ends.bind (normalService_record h .H) fun _ s1 h1 => normalService_record h1 .P
  | wakeUp => exact h
  | powerSaving => exact h
  | sleep => exact absurd rfl hm

/-! ## The exchange -/

/-- The record that the five bytes after the preamble make (30_encoding.md R111, R115). -/
def writtenRecord (a b c d e : Byte) : ConfigRecord :=
  { preamble := 0xC0, addrHigh := a, addrLow := b, speed := c, channel := d, option := e }

/-- Only a write frame is decoded as CMD_WRITE (30_encoding.md R114). -/
theorem eq_of_decodeFrame_cmdWrite {f : List Byte} {a b c d e : Byte} (h : decodeFrame f = .cmdWrite a b c d e) :
    f = [0xC0, a, b, c, d, e] := by
  unfold decodeFrame at h
  split at h
  · split at h
    next hp =>
      obtain ⟨rfl, rfl, rfl, rfl, rfl⟩ := by simpa using h
      rw [hp, writePreamble]
    next => cases h
  · split at h <;> cases h
  · cases h

theorem cfgInputCommand_write (s : State) (a b c d e : Byte) :
    cfgInputCommand [0xC0, a, b, c, d, e] s = (respOk s.params, s.setCfg (writtenRecord a b c d e)) := rfl

theorem cfgInputCommand_record {f : List Byte} (hf : ∀ a b c d e, f ≠ [0xC0, a, b, c, d, e]) (h : s.cfg = c) :
    (cfgInputCommand f s).2.cfg = c := by
  unfold cfgInputCommand
  generalize hd : decodeFrame f = i
  cases i with
  | cmdWrite => exact absurd (eq_of_decodeFrame_cmdWrite hd) (hf _ _ _ _ _)
  | _ => exact h

/-- The exchange of a frame that is no write frame. -/
theorem exchange_record {f : List Byte} (hh : s.FrameHeld f) (hle : f.length ≤ scratchSize)
    (hf : ∀ a b c d e, f ≠ [0xC0, a, b, c, d, e]) (h : s.cfg = c) : (exchange s).KeepsRecord c := by
  rw [exchange, hh.readAll hle]
  refine Run.Ends.bind (lineSet_record h false) fun _ s1 h1 => ?_
  refine Run.Ends.bind (portWrite_record (cfgInputCommand_record hf h1) _ _) fun _ s2 h2 => ?_
  exact Run.Ends.bind (lineSet_record h2 true) fun _ s3 h3 => h3

/-- An exchange of a write frame that ran to its end (R233). -/
structure State.Answered (t : State) (p : Config) : Prop where
  line_high : t.statusOut = true
  done : t.FrameHeld []
  log : ∃ before, t.env.log = before ++ [.statusSet false, .wrote .H (respOk p), .statusSet true]

/-- An exchange of the frame `f` that was halted after its command ran (60_exceptions.md R263). -/
structure State.CutShort (t : State) (f : List Byte) : Prop where
  phase : t.phase = .halted
  line_low : t.statusOut = false
  held : t.FrameHeld f
  halted : t.status.halted = true
  cause : t.status.cause = 2 ∨ t.status.cause = 6

/-- An exchange that began in `s` left in `t` the record the write frame `f` makes, and of the rest what a caller needs. -/
structure State.Stored (s t : State) (f : List Byte) : Prop where
  record : ∃ a b c d e, f = [0xC0, a, b, c, d, e] ∧ t.cfg = writtenRecord a b c d e
  mode : t.prevMode = s.prevMode
  rxq : t.env.rxq = s.env.rxq

/-- EXCHANGE on a write frame (R233, R175): the record is as it was only if the first LineSet failed. -/
theorem exchange_write {a b c d e : Byte} (h : s.FrameHeld [0xC0, a, b, c, d, e]) :
    (exchange s).Ends (fun _ t => s.Stored t [0xC0, a, b, c, d, e] ∧ t.Answered s.params)
      (fun t => t.cfg = s.cfg ∨ (s.Stored t [0xC0, a, b, c, d, e] ∧ t.CutShort [0xC0, a, b, c, d, e])) (fun _ => True) := by
  rw [exchange, h.readAll (by simp [scratchSize])]
  have hok : respOk s.params ≠ [] := by simp [respOk]
  -- the state after the command and after the answer: the line low, the record written
  refine Run.Ends.bind (P := fun _ t => ∃ v, t = { s with statusOut := false, env := v } ∧ v.rxq = s.env.rxq ∧
    ∃ before, v.log = before ++ [.statusSet false]) (call_ends ⟨_, rfl, rfl, _, rfl⟩ fun _ _ _ => .inl rfl) ?_
  rintro _ _ ⟨v, rfl, hv, before, hl⟩
  simp only [cfgInputCommand_write]
  refine Run.Ends.bind (P := fun _ t => ∃ v, t = { s with statusOut := false, cfg := writtenRecord a b c d e, env := v } ∧
    v.rxq = s.env.rxq ∧ ∃ before, v.log = before ++ [.statusSet false, .wrote .H (respOk s.params)]) ?_ ?_
  · rw [portWrite, if_neg hok]
    refine call_ends ⟨_, rfl, ?_, before, ?_⟩ fun n ds _ => .inr ⟨⟨⟨a, b, c, d, e, rfl, rfl⟩, rfl, ?_⟩, ?_⟩
    · simp [send_log, State.takeDraw, hv]
    · simp [send_log, State.takeDraw, hl, writeOutputs, hok]
    · simp [send_log, State.ioFailure, hv]
    · exact ⟨rfl, rfl, h.congr rfl rfl, rfl, .inl rfl⟩
  rintro _ _ ⟨v, rfl, hv, before, hl⟩
  refine Run.Ends.bind (P := fun _ t => ∃ v, t = { s with statusOut := true, cfg := writtenRecord a b c d e, env := v } ∧
    v.rxq = s.env.rxq ∧ ∃ before, v.log = before ++ [.statusSet false, .wrote .H (respOk s.params), .statusSet true]) ?_ ?_
  · refine call_ends ⟨_, rfl, hv, before, ?_⟩ fun n ds _ => .inr ⟨⟨⟨a, b, c, d, e, rfl, rfl⟩, rfl, ?_⟩, ?_⟩
    · simp [Env.emit, State.takeDraw, hl]
    · by_cases hn : n = 0 <;> simp [hn, State.ioFailure, Env.emit, hv]
    · exact ⟨rfl, rfl, h.congr rfl rfl, rfl, .inr rfl⟩
  rintro _ _ ⟨v, rfl, hv, before, hl⟩
  exact ⟨⟨⟨a, b, c, d, e, rfl, rfl⟩, rfl, hv⟩, rfl, .nil rfl rfl, before, hl⟩

end Sys2Proof.Machine
end

section
/-! PROOFS. When the decoder's layers accept (30_encoding.md R127 to R129, R134), and the one word of EV_RESET. -/

namespace Sys2Proof

open Machine

variable {code : Byte} {operands bytes : List Byte} {i j : Instr}

theorem noOperand_eq_ok : noOperand code operands i = .ok j ↔ operands = [] ∧ i = j := by
  cases operands <;> simp [noOperand]

theorem oneOperand_eq_ok {f : Byte → Option Instr} :
    oneOperand code operands f = .ok j ↔ ∃ b, operands = [b] ∧ f b = some j := by
  unfold oneOperand
  split
  next b => cases hb : f b <;> simp [hb]
  next hne => simp only [reduceCtorEq, false_iff, not_exists, not_and]; exact fun b hb => absurd hb (hne b)

theorem noSide_eq_ok {r : Except DecodeReject Instr} : noSide code r = .ok j ↔ code.getLsbD 0 = false ∧ r = .ok j := by
  unfold noSide
  cases code.getLsbD 0 <;> simp

/-- A command frame is no event. -/
theorem isEvent_decodeFrame : isEvent (decodeFrame bytes) = false := by
  unfold decodeFrame
  split
  · split <;> rfl
  · split <;> rfl
  · rfl

/-- The unit, the operation and the side bit make the code of EV_RESET (30_encoding.md R127, R128). -/
theorem evReset_code (hu : codeUnit code = 3) (ho : codeOperation code = 2) (hb : code.getLsbD 0 = false) : code = 0x64 := by
  simp only [codeUnit, codeOperation, BitVec.extractLsb'_toNat, Nat.shiftRight_eq_div_pow] at hu ho
  simp only [BitVec.getLsbD, Nat.testBit_zero, decide_eq_false_iff_not] at hb
  apply BitVec.eq_of_toNat_eq
  change code.toNat = 100
  omega

/-- One word only decodes to EV_RESET. -/
theorem eq_encode_evReset {w : CodeWord} (h : decode w = .ok .evReset) : w = encode .evReset := by
  cases w with
  | frame bytes =>
    injection h with h
    exact absurd (isEvent_decodeFrame.symm.trans (congrArg isEvent h)) nofun
  | op code operands =>
    simp only [decode, decodeOp] at h
    split at h
    all_goals simp only [noSide_eq_ok, noOperand_eq_ok, oneOperand_eq_ok, Option.some.injEq, Option.map_eq_some_iff, reduceCtorEq,
      Except.ok.injEq, and_false, exists_false] at h
    next hu ho =>
      obtain ⟨hb, rfl, -⟩ := h
      rw [evReset_code hu ho hb]
      rfl

end Sys2Proof
end

section
/-! PROOFS. O57: the record in the agents' own run. A Sleep step changes it only by completing a write frame; TICK and the hold come
down to that step, and EV_RESET is the one other way. -/

namespace Sys2Proof.Machine

variable {α : Type} {s t : State}

/-- A Sleep step from `s`, in which `fr` was held, read on to the write frame `fr ++ got`, and `t` has the record it makes (R230, R233). -/
structure State.WroteFrame (s t : State) (fr got : List Byte) : Prop where
  held : s.FrameHeld fr
  read : got = s.env.rxq.h.take (needAfter fr)
  left : t.env.rxq.h = s.env.rxq.h.drop (needAfter fr)
  mode : t.prevMode = s.prevMode
  record : ∃ a b c d e, fr ++ got = [0xC0, a, b, c, d, e] ∧ t.cfg = writtenRecord a b c d e
  ending : (t.phase = .run ∧ t.Answered s.params) ∨ t.CutShort (fr ++ got)

/-- A Sleep step from `s` to `t` that changes the record wrote a frame. -/
def State.WritesOnlyFrames (s t : State) : Prop := t.cfg ≠ s.cfg → ∃ fr got, s.WroteFrame t fr got

namespace State.WritesOnlyFrames

theorem of_cfg (h : t.cfg = s.cfg) : s.WritesOnlyFrames t := fun g => absurd h g

/-- Where the tick began, if nothing that the Sleep step reads differs there. -/
theorem congr {u : State} (h : s.WritesOnlyFrames t) (hc : u.cfg = s.cfg) (hp : u.params = s.params) (hs : u.scratch = s.scratch)
    (hl : u.scratchLen = s.scratchLen) (hq : u.env.rxq = s.env.rxq) (hm : u.prevMode = s.prevMode) : u.WritesOnlyFrames t := by
  intro hne
  obtain ⟨fr, got, h1, h2, h3, h4, h5, h6⟩ := h (hc ▸ hne)
  exact ⟨fr, got, h1.congr hs hl, by rw [hq]; exact h2, by rw [hq]; exact h3, h4.trans hm.symm, h5, by rw [hp]; exact h6⟩

/-- A new frame asks for one byte, and no write frame is that short. -/
theorem cfg_of_newFrame (h : s.WritesOnlyFrames t) (hn : s.FrameHeld []) : t.cfg = s.cfg := by
  by_contra hne
  obtain ⟨fr, got, hw⟩ := h hne
  obtain ⟨a, b, c, d, e, hf, -⟩ := hw.record
  have hfr : fr = [] := List.length_eq_zero_iff.1 (hw.held.len_eq.symm.trans hn.len_eq)
  have hgot := congrArg List.length hw.read
  have hlen := congrArg List.length hf
  simp only [hfr, List.nil_append, needAfter, List.length_take, List.length_cons] at hgot hlen
  omega

end State.WritesOnlyFrames

/-- The bytes of one Sleep read taken in (R230). -/
theorem takeFrameBytes_record {fr got : List Byte} (hf : s.FrameHeld fr) (ho : frameOpen fr = true) (hne : got ≠ [])
    (hle : got.length ≤ needAfter fr) :
    (takeFrameBytes got s).Ends (fun _ t => t.cfg = s.cfg ∨ (s.Stored t (fr ++ got) ∧ t.Answered s.params))
      (fun t => t.cfg = s.cfg ∨ (s.Stored t (fr ++ got) ∧ t.CutShort (fr ++ got))) (fun _ => True) := by
  obtain ⟨m, hm, htake⟩ := takeFrameBytes_spec hf ho hne hle
  rw [htake]
  split
  next =>
    by_cases hw : ∃ a b c d e, fr ++ got = [0xC0, a, b, c, d, e]
    · obtain ⟨a, b, c, d, e, hw⟩ := hw
      rw [hw] at hm ⊢
      exact (exchange_write hm).mono (fun _ _ ⟨g, ha⟩ => .inr ⟨⟨g.record, g.mode, g.rxq⟩, ha⟩)
        (fun _ => .imp id fun ⟨g, hc⟩ => ⟨⟨g.record, g.mode, g.rxq⟩, hc⟩) fun _ => id
    · obtain ⟨b, bs, hb, hlen⟩ := frame_grows ho hne hle
      refine (exchange_record hm (hb ▸ hlen.trans (frameLen_le b)) (fun a b c d e g => hw ⟨a, b, c, d, e, g⟩) rfl).mono
        (fun _ _ => .inl) (fun _ => .inl) fun _ => id
  next => exact .inl rfl

/-- The Sleep read leaves the bytes it does not take (R200, R201). -/
theorem portReadB_record {n : Nat} (hn : 1 ≤ n) :
    (portReadB .H n s).Ends
      (fun got t => got = s.env.rxq.h.take n ∧ got ≠ [] ∧ ∃ v, t = s.setEnv v ∧ v.rxq.h = s.env.rxq.h.drop n)
      (fun t => t.cfg = s.cfg) (fun _ => True) := by
  rcases hrx : s.env.rxq.h with _ | ⟨b, bs⟩
  · rw [portReadB_hold n hrx]
    rfl
  · rw [portReadB_read n (by simp [hrx])]
    refine call_ends ⟨by simp [Env.rxTake, hrx], ?_, _, rfl, by simp [Env.dropRx, State.takeDraw, PerSide.set, hrx]⟩ fun _ _ _ => rfl
    obtain ⟨k, rfl⟩ : ∃ k, n = k + 1 := ⟨n - 1, by omega⟩
    simp [Env.rxTake, hrx]

/-- A Sleep step that ran to its end leaves RUN. -/
theorem resumed_eq (h : s.phase = .run ∨ s.phase = .sleepWait) : s.resumed = s.setPhase .run := by
  rcases h with h | h
  · rw [setPhase_self h, State.resumed, if_neg (by simp [h])]
  · rw [State.resumed, if_pos h]

/-- SLEEP_STEP (R230): it returns in RUN, and changes the record only by writing a frame. -/
theorem sleepStep_record {fr : List Byte} (hf : s.FrameHeld fr) (ho : frameOpen fr = true)
    (hp : s.phase = .run ∨ s.phase = .sleepWait) :
    (sleepStep s).Ends (fun _ t => t.phase = .run ∧ s.WritesOnlyFrames t) s.WritesOnlyFrames (fun _ => True) := by
  rw [sleepStep, hf.sleepNeed]
  refine Run.Ends.bind ((portReadB_record (needAfter_pos ho)).mono (fun _ _ => id) (fun _ => .of_cfg) (fun _ => id)) ?_
  rintro got _ ⟨hgot, hne, v, rfl, hv⟩
  have hle : got.length ≤ needAfter fr := by rw [hgot]; exact List.length_take_le _ _
  refine Run.Ends.bind (((takeFrameBytes_record (s := s.setEnv v) (hf.congr rfl rfl) ho hne hle).and (takeFrameBytes_paced got)).mono
    (fun _ _ => id) (fun t ⟨h, _⟩ hc => ?_) (fun _ _ => trivial)) fun _ t ⟨h, ht⟩ => ?_
  · obtain ⟨hs, hcut⟩ := h.resolve_left hc
    exact ⟨fr, got, hf, hgot, by rw [hs.rxq]; exact hv, hs.mode, hs.record, .inr hcut⟩
  · rw [resumed_eq (ht ▸ hp)]
    refine ⟨rfl, fun hc => ?_⟩
    obtain ⟨hs, ha⟩ := h.resolve_left hc
    exact ⟨fr, got, hf, hgot, by simpa [hs.rxq] using hv, hs.mode, hs.record,
      .inl ⟨rfl, ha.line_high, ha.done.congr rfl rfl, ha.log⟩⟩

/-! ## TICK -/

theorem modeOfLines_eq_sleep {ms0 ms1 : Bool} : modeOfLines ms0 ms1 = .sleep ↔ ms0 = true ∧ ms1 = true := by
  cases ms0 <;> cases ms1 <;> simp [modeOfLines]

/-- A change into Sleep empties the scratch buffer (R213). -/
theorem modeTransition_newFrame (hm : s.prevMode ≠ .sleep) :
    (modeTransition .sleep s).Ends (fun _ t => t.FrameHeld []) (fun _ => True) (fun _ => True) := by
  have any {r : Run Unit} : r.Ends (fun _ _ => True) (fun _ => True) (fun _ => True) :=
    .of_forall (fun _ _ => trivial) (fun _ => trivial) fun _ => trivial
  rw [modeTransition, if_neg hm.symm, modeSideEffects, if_neg hm, if_pos rfl]
  refine Run.Ends.bind (P := fun _ t => t.FrameHeld []) ?_ fun _ s1 h1 => h1.congr rfl rfl
  refine Run.Ends.bind any fun _ s1 _ => Run.Ends.bind any fun _ s2 _ => Run.Ends.bind any fun _ s3 _ => ?_
  exact .nil rfl rfl

/-- A tick after its lines were read, unless it is a Sleep tick after a Sleep tick. -/
theorem tickRest_record {mode : Mode} (hp : s.phase = .run) (hm : ¬ (mode = .sleep ∧ s.prevMode = .sleep)) :
    ((modeTransition mode s).bind fun _ s1 => (tickBody mode s1).bind fun _ s2 => .ok () (s2.setPhase .run)).KeepsRecord s.cfg := by
  have htrans := modeTransition_record (s := s) rfl mode
  by_cases hsl : mode = .sleep
  · subst hsl
    have hnew := modeTransition_newFrame fun g => hm ⟨rfl, g⟩
    refine Run.Ends.bind ((htrans.and (hnew.and (modeTransition_paced .sleep))).mono (fun _ _ => id) (fun _ => And.left)
      (fun _ _ => trivial)) fun _ s1 ⟨hc, hn, hp1⟩ => ?_
    refine Run.Ends.bind ((sleepStep_record hn rfl (.inl (hp1.trans hp))).mono (fun _ t ⟨_, hw⟩ => ?_) (fun t hw => ?_) (fun _ => id))
      fun _ s2 h2 => h2
    all_goals exact (hw.cfg_of_newFrame hn).trans hc
  · exact Run.Ends.bind htrans fun _ s1 h1 => Run.Ends.bind (tickBody_record hsl h1) fun _ s2 h2 => h2

/-- A tick from `s` to `t` that changes the record is a Sleep tick after a Sleep tick, and wrote a frame. -/
def State.TickWrites (s t : State) : Prop :=
  t.cfg ≠ s.cfg → s.env.ms0 = true ∧ s.env.ms1 = true ∧ s.prevMode = .sleep ∧ s.WritesOnlyFrames t

/-- TICK (R240). -/
theorem tick_record (hs : s.Live) (hp : s.phase = .run) : (tick s).Ends (fun _ => s.TickWrites) s.TickWrites (fun _ => True) := by
  refine Run.Ends.bind (P := fun b t => b = s.env.ms0 ∧ t = s.takeDraw) (call_ends ⟨rfl, rfl⟩ fun _ _ _ g => absurd rfl g) ?_
  rintro _ _ ⟨rfl, rfl⟩
  refine Run.Ends.bind (P := fun b t => b = s.env.ms1 ∧ t = s.takeDraw.takeDraw) (call_ends ⟨rfl, rfl⟩ fun _ _ _ g => absurd rfl g) ?_
  rintro _ _ ⟨rfl, rfl⟩
  by_cases hm : modeOfLines s.env.ms0 s.env.ms1 = .sleep ∧ s.prevMode = .sleep
  · obtain ⟨hl, hprev⟩ := hm
    obtain ⟨h0, h1⟩ := modeOfLines_eq_sleep.1 hl
    obtain ⟨fr, hf, ho⟩ := hs.sound.openFrame hs.going
    have htrans : modeTransition .sleep s.takeDraw.takeDraw = .ok () s.takeDraw.takeDraw := if_pos hprev.symm
    have hback {t : State} (hw : s.takeDraw.takeDraw.WritesOnlyFrames t) : s.TickWrites t :=
      fun _ => ⟨h0, h1, hprev, hw.congr rfl rfl rfl rfl rfl rfl⟩
    rw [hl, htrans, Run.bind_ok]
    refine Run.Ends.bind ((sleepStep_record (s := s.takeDraw.takeDraw) (hf.congr rfl rfl) ho (.inl hp)).mono (fun _ _ => id)
      (fun _ => hback) (fun _ => id)) fun _ t ⟨hr, hw⟩ => ?_
    rw [setPhase_self hr]
    exact hback hw
  · exact (tickRest_record (s := s.takeDraw.takeDraw) hp hm).mono (fun _ _ h g => absurd h g) (fun _ h g => absurd h g) (fun _ => id)

/-! ## The step -/

/-- A step of the agents' own run that changes the record is a reset, or a Sleep step that wrote a frame, in a Sleep tick or taken
up again from the hold. -/
def State.RecordChange (s t : State) : Prop :=
  t.cfg ≠ s.cfg →
    (t.phase = .startup ∧ t.cfg = s.params.cfgReset ∧ ∃ rest, s.agenda = .run (encode .evReset) :: rest) ∨
    (((s.phase = .run ∧ s.env.ms0 = true ∧ s.env.ms1 = true) ∨ s.phase = .sleepWait) ∧ s.prevMode = .sleep ∧ s.WritesOnlyFrames t)

theorem State.RecordChange.of_cfg (h : t.cfg = s.cfg) : s.RecordChange t := fun g => absurd h g

/-- The word of an EV_RESET that is issued. -/
theorem State.Issues.evReset {rest : List Move} {i : Instr} (h : s.Issues i rest) (hi : i = .evReset) :
    s.agenda = .run (encode .evReset) :: rest := by
  have own : nextOfPhase s.phase ≠ .evReset := by cases s.phase <;> nofun
  cases h with
  | idle => exact absurd hi own
  | loop => exact absurd hi own
  | word hs hw =>
    subst hi
    rw [hs, eq_encode_evReset hw]

/-- Every step of the agents' own run. -/
theorem step_record (h : s.LoopInv) : StepEnds (step s) s.RecordChange (fun _ => True) := by
  refine step_ends (fun i rest hi => ?_) fun _ _ _ _ => .of_cfg rfl
  obtain ⟨ha, hown⟩ := h.issues hi
  have h1 := h.setAgenda ha
  refine issue_ends (.of_cfg rfl) (fun _ _ => .of_cfg rfl) (fun _ => .of_cfg rfl)
    (fun hr _ => .inl ⟨rfl, rfl, rest, hi.evReset hr⟩)
    (fun hev hen => agentsLoop_ends hev hown (fun hp => ?_) (fun _ => ?_) (fun hp => ?_) trivial) trivial fun _ => trivial
  · have hback (t : State) (ht : (s.setAgenda rest).TickWrites t) : s.RecordChange t := fun g =>
      have ⟨h0, h1, hm, hw⟩ := ht g
      .inr ⟨.inl ⟨hp, h0, h1⟩, hm, hw.congr rfl rfl rfl rfl rfl rfl⟩
    exact (tick_record (h1.live hen.not_halted) hp).mono (fun _ => hback) hback (fun _ => id)
  · exact (startup_record (s := s.setAgenda rest) (c := s.cfg) rfl).mono (fun _ _ => .of_cfg) (fun _ => .of_cfg) (fun _ => id)
  · obtain ⟨fr, hf, ho⟩ := h1.sound.openFrame hen.not_halted
    have hback (t : State) (hw : (s.setAgenda rest).WritesOnlyFrames t) : s.RecordChange t := fun _ =>
      .inr ⟨.inr hp, h.wait_mode hp, hw.congr rfl rfl rfl rfl rfl rfl⟩
    exact (sleepStep_record hf ho (.inr hp)).mono (fun _ t ⟨_, hw⟩ => hback t hw) hback (fun _ => id)

/-- Settles O57: by the instruction issued; a write frame was read whole by a Sleep step, and its exchange ran to its end or was halted
after the command. -/
theorem onlyWriteFramesChangeTheRecord : Obligations.OnlyWriteFramesChangeTheRecord := by
  intro s t h ht hne
  rcases (step_record h).of_next ht hne with hreset | ⟨hwhere, hm, hw⟩
  · exact .inl hreset
  · obtain ⟨fr, got, hw⟩ := hw hne
    obtain ⟨a, b, c, d, e, hf, hc⟩ := hw.record
    refine .inr ⟨fr, got, a, b, c, d, e, hwhere, hw.mode.trans hm, hw.held, hw.read, hf, hc, hw.left, ?_⟩
    exact hw.ending.imp (fun ⟨hp, ha⟩ => ⟨hp, ha.line_high, ha.done, ha.log⟩)
      fun hcut => ⟨hcut.phase, hcut.line_low, hcut.held, hcut.halted, hcut.cause⟩

end Sys2Proof.Machine
end

section
/-! PROOFS. O3: the reserved operation codes (30_encoding.md R128, R129). Operand bytes never make a code reserved, so the decoder is
compared with the map at no operand bytes, code by code. -/

namespace Sys2Proof

open Machine

variable {code c : Byte} {operands : List Byte} {i : Instr}

/-- Operand bytes are turned down as operands, never as a reserved code. -/
theorem noOperand_ne_reservedCode : noOperand code operands i ≠ .error (.reservedCode c) := by
  cases operands <;> simp [noOperand]

theorem oneOperand_ne_reservedCode {f : Byte → Option Instr} : oneOperand code operands f ≠ .error (.reservedCode c) := by
  unfold oneOperand
  split
  next b => cases f b <;> simp
  next => simp

/-- Bit 0 must be clear in the code of an operation that takes no direction (30_encoding.md R127, R129). -/
theorem noSide_eq_reservedCode {r : Except DecodeReject Instr} :
    noSide code r = .error (.reservedCode code) ↔ code.getLsbD 0 = true ∨ r = .error (.reservedCode code) := by
  unfold noSide
  cases code.getLsbD 0 <;> simp

/-- Whether a code is reserved does not depend on the operand bytes: each row of the map turns them down in `noOperand` or
`oneOperand`, or takes them all. -/
theorem decodeOp_eq_reservedCode_iff_nil :
    decodeOp code operands = .error (.reservedCode code) ↔ decodeOp code [] = .error (.reservedCode code) := by
  unfold decodeOp
  split <;> simp only [noSide_eq_reservedCode, noOperand_ne_reservedCode, oneOperand_ne_reservedCode, reduceCtorEq]

/-- The step decodes before it looks at the phase (log entry 3). -/
theorem step_of_reservedCode {s : State} {rest : List Move} {w : CodeWord} (hs : s.agenda = .run w :: rest)
    (hw : decode w = .error (.reservedCode c)) : step s = .refused (.reservedCode c) := by
  simp only [step, hs, takeMove, runWord, hw]

/-- Settles O3: without operand bytes the decoder agrees with the map on each of the 256 codes, and operand bytes change nothing. -/
theorem reservedCodesAreRejected : Obligations.ReservedCodesAreRejected := by
  intro code operands
  refine ⟨?_, fun s rest hs hw => step_of_reservedCode hs hw⟩
  refine decodeOp_eq_reservedCode_iff_nil.trans ?_
  revert code
  decide

end Sys2Proof
end

section
/-! PROOFS. O8 to O12: the ring-buffer operations (40_ring_buffer.md R150 to R154). What each does to a ring that holds a known queue
is said in Laws/RingBuffer.lean; here it is carried through the step, and the counting law follows by induction on the operations. -/

namespace Sys2Proof.Machine

variable {s : State} {d : Side} {q : List Byte} {r : Ring}

/-- An operation on `rb[d]`, as a step of its own, changes the ring as `f` says and the returned result, and nothing else. -/
theorem onRing_finishWith_ok {α : Type} {f : Nat → Ring → Except Fault (α × Ring)} {a : α} {g : α → OpResult}
    (h : f s.params.ringCap (s.rb.get d) = .ok (a, r)) :
    (onRing d f s).finishWith g = .next ((s.setRb d r).setResult (g a)) := by
  simp only [onRing, h, Run.finishWith_ok]

/-- The same for an operation that leaves the ring as it is. -/
theorem onRing_finishWith_unchanged {α : Type} {f : Nat → Ring → Except Fault (α × Ring)} {a : α} {g : α → OpResult}
    (h : f s.params.ringCap (s.rb.get d) = .ok (a, s.rb.get d)) :
    (onRing d f s).finishWith g = .next (s.setResult (g a)) := by
  rw [onRing_finishWith_ok h, State.setRb, PerSide.set_get_self]

/-- A ring put in the place of `rb[d]` is what `rb[d]` then holds; the returned result is no part of it. -/
theorem queue_setRb_setResult (hr : r.Holds s.params.ringCap q) (res : OpResult) :
    ((s.setRb d r).setResult res).Queue d q := by
  simpa only [State.Queue, State.setResult_rb, State.setResult_params, State.setRb_rb, State.setRb_params,
    PerSide.get_set_same] using hr

/-! ## Each operation by itself -/

/-- Settles O8, by whether the queue is shorter than the capacity. -/
theorem rbEnqueueAppendsOrRejects : Obligations.RbEnqueueAppendsOrRejects := by
  intro s d b q h
  refine ⟨fun hroom => ?_, fun hfull => onRing_finishWith_unchanged (Ring.enqueue_full h hfull.ge b)⟩
  obtain ⟨hstep, hholds⟩ := Ring.enqueue_spec h hroom b
  exact ⟨_, onRing_finishWith_ok hstep, hholds, rfl, rfl, rfl, Memory.slot_put_same _ _ _,
    fun _ hi => Memory.slot_put_ne _ _ hi⟩

/-- Settles O9, by whether the ring holds a byte. -/
theorem rbDequeueRemovesOldest : Obligations.RbDequeueRemovesOldest := by
  intro s d
  refine ⟨fun b q h => ?_, fun h => onRing_finishWith_unchanged (Ring.dequeue_empty h)⟩
  obtain ⟨hstep, hholds⟩ := Ring.dequeue_spec h
  exact ⟨_, onRing_finishWith_ok hstep, hholds, rfl, rfl, h.count_eq.symm, Memory.slot_clear_same _ _,
    fun _ hi => Memory.slot_clear_ne _ hi⟩

/-- Settles O10, from what draining a ring that holds the queue does. -/
theorem rbDrainAllReturnsTheQueue : Obligations.RbDrainAllReturnsTheQueue := by
  intro s d q h
  obtain ⟨hstep, hholds⟩ := Ring.drainAll_spec h
  exact ⟨onRing_finishWith_ok hstep, hholds⟩

/-- Settles O11: `count` is the number of queued bytes. -/
theorem rbAvailableCountsTheQueue : Obligations.RbAvailableCountsTheQueue := by
  intro s d q h
  refine ⟨?_, h.length_le⟩
  rw [← h.count_eq]
  rfl

/-! ## The counting law (R154) -/

/-- The books of `rb[d]` balance: it holds `q`, and the bytes accepted so far are the bytes removed so far and then `q`. -/
structure State.Balanced (s : State) (d : Side) (y : Tally) (q : List Byte) : Prop where
  queue : s.Queue d q
  accepted_eq : y.accepted = y.removed ++ q

variable {y : Tally}

/-- Any operation goes on and keeps the books balanced. -/
theorem exec_ringOp_balanced (h : s.Balanced d y q) (op : RingOp) :
    ∃ t q', exec (op.instr d) s = .next t ∧ t.params = s.params ∧ t.Balanced d (y.add op t.result) q' := by
  obtain ⟨hq, hy⟩ := h
  cases op with
  | enqueue b =>
    obtain ⟨hroom, hfull⟩ := rbEnqueueAppendsOrRejects s d b q hq
    rcases hq.length_le.lt_or_eq with hlt | heq
    · obtain ⟨r, hstep, hholds, -⟩ := hroom hlt
      exact ⟨_, q ++ [b], hstep, rfl, queue_setRb_setResult hholds _, by simp [Tally.add, hy]⟩
    · exact ⟨_, q, hfull heq, rfl, hq, hy⟩
  | dequeue =>
    obtain ⟨hsome, hnone⟩ := rbDequeueRemovesOldest s d
    cases q with
    | nil => exact ⟨_, [], hnone hq, rfl, hq, hy⟩
    | cons b q =>
      obtain ⟨r, hstep, hholds, -⟩ := hsome b q hq
      exact ⟨_, q, hstep, rfl, queue_setRb_setResult hholds _, by simp [Tally.add, hy]⟩
  | drainAll =>
    obtain ⟨hstep, hholds⟩ := rbDrainAllReturnsTheQueue s d q hq
    exact ⟨_, [], hstep, rfl, queue_setRb_setResult hholds _, by simp [Tally.add, hy]⟩

/-- Any sequence of operations runs to its end and keeps the books balanced. -/
theorem runRing_balanced (ops : List RingOp) (h : s.Balanced d y q) :
    ∃ t y' q', runRing d ops s y = some (t, y') ∧ t.params = s.params ∧ t.Balanced d y' q' := by
  induction ops generalizing s y q with
  | nil => exact ⟨s, y, q, rfl, rfl, h⟩
  | cons op ops ih =>
    obtain ⟨s1, q1, hstep, hp1, h1⟩ := exec_ringOp_balanced h op
    obtain ⟨t, y', q', hrun, hp, ht⟩ := ih h1
    exact ⟨t, y', q', by simp only [runRing, hstep, hrun], hp.trans hp1, ht⟩

/-- While the books balance, accepted minus removed is the number of queued bytes. -/
theorem State.Balanced.accepted_length (h : s.Balanced d y q) : y.accepted.length = y.removed.length + q.length := by
  rw [h.accepted_eq, List.length_append]

/-- Settles O12: an empty ring balances the empty tally, and every operation keeps the balance. -/
theorem ringCountingLaw : Obligations.RingCountingLaw := by
  intro s d ops h
  obtain ⟨t, y, q, hrun, hp, ht⟩ := runRing_balanced (y := ⟨[], []⟩) ops ⟨h, rfl⟩
  obtain ⟨havail, hle⟩ := rbAvailableCountsTheQueue t d q ht.queue
  have hlen := ht.accepted_length
  have hdiff : y.accepted.length - y.removed.length = q.length := by omega
  exact ⟨t, y, q, hrun, hp, ht.queue, ht.accepted_eq, by rw [hdiff, havail], by omega, by rw [hdiff, ← hp]; exact hle⟩

end Sys2Proof.Machine
end

section
/-! PROOFS. O13 to O20: the configuration store and the command decoder (41_config_store.md R170 to R179). The lookups come first, then
the operations, each said once, and last the classification of R114 by which CFG_INPUT_COMMAND chooses among the commands. -/

namespace Sys2Proof.Machine

variable {s : State} {bytes : List Byte}

/-! ## The speed tables (R172, R173) and the hex digits (R178) -/

@[simp] theorem airClass_toNat (b : Byte) : (airClass b).toNat = b.toNat % 8 := by
  simp [airClass, BitVec.extractLsb'_toNat]

@[simp] theorem uartClass_toNat (b : Byte) : (uartClass b).toNat = b.toNat / 8 % 8 := by
  simp [uartClass, BitVec.extractLsb'_toNat, Nat.shiftRight_eq_div_pow]

/-- The table of R117, row by row. -/
theorem airRateTable_getElem? (code : BitVec 3) :
    ([300, 1200, 2400, 4800, 9600, 19200, 19200, 19200] : List Nat)[code.toNat]? = some (airRateTable code) := by
  revert code
  decide

/-- The table of R118, row by row. -/
theorem baudTable_getElem? (code : BitVec 3) :
    ([1200, 2400, 4800, 9600, 19200, 38400, 57600, 115200] : List Nat)[code.toNat]? = some (baudTable code) := by
  revert code
  decide

/-- The digits of R122, in order. -/
def hexDigits : List Byte :=
  [0x30, 0x31, 0x32, 0x33, 0x34, 0x35, 0x36, 0x37, 0x38, 0x39, 0x41, 0x42, 0x43, 0x44, 0x45, 0x46]

theorem hexDigits_getElem? (v : BitVec 4) : hexDigits[v.toNat]? = some (hexDigit v) := by
  revert v
  decide

theorem highNibble_toNat (b : Byte) : (b.extractLsb' 4 4).toNat = b.toNat / 16 := by
  rw [BitVec.extractLsb'_toNat, Nat.shiftRight_eq_div_pow]
  have := b.isLt
  omega

theorem lowNibble_toNat (b : Byte) : (b.extractLsb' 0 4).toNat = b.toNat % 16 := by
  simp [BitVec.extractLsb'_toNat]

/-- A byte of the record gives the two positions of the dump that begin at three times its offset (R178). -/
theorem hexRender_at_byte {c : ConfigRecord} {i : Nat} {v : Byte} (h : (recordBytes c)[i]? = some v) :
    (hexRender c)[3 * i]? = some (hexDigit (v.extractLsb' 4 4)) ∧
      (hexRender c)[3 * i + 1]? = some (hexDigit (v.extractLsb' 0 4)) := by
  obtain ⟨hi, rfl⟩ := List.getElem?_eq_some_iff.1 h
  change i < 6 at hi
  interval_cases i <;> exact ⟨rfl, rfl⟩

theorem hexRender_at_space (c : ConfigRecord) {i : Nat} (hi : i < 5) : (hexRender c)[3 * i + 2]? = some 0x20 := by
  interval_cases i <;> rfl

/-! ## The operations one by one -/

/-- Six bytes make a record, and no other length does (R170). -/
theorem recordOfBytes_eq_none (h : bytes.length ≠ 6) : recordOfBytes bytes = none := by
  unfold recordOfBytes
  split
  · exact absurd rfl h
  · rfl

theorem cfgSetParams_of_length_ne (h : bytes.length ≠ 6) : cfgSetParams bytes s = s := by
  rw [cfgSetParams, recordOfBytes_eq_none h]

/-- Settles O13, by whether the bytes make a record. -/
theorem cfgSetParamsOverwritesAtSixBytes : Obligations.CfgSetParamsOverwritesAtSixBytes := by
  intro s bytes
  refine ⟨?_, fun h => congrArg _ (cfgSetParams_of_length_ne h)⟩
  rintro p a b c d e rfl
  rfl

/-- Settles O14: the result is `recordBytes`, which lists the fields by offset. -/
theorem cfgGetParamsReturnsTheRecord : Obligations.CfgGetParamsReturnsTheRecord := fun _ => rfl

/-- Settles O15: each speed is the row of its table that three bits of the speed byte number. -/
theorem cfgSpeedsReadTheTables : Obligations.CfgSpeedsReadTheTables := by
  intro s
  refine ⟨airDataRate s.cfg, uartBaud s.cfg, ?_, ?_, rfl, rfl⟩
  · rw [← airClass_toNat, airRateTable_getElem?, airDataRate]
  · rw [← uartClass_toNat, baudTable_getElem?, uartBaud]

/-- Settles O16: six bytes always make a record, so the write stores one whatever its operands. -/
theorem cmdWriteStoresAndAnswersOk : Obligations.CmdWriteStoresAndAnswersOk := fun _ _ _ _ _ _ => rfl

/-- Settles O17: the dump is `hexRender`, digit by digit and space by space. -/
theorem cmdReadAnswersTheHexDump : Obligations.CmdReadAnswersTheHexDump := by
  intro s
  refine ⟨hexRender s.cfg, rfl, rfl, fun i v h => ?_, fun i hi => hexRender_at_space s.cfg hi⟩
  obtain ⟨hhigh, hlow⟩ := hexRender_at_byte h
  constructor
  · rw [hhigh, ← hexDigits_getElem?, highNibble_toNat, hexDigits]
  · rw [hlow, ← hexDigits_getElem?, lowNibble_toNat, hexDigits]

/-- Settles O18: the answer depends on the terminator only. -/
theorem cmdInvalidAnswersError : Obligations.CmdInvalidAnswersError := fun _ _ => rfl

/-! ## The classification (R114, R174) -/

/-- A sequence that is neither the write frame nor the read frame is CMD_INVALID (R114). -/
theorem decodeFrame_invalid (hw : ∀ a b c d e, bytes ≠ [0xC0, a, b, c, d, e]) (hr : bytes ≠ [0xC1, 0xC1, 0xC1]) :
    decodeFrame bytes = .cmdInvalid bytes := by
  unfold decodeFrame
  split
  next p a b c d e =>
    have hp : p ≠ writePreamble := by
      rintro rfl
      exact hw a b c d e rfl
    exact if_neg hp
  next x y z =>
    have hxyz : ¬ (x = readByteCode ∧ y = readByteCode ∧ z = readByteCode) := by
      rintro ⟨rfl, rfl, rfl⟩
      exact hr rfl
    exact if_neg hxyz
  next => rfl

/-- What such a sequence does at the interface (R174). -/
theorem cfgInputCommand_invalid (hw : ∀ a b c d e, bytes ≠ [0xC0, a, b, c, d, e]) (hr : bytes ≠ [0xC1, 0xC1, 0xC1]) :
    cfgInputCommand bytes s = cmdInvalid s := by
  rw [cfgInputCommand, decodeFrame_invalid hw hr]

/-- Settles O19, class by class of R114; each class answers. -/
theorem inputCommandClassifies : Obligations.InputCommandClassifies := by
  intro s bytes
  refine ⟨⟨_, rfl⟩, ?_, ?_, fun hw hr => congrArg answer (cfgInputCommand_invalid hw hr)⟩
  · rintro a b c d e rfl
    rfl
  · rintro rfl
    rfl

/-- Settles O20: what a write stores is read back; a sequence of the other two classes keeps the record, and one that is not a read
is answered as O18 says. -/
theorem writeThenGetReturnsTheBytes : Obligations.WriteThenGetReturnsTheBytes := by
  intro s
  refine ⟨fun a b c d e => ?_, fun bytes hw => ?_⟩
  · obtain ⟨-, hwrite, -, -⟩ := inputCommandClassifies s [0xC0, a, b, c, d, e]
    have hstep := (hwrite a b c d e rfl).trans (cmdWriteStoresAndAnswersOk s a b c d e)
    exact ⟨_, _, hstep, rfl, cfgGetParamsReturnsTheRecord _, rfl⟩
  · refine ⟨_, rfl, cfgInputCommand_record hw rfl, fun hr => ?_⟩
    simp only [cfgInputCommand_invalid hw hr]
    rfl

end Sys2Proof.Machine
end

section
/-! PROOFS. O21 to O24: the mode multiplexer (42_bridge_controller.md R210 to R214). ENTER_SLEEP and LEAVE_SLEEP are said once, for
calls that all succeed; MODE_TRANSITION then goes by its branches. -/

namespace Sys2Proof

theorem PerSide.set_of_get_eq {α : Type} {x : PerSide α} {d : Side} {v : α} (h : x.get d = v) : x.set d v = x := by
  rw [← h, PerSide.set_get_self]

theorem PerSide.get_ite_set {α : Type} (x : PerSide α) (c : Prop) [Decidable c] (d e : Side) (v : α) :
    (if c then x.set d v else x).get e = if c ∧ e = d then v else x.get e := by
  split
  next h => simp only [PerSide.get_set, h, true_and]
  next h => simp only [h, false_and, if_false]

namespace Machine

variable {s : State} {mode : Mode}

/-- Settles O21, a row of the table each. -/
theorem modeDecodeMapsTheLines : Obligations.ModeDecodeMapsTheLines := fun _ => ⟨rfl, rfl, rfl, rfl⟩

/-- ENTER_SLEEP when its calls succeed (R213). -/
theorem enterSleep_ok (h : s.CallsSucceed) :
    enterSleep s = .ok () { s with
      armed := .both false
      exp := .both false
      speed := s.speed.set s.params.sleepSpeedSide s.params.bootBaud
      scratch := []
      scratchLen := 0
      env := { s.env with
        log := s.env.log ++ [.speedSet s.params.sleepSpeedSide s.params.bootBaud]
        draws := s.env.draws.drop 3 } } := by
  have h1 : (s.takeDraw.disarm .H).CallsSucceed := h.of_tail rfl
  have h2 : ((s.takeDraw.disarm .H).takeDraw.disarm .P).CallsSucceed := h1.of_tail rfl
  have hdraws : s.env.draws.tail.tail.tail = s.env.draws.drop 3 := by simp [← List.drop_one]
  rw [enterSleep, timerDisarm_ok h, Run.bind_ok, timerDisarm_ok h1, Run.bind_ok, portSetSpeed_ok h2, ← hdraws]
  rfl

/-- Settles O22. -/
theorem enterSleepEffect : Obligations.EnterSleepEffect := fun _ h => congrArg Run.finish (enterSleep_ok h)

/-- LEAVE_SLEEP when its calls succeed (R214): the speeds first, so that the timers are armed at the restored ones. -/
theorem leaveSleep_ok (h : s.CallsSucceed) :
    ∃ t, leaveSleep s = .ok () t ∧ t.CallsSucceed ∧
      t = { s with
        speed := { h := uartBaud s.cfg, p := peerSpeed s.params s.cfg }
        scratch := []
        scratchLen := 0
        idle := .both 0
        lastCount := { h := s.rb.h.count, p := s.rb.p.count }
        armed := t.armed
        period := t.period
        exp := t.exp
        env := { s.env with
          log := s.env.log ++ [.speedSet .H (uartBaud s.cfg), .speedSet .P (peerSpeed s.params s.cfg)]
          draws := t.env.draws } } ∧
      ∀ d, (0 < (s.rb.get d).count →
          t.armed.get d = true ∧ t.exp.get d = false ∧
          t.period.get d = { bits := s.params.charBits, speed := t.speed.get (timerSide s.params d) }) ∧
        ((s.rb.get d).count = 0 →
          t.armed.get d = s.armed.get d ∧ t.exp.get d = s.exp.get d ∧ t.period.get d = s.period.get d) := by
  obtain ⟨s1, r1, c1, e1⟩ : ∃ s1, portSetSpeed .H s.uartBaudNow s = .ok () s1 ∧ s1.CallsSucceed ∧ s1 = { s with
      speed := s.speed.set .H (uartBaud s.cfg)
      env := { s.env with log := s.env.log ++ [.speedSet .H (uartBaud s.cfg)], draws := s.env.draws.tail } } :=
    ⟨_, portSetSpeed_ok h _ _, h.of_tail rfl, rfl⟩
  obtain ⟨s2, r2, c2, e2⟩ : ∃ s2, portSetSpeed .P s1.peerSpeedNow s1 = .ok () s2 ∧ s2.CallsSucceed ∧ s2 = { s1 with
      speed := s1.speed.set .P (peerSpeed s1.params s1.cfg)
      env := { s1.env with log := s1.env.log ++ [.speedSet .P (peerSpeed s1.params s1.cfg)], draws := s1.env.draws.tail } } :=
    ⟨_, portSetSpeed_ok c1 _ _, c1.of_tail rfl, rfl⟩
  obtain ⟨s3, r3, c3, e3⟩ := restartRun_ok (s := s2.clearScratch) (c2.of_eq rfl) .H
  obtain ⟨t, r4, c4, e4⟩ := restartRun_ok c3 .P
  refine ⟨t, by simp only [leaveSleep, r1, r2, r3, r4, Run.bind_ok], c4, ?_, fun d => ?_⟩
  · rw [e4, e3, e2, e1]
    simp [PerSide.set, PerSide.both]
  · rw [e4, e3, e2, e1]
    refine ⟨fun hpos => ?_, fun hzero => ?_⟩
    · cases d <;> simp [PerSide.get_ite_set, hpos, State.periodFor, periodOf, -PerSide.get_H, -PerSide.get_P]
    · cases d <;> simp [PerSide.get_ite_set, hzero, -PerSide.get_H, -PerSide.get_P]

/-- Settles O23. -/
theorem leaveSleepEffect : Obligations.LeaveSleepEffect := by
  intro s h
  obtain ⟨t, hr, -, ht, hd⟩ := leaveSleep_ok h
  exact ⟨t, congrArg Run.finish hr, ht, hd⟩

/-! ## MODE_TRANSITION by its branches (R212) -/

theorem modeTransition_same (h : mode = s.prevMode) : modeTransition mode s = .ok () s := if_pos h

theorem modeTransition_plain (hne : mode ≠ s.prevMode) (hm : mode ≠ .sleep) (hs : s.prevMode ≠ .sleep) :
    modeTransition mode s = .ok () (s.setPrevMode mode) := by
  rw [modeTransition, if_neg hne, modeSideEffects, if_neg hs, if_neg hm, Run.bind_ok]

theorem modeTransition_enter (hs : s.prevMode ≠ .sleep) :
    modeTransition .sleep s = (enterSleep s).bind fun _ s1 => .ok () (s1.setPrevMode .sleep) := by
  rw [modeTransition, if_neg hs.symm, modeSideEffects, if_neg hs, if_pos rfl]

theorem modeTransition_leave (hm : mode ≠ .sleep) (hs : s.prevMode = .sleep) :
    modeTransition mode s = (leaveSleep s).bind fun _ s1 => .ok () (s1.setPrevMode mode) := by
  rw [modeTransition, if_neg (hs ▸ hm), modeSideEffects, if_pos hs]

/-- A side effect that answers `t` is followed by the write of `prev_mode`, unless it halted. -/
theorem Run.Paced.finish_setPrevMode {r : Run Unit} {p : Phase} {t : State} (h : r.Paced p) (hp : p ≠ .halted)
    (ht : r.finish = .next t) :
    (r.bind fun _ s1 => .ok () (s1.setPrevMode mode)).finish =
      .next (if t.phase = .halted then t else { t with prevMode := mode }) := by
  obtain ⟨hhalt, hret⟩ := h.of_finish hp ht
  split
  next hph => rw [hhalt hph, Run.bind_ended, Run.finish_ended]
  next hph => rw [(hret hph).1, Run.bind_ok, Run.finish_ok, State.setPrevMode]

/-- MODE_TRANSITION when its calls succeed: it completes in the phase it began in, with the new mode observed. -/
theorem modeTransition_ok (h : s.CallsSucceed) :
    ∃ t, modeTransition mode s = .ok () t ∧ t.phase = s.phase ∧ t.prevMode = mode := by
  by_cases hne : mode = s.prevMode
  · exact ⟨s, modeTransition_same hne, rfl, hne.symm⟩
  by_cases hs : s.prevMode = .sleep
  · obtain ⟨t, hr, -, ht, -⟩ := leaveSleep_ok h
    exact ⟨t.setPrevMode mode, by rw [modeTransition_leave (hs ▸ hne) hs, hr, Run.bind_ok], by rw [ht]; rfl, rfl⟩
  by_cases hm : mode = .sleep
  · subst hm
    have hr := modeTransition_enter hs
    rw [enterSleep_ok h, Run.bind_ok] at hr
    exact ⟨_, hr, rfl, rfl⟩
  · exact ⟨s.setPrevMode mode, modeTransition_plain hne hm hs, rfl, rfl⟩

/-- Every end of `r` is a next state. -/
def Run.Answers {α : Type} (r : Run α) : Prop := r.Ends (fun _ _ => True) (fun _ => True) (fun _ => False)

theorem Run.Answers.finish {r : Run Unit} (h : r.Answers) : ∃ t, r.finish = .next t := by
  cases r with
  | ok _ t => exact ⟨t, rfl⟩
  | ended t => exact ⟨t, rfl⟩
  | fault f => exact h.elim

theorem Run.Answers.bind {α β : Type} {r : Run α} {k : α → State → Run β} (h : r.Answers)
    (hk : ∀ a t, (k a t).Answers) : (r.bind k).Answers := Run.Ends.bind h fun a t _ => hk a t

theorem call_answers {α : Type} {c : IoCause} {failed : Nat → Env → Env} {done : State → Run α}
    (hd : (done s.takeDraw).Answers) : (call c failed done s).Answers := call_ends hd fun _ _ _ => trivial

theorem portSetSpeed_answers (sd : Side) (v : Nat) : (portSetSpeed sd v s).Answers := call_answers trivial

theorem timerArm_answers (d : Side) : (timerArm d s).Answers := call_answers trivial

theorem timerDisarm_answers (d : Side) : (timerDisarm d s).Answers := call_answers trivial

theorem enterSleep_answers : (enterSleep s).Answers :=
  (timerDisarm_answers .H).bind fun _ _ => (timerDisarm_answers .P).bind fun _ _ =>
    (portSetSpeed_answers _ _).bind fun _ _ => trivial

theorem restartRun_answers (d : Side) : (restartRun d s).Answers := by
  unfold restartRun
  simp only
  split
  · exact timerArm_answers d
  · trivial

theorem leaveSleep_answers : (leaveSleep s).Answers :=
  (portSetSpeed_answers _ _).bind fun _ _ => (portSetSpeed_answers _ _).bind fun _ _ =>
    (restartRun_answers .H).bind fun _ _ => restartRun_answers .P

/-- Settles O24, branch by branch; the phase tells whether the side effect halted. -/
theorem modeTransitionSideEffects : Obligations.ModeTransitionSideEffects := by
  intro s m
  refine ⟨fun h => congrArg Run.finish (modeTransition_same h),
    fun hne hm hs => congrArg Run.finish (modeTransition_plain hne hm hs), ?_, fun hm hs hph => ?_, fun h => ?_⟩
  · rintro rfl hs hph
    obtain ⟨t, ht⟩ := (enterSleep_answers (s := s)).finish
    exact ⟨t, ht, (congrArg Run.finish (modeTransition_enter hs)).trans (enterSleep_paced.finish_setPrevMode hph ht)⟩
  · obtain ⟨t, ht⟩ := (leaveSleep_answers (s := s)).finish
    exact ⟨t, ht, (congrArg Run.finish (modeTransition_leave hm hs)).trans (leaveSleep_paced.finish_setPrevMode hph ht)⟩
  · obtain ⟨t, hr, hph, hm⟩ := modeTransition_ok (mode := m) h
    exact ⟨t, congrArg Run.finish hr, hph, hm⟩

end Machine

end Sys2Proof
end

section
/-! PROOFS. O25 to O30 and O32: the coalescer (42_bridge_controller.md R220 to R225). DIR_SIZE_CHECK, DIR_EXPIRY and a failing
DIR_FLUSH are said here once, beside what Laws/Coalescer.lean says of the calls that succeed. -/

namespace Sys2Proof.Machine

variable {s : State} {d : Side} {q : List Byte}

/-- Settles O25, by the loop of DIR_POLL over a known queue. -/
theorem dirPollTakesInTheBytes : Obligations.DirPollTakesInTheBytes := by
  intro s d q hq hc hdrop
  obtain ⟨r, hr, hh⟩ := dirPoll_ok hq hc hdrop
  exact ⟨r, by rw [List.drop_one]; exact congrArg Run.finish hr, hh⟩

/-! ## DIR_SIZE_CHECK and DIR_EXPIRY -/

/-- When the idle run restarts (R221). -/
theorem restartsRun_iff : s.restartsRun d = true ↔
    (s.rb.get d).count ≠ s.lastCount.get d ∨ (s.params.idleResetOn = .arrival ∧ 0 < s.arrived.get d) := by
  simp only [State.restartsRun, Bool.or_eq_true, Bool.and_eq_true, decide_eq_true_eq]

theorem dirSizeCheck_restart (h : s.restartsRun d = true) :
    dirSizeCheck d s = timerArm d ((s.setLastCount d (s.rb.get d).count).setIdle d 0) := if_pos h

theorem dirSizeCheck_keep (h : ¬ s.restartsRun d = true) : dirSizeCheck d s = .ok () s := if_neg h

/-- Settles O26: the timer is armed after the counts are written, at the speeds as they are. -/
theorem dirSizeCheckRestartsTheRun : Obligations.DirSizeCheckRestartsTheRun := by
  intro s d hc
  refine ⟨fun h => ?_, fun hcount hon => congrArg Run.finish (dirSizeCheck_keep fun h => ?_)⟩
  · have h1 : ((s.setLastCount d (s.rb.get d).count).setIdle d 0).CallsSucceed := hc.of_eq rfl
    have hr := (dirSizeCheck_restart (restartsRun_iff.2 h)).trans (timerArm_ok h1 d)
    rw [List.drop_one]
    exact congrArg Run.finish hr
  · rcases restartsRun_iff.1 h with hne | ⟨harr, hpos⟩
    · exact hne hcount
    · rcases hon with hon | hon
      · exact absurd (harr.symm.trans hon) nofun
      · omega

theorem dirExpiry_clear (h : s.exp.get d = false) : dirExpiry d s = s := if_neg (by simp [h])

theorem dirExpiry_empty (h : s.exp.get d = true) (hc : (s.rb.get d).count = 0) : dirExpiry d s = s.setExp d false := by
  rw [dirExpiry, if_pos h, if_neg (by simp [rbAvailable, hc])]

theorem dirExpiry_counts (h : s.exp.get d = true) (hc : 0 < (s.rb.get d).count) :
    dirExpiry d s = (s.setExp d false).setIdle d (s.idle.get d + 1) := by
  rw [dirExpiry, if_pos h, if_pos (show 0 < rbAvailable d s from hc)]

/-- Settles O27, by whether an expiry is pending and whether the buffer holds bytes. -/
theorem dirExpiryCountsOnce : Obligations.DirExpiryCountsOnce := fun _ _ =>
  ⟨fun h => congrArg _ (dirExpiry_clear h), fun h hc => congrArg _ (dirExpiry_empty h hc),
    fun h hc => congrArg _ (dirExpiry_counts h hc)⟩

/-! ## One primitive call, by its draw -/

/-- The next primitive call does not fail. -/
def State.NextSucceeds (s : State) : Prop := ∀ n ds, s.env.draws ≠ .fails n :: ds

theorem State.CallsSucceed.next (h : s.CallsSucceed) : s.NextSucceeds := h.head_ne

theorem State.NextSucceeds.of_draws {ds : List Draw} (h : s.env.draws = .ok :: ds) : s.NextSucceeds := fun n ds' he => by
  rw [h] at he
  cases he

theorem call_next {α : Type} {c : IoCause} {failed : Nat → Env → Env} {done : State → Run α} (h : s.NextSucceeds) :
    call c failed done s = done s.takeDraw := by
  rcases call_cases c failed done s with hr | ⟨n, ds, hds, -⟩
  · exact hr
  · exact absurd hds (h n ds)

theorem portWrite_next {sd : Side} (h : s.NextSucceeds) (hne : q ≠ []) :
    portWrite sd q s = .ok () (s.setEnv { s.env with
      log := s.env.log ++ [.wrote sd q], draws := s.env.draws.tail }) := by
  rw [portWrite, if_neg hne, call_next h, send_log, writeOutputs, if_neg hne]
  rfl

/-- A write of some bytes that fails has sent as many of them as the draw says (R202, R263). -/
theorem portWrite_fails {sd : Side} {n : Nat} {ds : List Draw} (hne : q ≠ []) (h : s.env.draws = .fails n :: ds) :
    portWrite sd q s = .ended ((s.setEnv { s.env with log := s.env.log ++ writeOutputs sd (q.take n), draws := ds }).ioFailure
      (writeCause sd)) := by
  rw [portWrite, if_neg hne, call_fails _ _ _ h, send_log]

/-- A TimerDisarm that fails does nothing but halt (R207, R263). -/
theorem timerDisarm_fails {n : Nat} {ds : List Draw} (h : s.env.draws = .fails n :: ds) :
    timerDisarm d s = .ended ((s.setEnv { s.env with draws := ds }).ioFailure .timer) := call_fails _ _ _ h

/-! ## DIR_FLUSH -/

theorem dirFlush_below (h : s.idle.get d < s.params.idleThreshold) : dirFlush d s = .ok () s := if_neg (Nat.not_le.2 h)

/-- Settles O28, by whether the threshold is reached. -/
theorem dirFlushForwardsOneBurst : Obligations.DirFlushForwardsOneBurst := fun _ _ _ hq hc =>
  ⟨fun h => congrArg Run.finish (dirFlush_ok hq hc h), fun h => congrArg Run.finish (dirFlush_below h)⟩

/-- The ring that a drain of `q` leaves at `rb[d]` (40_ring_buffer.md R152). -/
def State.drainedRing (s : State) (d : Side) (q : List Byte) : Ring :=
  { buf := [], rd := ((s.rb.get d).rd + q.length) % s.params.ringCap, wr := (s.rb.get d).wr, count := 0 }

/-- A due flush drains, writes and disarms (R223). -/
theorem dirFlush_due (hq : s.Queue d q) (ht : s.params.idleThreshold ≤ s.idle.get d) :
    dirFlush d s = (portWrite d.opp q (s.setRb d (s.drainedRing d q))).bind fun _ s2 =>
      timerDisarm d ((s2.setIdle d 0).setLastCount d 0) := by
  obtain ⟨r, hr, -, rfl⟩ := rbDrainAll_spec hq
  rw [dirFlush, if_pos ht, hr, Run.bind_ok]
  rfl

/-- Settles O29: the write of a burst that is not empty, or the TimerDisarm that comes after any burst. -/
theorem failedBurstWriteHalts : Obligations.FailedBurstWriteHalts := by
  intro s d q n ds hq ht
  refine ⟨fun hne hds => ?_, fun hds => ?_⟩
  · have hr := (dirFlush_due hq ht).trans
      (congrArg (Run.bind · _) (portWrite_fails (s := s.setRb d (s.drainedRing d q)) (sd := d.opp) hne hds))
    refine (congrArg Run.finish hr).trans ?_
    cases d <;> rfl
  · by_cases hne : q = []
    · subst hne
      have hr := (dirFlush_due hq ht).trans
        (timerDisarm_fails (d := d) (s := ((s.setRb d (s.drainedRing d [])).setIdle d 0).setLastCount d 0) hds)
      simp only [writeOutputs, if_true, List.append_nil]
      exact congrArg Run.finish hr
    · rw [if_neg hne] at hds
      have hr := dirFlush_due hq ht
      rw [portWrite_next (s := s.setRb d (s.drainedRing d q)) (.of_draws hds) hne, Run.bind_ok,
        timerDisarm_fails (n := n) (ds := ds) (congrArg List.tail hds)] at hr
      rw [writeOutputs, if_neg hne]
      exact congrArg Run.finish hr

/-! ## NORMAL_SERVICE -/

theorem exec_normalService : exec (.normalService d) s = (normalService d s).finish := rfl

/-- Settles O30: the phase tells whether a step of the service halted (`Run.Paced`), and then the rest does not run. -/
theorem normalServiceRunsItsFourSteps : Obligations.NormalServiceRunsItsFourSteps := by
  intro s s1 s2 s3 d hp h1
  obtain ⟨hhalt1, hret1⟩ := (dirPoll_paced d).of_finish hp h1
  simp only [exec_normalService, normalService]
  refine ⟨fun g => by rw [hhalt1 g, Run.bind_ended, Run.finish_ended], fun g h2 => ?_⟩
  rw [(hret1 g).1, Run.bind_ok]
  obtain ⟨hhalt2, hret2⟩ := (dirSizeCheck_paced d).of_finish g h2
  refine ⟨fun g2 => by rw [hhalt2 g2, Run.bind_ended, Run.finish_ended], fun g2 h3 => ?_⟩
  cases h3
  rw [(hret2 g2).1, Run.bind_ok]
  rfl

/-- Settles O32. -/
theorem normalServiceHoldsOrForwards : Obligations.NormalServiceHoldsOrForwards := by
  intro s d q hq hc hdrop
  obtain ⟨t, hr, -, ht, hout⟩ := normalService_ok hq hc hdrop
  exact ⟨t, congrArg Run.finish hr, ht, hout⟩

end Sys2Proof.Machine
end

section
/-! PROOFS. O31 and O37, which compare two runs. A change of state `g` passes through an operation when the operation does the same
after it: it ends in the same way, in the changed states. -/

namespace Sys2Proof.Machine

variable {α β : Type} {s : State} {d : Side} {g : State → State}

/-- The same end, in the changed state. -/
def Run.map (g : State → State) : Run α → Run α
  | .ok a s => .ok a (g s)
  | .ended s => .ended (g s)
  | .fault f => .fault f

/-- The change `g` passes through `op`: `op` neither reads what `g` changes nor writes it. -/
def PassesThrough (g : State → State) (op : State → Run α) : Prop := ∀ s, op (g s) = (op s).map g

namespace PassesThrough

theorem bind {op : State → Run α} {k : α → State → Run β} (h : PassesThrough g op) (hk : ∀ a, PassesThrough g (k a)) :
    PassesThrough g fun s => (op s).bind k := fun s => by
  simp only [h s]
  cases op s with
  | ok a t => exact hk a t
  | ended t => rfl
  | fault f => rfl

/-- A primitive call: the change is none of the coming draws, and passes both through the success and through the halt. -/
theorem call {c : IoCause} {failed : Nat → Env → Env} {done : State → Run α} (hd : ∀ s, (g s).env.draws = s.env.draws)
    (hok : ∀ s, done (g s).takeDraw = (done s.takeDraw).map g)
    (hfail : ∀ s n ds, ((g s).setEnv (failed n { (g s).env with draws := ds })).ioFailure c =
      g ((s.setEnv (failed n { s.env with draws := ds })).ioFailure c)) :
    PassesThrough g (Machine.call c failed done) := fun s => by
  by_cases hn : s.NextSucceeds
  · have hgn : (g s).NextSucceeds := fun n ds => hd s ▸ hn n ds
    rw [call_next hn, call_next hgn]
    exact hok s
  · simp only [State.NextSucceeds, not_forall, not_not] at hn
    obtain ⟨n, ds, hds⟩ := hn
    rw [call_fails _ _ _ hds, call_fails _ _ _ ((hd s).trans hds)]
    exact congrArg Run.ended (hfail s n ds)

/-- The outcome of a step of its own. -/
theorem finish {op : State → Run Unit} (h : PassesThrough g op) {t : State} (ht : (op s).finish = .next t) :
    (op (g s)).finish = .next (g t) := by
  rw [h s]
  rcases Run.finish_eq_next ht with hr | hr <;> rw [hr] <;> rfl

end PassesThrough

/-! ## The service of one direction (R224) -/

/-- Other values for what direction `d.opp` has to itself. -/
def State.withOpposite (d : Side) (r : Ring) (n l : Nat) (x : Bool) (s : State) : State :=
  (((s.setRb d.opp r).setIdle d.opp n).setLastCount d.opp l).setExp d.opp x

theorem onRing_ok {f : Nat → Ring → Except Fault (α × Ring)} {a : α} {r : Ring}
    (h : f s.params.ringCap (s.rb.get d) = .ok (a, r)) : onRing d f s = .ok a (s.setRb d r) := by
  simp only [onRing, h]

theorem onRing_error {f : Nat → Ring → Except Fault (α × Ring)} {e : Fault}
    (h : f s.params.ringCap (s.rb.get d) = .error e) : onRing d f s = .fault e := by
  simp only [onRing, h]

section Opposite

variable {r : Ring} {n l : Nat} {x : Bool}

@[simp] theorem withOpposite_params : (s.withOpposite d r n l x).params = s.params := rfl

theorem withOpposite_env : (s.withOpposite d r n l x).env = s.env := rfl

@[simp] theorem withOpposite_rb_get : (s.withOpposite d r n l x).rb.get d = s.rb.get d := by cases d <;> rfl

@[simp] theorem withOpposite_exp_get : (s.withOpposite d r n l x).exp.get d = s.exp.get d := by cases d <;> rfl

@[simp] theorem withOpposite_idle_get : (s.withOpposite d r n l x).idle.get d = s.idle.get d := by cases d <;> rfl

theorem withOpposite_setEnv (e : Env) :
    (s.withOpposite d r n l x).setEnv e = (s.setEnv e).withOpposite d r n l x := rfl

theorem withOpposite_ioFailure (c : IoCause) :
    (s.withOpposite d r n l x).ioFailure c = (s.ioFailure c).withOpposite d r n l x := rfl

/-- A call reads and writes the environment, which is not the other direction's. -/
theorem call_opposite {c : IoCause} {failed : Nat → Env → Env} {done : State → Run α}
    (hok : ∀ s, done (s.withOpposite d r n l x) = (done s).map (State.withOpposite d r n l x)) :
    PassesThrough (State.withOpposite d r n l x) (call c failed done) :=
  .call (fun _ => rfl) (fun s => hok s.takeDraw) fun s k ds => by
    rw [withOpposite_env, withOpposite_setEnv, withOpposite_ioFailure]

/-- An operation on `rb[d]` returns and fails as the ring of `d` says. -/
theorem onRing_opposite {f : Nat → Ring → Except Fault (α × Ring)} :
    PassesThrough (State.withOpposite d r n l x) (onRing d f) := fun s => by
  rcases hf : f s.params.ringCap (s.rb.get d) with e | ⟨a, r'⟩
  · rw [onRing_error hf, onRing_error (by simpa using hf)]
    rfl
  · rw [onRing_ok hf, onRing_ok (r := r') (a := a) (by simpa using hf)]
    cases d <;> rfl

theorem enqueueAll_opposite (bytes : List Byte) :
    PassesThrough (State.withOpposite d r n l x) (enqueueAll d bytes) := by
  induction bytes with
  | nil => exact fun _ => rfl
  | cons b bs ih =>
    refine onRing_opposite.bind fun ok s => ?_
    have := ih (if ok then s else s.setDrop d (nextDrop s.params (s.drop.get d)))
    cases ok <;> exact this

theorem portReadNB_opposite (m : Nat) : PassesThrough (State.withOpposite d r n l x) (portReadNB d m) :=
  call_opposite fun _ => rfl

theorem dirPoll_opposite : PassesThrough (State.withOpposite d r n l x) (dirPoll d) := fun s =>
  (portReadNB_opposite s.params.rxChunk).bind
    (fun bytes s => enqueueAll_opposite bytes (s.setArrived d bytes.length)) s

theorem timerArm_opposite : PassesThrough (State.withOpposite d r n l x) (timerArm d) :=
  call_opposite fun _ => by cases d <;> rfl

theorem timerDisarm_opposite : PassesThrough (State.withOpposite d r n l x) (timerDisarm d) :=
  call_opposite fun _ => by cases d <;> rfl

theorem portWrite_opposite (sd : Side) (bytes : List Byte) :
    PassesThrough (State.withOpposite d r n l x) (portWrite sd bytes) := fun s => by
  by_cases hb : bytes = []
  · subst hb
    rfl
  · rw [portWrite, portWrite, if_neg hb, if_neg hb]
    exact call_opposite (fun s => by rw [withOpposite_env, withOpposite_setEnv]; rfl) s

theorem dirSizeCheck_opposite : PassesThrough (State.withOpposite d r n l x) (dirSizeCheck d) := fun s => by
  have hiff : (s.withOpposite d r n l x).restartsRun d = s.restartsRun d := by cases d <;> rfl
  by_cases h : s.restartsRun d = true
  · rw [dirSizeCheck_restart h, dirSizeCheck_restart (hiff.trans h), withOpposite_rb_get, ← timerArm_opposite]
    cases d <;> rfl
  · rw [dirSizeCheck_keep h, dirSizeCheck_keep (hiff ▸ h)]
    rfl

theorem dirExpiry_opposite (s : State) :
    dirExpiry d (s.withOpposite d r n l x) = (dirExpiry d s).withOpposite d r n l x := by
  cases hx : s.exp.get d with
  | false => rw [dirExpiry_clear hx, dirExpiry_clear (by simpa using hx)]
  | true =>
    rcases Nat.eq_zero_or_pos (s.rb.get d).count with hc | hc
    · rw [dirExpiry_empty hx hc, dirExpiry_empty (by simpa using hx) (by simpa using hc)]
      cases d <;> rfl
    · rw [dirExpiry_counts hx hc, dirExpiry_counts (by simpa using hx) (by simpa using hc), withOpposite_idle_get]
      cases d <;> rfl

theorem dirFlush_opposite : PassesThrough (State.withOpposite d r n l x) (dirFlush d) := fun s => by
  have hclear (t : State) : ((t.withOpposite d r n l x).setIdle d 0).setLastCount d 0 =
      ((t.setIdle d 0).setLastCount d 0).withOpposite d r n l x := by cases d <;> rfl
  have hdue : PassesThrough (State.withOpposite d r n l x) fun s => (rbDrainAll d s).bind fun burst s1 =>
      (portWrite d.opp burst s1).bind fun _ s2 => timerDisarm d ((s2.setIdle d 0).setLastCount d 0) :=
    onRing_opposite.bind fun burst => (portWrite_opposite d.opp burst).bind fun _ t => by
      rw [hclear]
      exact timerDisarm_opposite _
  simp only [dirFlush, withOpposite_idle_get, withOpposite_params]
  split
  · exact hdue s
  · rfl

theorem normalService_opposite : PassesThrough (State.withOpposite d r n l x) (normalService d) :=
  dirPoll_opposite.bind fun _ => dirSizeCheck_opposite.bind fun _ s => by
    rw [dirExpiry_opposite]
    exact dirFlush_opposite _

end Opposite

/-- Settles O31: the other direction's values pass through each step of the service. -/
theorem normalServiceIsIndependent : Obligations.NormalServiceIsIndependent := fun _ _ _ _ _ _ _ ht =>
  normalService_opposite.finish ht

end Sys2Proof.Machine
end

section
/-! PROOFS. O50 and O51: the control loop once HALTED or REFUSED (42_bridge_controller.md R243). Whatever the loop is asked for stops;
an event still runs, and the environment still moves. -/

namespace Sys2Proof.Machine

variable {s t : State} {i : Instr} {rest : List Move}

/-- The step of a state that issues an instruction. -/
theorem State.Issues.step_eq (h : s.Issues i rest) : step s = issue i (s.setAgenda rest) := by
  cases h with
  | idle ha =>
    have hs : s.setAgenda [] = s := by rw [State.setAgenda, ← ha]
    rw [hs, step, ha]
    rfl
  | loop ha =>
    rw [step, ha]
    rfl
  | word ha hw => simp only [step, ha, takeMove, runWord, hw]

@[simp] theorem isEvent_nextOfPhase (p : Phase) : isEvent (nextOfPhase p) = false := by cases p <;> rfl

theorem issue_event (h : isEvent i = true) : issue i s = exec i s := if_pos h

theorem issue_halted (h : isEvent i = false) (hp : s.phase = .halted) : issue i s = .fault (.ioHalted s.status.cause) := by
  rw [issue, if_neg (by simp [h]), issueLoop, hp]

theorem issue_refused (h : isEvent i = false) (hp : s.phase = .refused) :
    issue i s = .refused (.unimplementedMode s.refusedMark) := by
  rw [issue, if_neg (by simp [h]), issueLoop, hp]

/-- Settles O50: each of the three ways to ask the loop for a step issues an operation that is no event. -/
theorem haltedAndRefusedLoopsStop : Obligations.HaltedAndRefusedLoopsStop := by
  intro s hs
  obtain ⟨i, rest, hi, hev⟩ : ∃ i rest, s.Issues i rest ∧ isEvent i = false := by
    rcases hs with ha | ⟨rest, ha⟩ | ⟨w, i, rest, ha, hw, hev⟩
    · exact ⟨_, _, .idle ha, isEvent_nextOfPhase _⟩
    · exact ⟨_, _, .loop ha, isEvent_nextOfPhase _⟩
    · exact ⟨i, rest, .word ha hw, hev⟩
  exact ⟨fun hp => hi.step_eq.trans (issue_halted hev hp), fun hp => hi.step_eq.trans (issue_refused hev hp)⟩

/-- A step that answers a next state issued an instruction, or changed inputs of the environment, its log excepted. -/
theorem step_next (h : step s = .next t) :
    (∃ i rest, s.Issues i rest ∧ issue i (s.setAgenda rest) = .next t) ∨
      ∃ rest e, t = (s.setAgenda rest).setEnv e ∧ e.log = s.env.log := by
  have hstep {i rest} (hi : s.Issues i rest) : issue i (s.setAgenda rest) = .next t := hi.step_eq.symm.trans h
  rcases ha : s.agenda with _ | ⟨m, rest⟩
  · exact .inl ⟨_, _, .idle ha, hstep (.idle ha)⟩
  · cases m with
    | loop => exact .inl ⟨_, _, .loop ha, hstep (.loop ha)⟩
    | run w =>
      cases hw : decode w with
      | ok i => exact .inl ⟨_, _, .word ha hw, hstep (.word ha hw)⟩
      | error r => cases r <;> simp [step, ha, takeMove, runWord, hw] at h
    | lines ms0 ms1 =>
      rw [step, ha] at h
      cases h
      exact .inr ⟨rest, _, rfl, rfl⟩
    | draws ds =>
      rw [step, ha] at h
      cases h
      exact .inr ⟨rest, _, rfl, rfl⟩

/-- From `s` to `t` only pending expiries, the environment but its log, and the agenda differ. -/
def State.OnlyEventsSince (s t : State) : Prop :=
  t = { s with exp := t.exp, env := t.env, agenda := t.agenda } ∧ t.env.log = s.env.log

/-- An event is a reset, or nothing of the block but a pending expiry comes of it (60_exceptions.md R268, R269). -/
theorem exec_event_onlyEventsSince (h : isEvent i = true) (hi : i ≠ .evReset) (ht : exec i s = .next t) : s.OnlyEventsSince t := by
  cases i with
  | evTimerExpire d =>
    cases ht
    by_cases ha : s.armed.get d = true
    · rw [if_pos ha]
      exact ⟨rfl, rfl⟩
    · rw [if_neg ha]
      exact ⟨rfl, rfl⟩
  | evRxByte sd b =>
    cases ht
    exact ⟨rfl, rfl⟩
  | evReset => exact absurd rfl hi
  | _ => cases h

/-- Settles O51: in HALTED and REFUSED only an event answers a next state, and of the events only EV_RESET moves the phase. -/
theorem haltAndRefusalAreSticky : Obligations.HaltAndRefusalAreSticky := by
  intro s t hp ht
  rcases step_next ht with ⟨i, rest, hi, hissue⟩ | ⟨rest, e, rfl, he⟩
  · cases hev : isEvent i with
    | false =>
      rcases hp with hp | hp
      · exact absurd ((issue_halted (s := s.setAgenda rest) hev hp).symm.trans hissue) nofun
      · exact absurd ((issue_refused (s := s.setAgenda rest) hev hp).symm.trans hissue) nofun
    | true =>
      rw [issue_event hev] at hissue
      by_cases hr : i = .evReset
      · subst hr
        cases hissue
        exact .inr ⟨rfl, rest, hi.evReset rfl⟩
      · obtain ⟨heq, hlog⟩ := exec_event_onlyEventsSince hev hr hissue
        exact .inl ⟨heq, hlog⟩
  · exact .inl ⟨rfl, he⟩

end Sys2Proof.Machine
end

section
/-! PROOFS. O33 to O38 and O60: Sleep mode (42_bridge_controller.md R230 to R236). A Sleep step holds, collects or completes a frame;
the exchange that follows is said call by call, so that a draw that fails can stop it at any of them. -/

namespace Sys2Proof.Machine

variable {s u : State} {fr got resp : List Byte} {n : Nat} {ds : List Draw}

/-! ## Calls of the exchange -/

/-- The device part of `LineSet(STATUS, v)` (R205). -/
def State.lineAt (s : State) (v : Bool) : State :=
  { s with statusOut := v, env := { s.env with log := s.env.log ++ [.statusSet v], draws := s.env.draws.tail } }

theorem lineSet_next (h : s.NextSucceeds) (v : Bool) : lineSet v s = .ok () (s.lineAt v) := (call_next h).trans rfl

theorem lineSet_fails (h : s.env.draws = .fails n :: ds) (v : Bool) :
    lineSet v s = .ended ((s.setEnv { s.env with
      log := s.env.log ++ (if n = 0 then [] else [.statusSet v]), draws := ds }).ioFailure .line) := by
  rw [lineSet, call_fails _ _ _ h]
  by_cases hn : n = 0 <;> simp [hn, Env.emit]

/-! ## The command of an exchange -/

/-- The answer and the record of a command depend on the parameters and the record only, and it writes the record only (R174). -/
theorem cfgInputCommand_eq (f : List Byte) (hp : u.params = s.params) (hc : u.cfg = s.cfg) :
    cfgInputCommand f u = ((cfgInputCommand f s).1, u.setCfg (cfgInputCommand f s).2.cfg) := by
  have hsame : u = u.setCfg s.cfg := by rw [State.setCfg, ← hc]
  unfold cfgInputCommand
  generalize decodeFrame f = i
  cases i with
  | cmdWrite a b c d e => simp only [cmdWrite, hp]; rfl
  | cmdRead => simp only [cmdRead, hp, hc, ← hsame]
  | _ => simp only [cmdInvalid, hp, ← hsame]

/-- Every command is answered by some bytes (30_encoding.md R119 to R121). -/
theorem cfgInputCommand_ne_nil (f : List Byte) (s : State) : (cfgInputCommand f s).1 ≠ [] := by
  unfold cfgInputCommand
  generalize decodeFrame f = i
  cases i with
  | cmdWrite a b c d e => exact List.cons_ne_nil _ _
  | cmdRead => exact List.cons_ne_nil _ _
  | _ => exact List.cons_ne_nil _ _

/-- So CFG_INPUT_COMMAND as a step of its own tells what the same command does inside an exchange. -/
theorem cfgInputCommand_of_exec {f : List Byte} (hu : exec (.cfgInputCommand f) s = .next u) (hr : u.result = .byteSeq resp)
    (s1 : State) (hp : s1.params = s.params) (hc : s1.cfg = s.cfg) :
    cfgInputCommand f s1 = (resp, s1.setCfg u.cfg) := by
  cases hu
  injection hr with hr
  rw [cfgInputCommand_eq f hp hc, hr]
  rfl

/-! ## The exchange, call by call (R233) -/

/-- With the status line low and the record `c` the command left, before the answer is written. -/
def State.commandRun (s : State) (c : ConfigRecord) : State := (s.lineAt false).setCfg c

/-- After the answer `resp` is written. -/
def State.answered (s : State) (c : ConfigRecord) (resp : List Byte) : State :=
  (s.commandRun c).setEnv { (s.commandRun c).env with
    log := (s.commandRun c).env.log ++ [.wrote .H resp], draws := (s.commandRun c).env.draws.tail }

theorem exchange_lineFails {f : List Byte} (hf : s.FrameHeld f) (hle : f.length ≤ scratchSize)
    (hds : s.env.draws = .fails n :: ds) :
    exchange s = .ended ((s.setEnv { s.env with
      log := s.env.log ++ (if n = 0 then [] else [.statusSet false]), draws := ds }).ioFailure .line) := by
  simp only [exchange, hf.readAll hle, lineSet_fails hds, Run.bind_ended]

section Exchange

variable {f : List Byte} {c : ConfigRecord} (hf : s.FrameHeld f) (hle : f.length ≤ scratchSize)
  (hcmd : cfgInputCommand f s = (resp, s.setCfg c)) (h : s.NextSucceeds)
include hf hle hcmd h

theorem exchange_commandRun :
    exchange s = (portWrite .H resp (s.commandRun c)).bind fun _ s2 =>
      (lineSet true s2).bind fun _ s3 => .ok () s3.clearScratch := by
  simp only [exchange, hf.readAll hle, lineSet_next h, Run.bind_ok, cfgInputCommand_eq (s := s) (u := s.lineAt false) f rfl rfl,
    hcmd]
  rfl

theorem exchange_writeFails (hds : s.env.draws.tail = .fails n :: ds) :
    exchange s = .ended (((s.commandRun c).setEnv { (s.commandRun c).env with
      log := (s.commandRun c).env.log ++ writeOutputs .H (resp.take n), draws := ds }).ioFailure .wrH) := by
  have hne : resp ≠ [] := by simpa [hcmd] using cfgInputCommand_ne_nil f s
  rw [exchange_commandRun hf hle hcmd h, portWrite_fails hne (s := s.commandRun c) hds, Run.bind_ended]
  rfl

theorem exchange_answered (h1 : (s.commandRun c).NextSucceeds) :
    exchange s = (lineSet true (s.answered c resp)).bind fun _ s3 => .ok () s3.clearScratch := by
  have hne : resp ≠ [] := by simpa [hcmd] using cfgInputCommand_ne_nil f s
  rw [exchange_commandRun hf hle hcmd h, portWrite_next h1 hne, Run.bind_ok]
  rfl

end Exchange

/-! ## The Sleep step -/

/-- After the read of a Sleep step has appended `got` to the frame `fr`; the scratch buffer is then `m`. -/
def State.afterRead (s : State) (fr got : List Byte) (m : Memory) : State :=
  { s with
    scratch := m
    scratchLen := (fr ++ got).length
    env := { s.env with rxq := s.env.rxq.set .H (s.env.rxq.h.drop (needAfter fr)), draws := s.env.draws.tail } }

theorem resumed_phase (s : State) : s.resumed = s.setPhase (if s.phase = .sleepWait then .run else s.phase) := by
  unfold State.resumed
  split <;> rfl

/-- With no byte there the step holds (R201). -/
theorem sleepStep_hold (hf : s.FrameHeld fr) (hrx : s.env.rxq.h = []) : sleepStep s = .ended (s.setPhase .sleepWait) := by
  rw [sleepStep, hf.sleepNeed]
  simp only [portReadB_hold _ hrx, Run.bind_ended]

/-- A Sleep read that gets bytes stays within the frame, and the exchange runs exactly when they complete it (R230, R231). -/
theorem sleepStep_read (hf : s.FrameHeld fr) (ho : frameOpen fr = true) (hn : s.NextSucceeds) (hrx : s.env.rxq.h ≠ [])
    (hgot : got = s.env.rxq.h.take (needAfter fr)) :
    (got ≠ [] ∧ got.length ≤ needAfter fr) ∧
      ∃ m, (s.afterRead fr got m).FrameHeld (fr ++ got) ∧
        sleepStep s = (if frameComplete (fr ++ got) = true then exchange (s.afterRead fr got m)
          else .ok () (s.afterRead fr got m)).bind fun _ t => .ok () t.resumed := by
  have hne : got ≠ [] := by
    have := needAfter_pos ho
    simp only [hgot, ne_eq, List.take_eq_nil_iff, not_or]
    exact ⟨by omega, hrx⟩
  have hle : got.length ≤ needAfter fr := hgot ▸ List.length_take_le _ _
  have hread : portReadB .H (needAfter fr) s = .ok got (s.setEnv { s.env with
      rxq := s.env.rxq.set .H (s.env.rxq.h.drop (needAfter fr)), draws := s.env.draws.tail }) := by
    rw [portReadB_read _ hrx, hgot]
    exact call_next hn
  obtain ⟨m, hm, htake⟩ := takeFrameBytes_spec (s := s.setEnv { s.env with
      rxq := s.env.rxq.set .H (s.env.rxq.h.drop (needAfter fr)), draws := s.env.draws.tail }) (hf.congr rfl rfl) ho hne hle
  have hafter : ({ s.setEnv { s.env with rxq := s.env.rxq.set .H (s.env.rxq.h.drop (needAfter fr)), draws := s.env.draws.tail } with
      scratch := m, scratchLen := s.scratchLen + got.length } : State) = s.afterRead fr got m := by
    rw [State.afterRead, List.length_append, ← hf.len_eq]
    rfl
  refine ⟨⟨hne, hle⟩, m, hafter ▸ hm, ?_⟩
  simp only [sleepStep, hf.sleepNeed, hread, Run.bind_ok, htake]
  rw [← hafter]
  rfl

/-- Settles O33. -/
theorem sleepStepHoldsWithoutAByte : Obligations.SleepStepHoldsWithoutAByte := fun _ _ hf _ hrx =>
  congrArg Run.finish (sleepStep_hold hf hrx)

/-- Settles O34: a frame that is open is not complete, so no exchange runs. -/
theorem sleepStepCollectsTheFrame : Obligations.SleepStepCollectsTheFrame := by
  intro s fr got hf ho hc hrx hgot
  obtain ⟨⟨hne, hle⟩, m, hm, hstep⟩ := sleepStep_read hf ho hc.next hrx hgot
  refine ⟨frame_open_or_complete ho hne hle, fun hop => ?_⟩
  have hnc : ¬ frameComplete (fr ++ got) = true := by
    obtain ⟨b, bs, hb, -⟩ := frame_grows ho hne hle
    rw [hb] at hop ⊢
    have hlt := of_decide_eq_true hop
    exact fun hcomplete => absurd (of_decide_eq_true hcomplete) hlt.ne
  rw [if_neg hnc, Run.bind_ok, resumed_phase] at hstep
  exact ⟨_, congrArg Run.finish hstep, hm.congr rfl rfl, by rw [List.drop_one]; rfl⟩

/-- A frame held that a Sleep read has not gone beyond fits the scratch buffer. -/
theorem frame_fits (ho : frameOpen fr = true) (hne : got ≠ []) (hle : got.length ≤ needAfter fr) :
    (fr ++ got).length ≤ scratchSize := by
  obtain ⟨b, bs, hb, hlen⟩ := frame_grows ho hne hle
  exact hb ▸ hlen.trans (frameLen_le b)

/-- Settles O35: the exchange runs call by call to its end. -/
theorem sleepStepRunsTheExchange : Obligations.SleepStepRunsTheExchange := by
  intro s u fr got resp hf ho hc hrx hgot hcomplete hu hr
  obtain ⟨⟨hne, hle⟩, m, hm, hstep⟩ := sleepStep_read hf ho hc.next hrx hgot
  have hcmd := cfgInputCommand_of_exec hu hr (s.afterRead fr got m) rfl rfl
  have hc1 : (s.afterRead fr got m).CallsSucceed := hc.of_tail rfl
  have hc2 : ((s.afterRead fr got m).commandRun u.cfg).CallsSucceed := hc1.of_tail rfl
  have hc3 : ((s.afterRead fr got m).answered u.cfg resp).CallsSucceed := hc2.of_tail rfl
  have hdraws : s.env.draws.tail.tail.tail.tail = s.env.draws.drop 4 := by simp [← List.drop_one]
  have hlog : s.env.log ++ [Output.statusSet false] ++ [Output.wrote .H resp] ++ [Output.statusSet true] =
      s.env.log ++ [Output.statusSet false, Output.wrote .H resp, Output.statusSet true] := by simp
  rw [if_pos hcomplete, exchange_answered hm (frame_fits ho hne hle) hcmd hc1.next hc2.next, lineSet_next hc3.next] at hstep
  simp only [Run.bind_ok, resumed_phase] at hstep
  exact ⟨_, congrArg Run.finish hstep, by rw [← hdraws, ← hlog]; rfl⟩

/-- Settles O60, call by call; the read before the exchange takes the first draw. -/
theorem failedExchangeCallHalts : Obligations.FailedExchangeCallHalts := by
  intro s u fr got resp n ds hf ho hrx hgot hcomplete hu hr
  -- every clause begins with a read that succeeds
  have hread {rest : List Draw} (hds : s.env.draws = .ok :: rest) :
      ∃ m, (s.afterRead fr got m).FrameHeld (fr ++ got) ∧ (s.afterRead fr got m).env.draws = rest ∧
        (fr ++ got).length ≤ scratchSize ∧
        cfgInputCommand (fr ++ got) (s.afterRead fr got m) = (resp, (s.afterRead fr got m).setCfg u.cfg) ∧
        sleepStep s = (exchange (s.afterRead fr got m)).bind fun _ t => .ok () t.resumed := by
    obtain ⟨⟨hne, hle⟩, m, hm, hstep⟩ := sleepStep_read hf ho (.of_draws hds) hrx hgot
    rw [if_pos hcomplete] at hstep
    exact ⟨m, hm, congrArg List.tail hds, frame_fits ho hne hle, cfgInputCommand_of_exec hu hr _ rfl rfl, hstep⟩
  refine ⟨fun hds => ?_, fun hds => ?_, fun hds => ?_⟩
  · obtain ⟨m, hm, hd, hfit, -, hstep⟩ := hread hds
    rw [exchange_lineFails hm hfit hd, Run.bind_ended] at hstep
    exact ⟨_, congrArg Run.finish hstep, hm.congr rfl rfl, rfl⟩
  · obtain ⟨m, hm, hd, hfit, hcmd, hstep⟩ := hread hds
    have hlog : s.env.log ++ [Output.statusSet false] ++ writeOutputs .H (resp.take n) =
        s.env.log ++ Output.statusSet false :: writeOutputs .H (resp.take n) := by simp
    rw [exchange_writeFails hm hfit hcmd (.of_draws hd) (congrArg List.tail hd), Run.bind_ended] at hstep
    exact ⟨_, congrArg Run.finish hstep, hm.congr rfl rfl, by rw [← hlog]; rfl⟩
  · obtain ⟨m, hm, hd, hfit, hcmd, hstep⟩ := hread hds
    have hd1 : ((s.afterRead fr got m).commandRun u.cfg).env.draws = .ok :: .fails n :: ds := congrArg List.tail hd
    have hd2 : ((s.afterRead fr got m).answered u.cfg resp).env.draws = .fails n :: ds := congrArg List.tail hd1
    have hlog : s.env.log ++ [Output.statusSet false] ++ [Output.wrote .H resp] ++ (if n = 0 then [] else [Output.statusSet true]) =
        s.env.log ++ [Output.statusSet false, Output.wrote .H resp] ++ (if n = 0 then [] else [Output.statusSet true]) := by simp
    rw [exchange_answered hm hfit hcmd (.of_draws hd) (.of_draws hd1), lineSet_fails hd2] at hstep
    exact ⟨_, congrArg Run.finish hstep, hm.congr rfl rfl, by rw [← hlog]; rfl⟩

/-- Settles O36. -/
theorem unimplStepMarksTheRefusal : Obligations.UnimplStepMarksTheRefusal := fun _ _ => rfl

/-! ## The hold (R201, R234) -/

/-- While the loop holds, its own step is the Sleep step. -/
theorem step_of_wait (hp : s.phase = .sleepWait) (ha : s.agenda = []) : step s = (sleepStep s).finish := by
  rw [step, ha]
  simp only [loopStep, hp, nextOfPhase, issue, issueLoop]
  rfl

/-- Settles O38: the step holds, in the phase it had. -/
theorem holdLastsUntilAByteArrives : Obligations.HoldLastsUntilAByteArrives := by
  intro s hs hp hrx ha
  obtain ⟨fr, hf, -⟩ := hs.openFrame (by simp [hp])
  rw [step_of_wait hp ha, sleepStep_hold hf hrx, Run.finish_ended, State.setPhase, ← hp]

end Sys2Proof.Machine
end

section
/-! PROOFS. O37: the levels of the mode-select inputs pass through a Sleep step, which samples no input (42_bridge_controller.md R234). -/

namespace Sys2Proof.Machine

variable {α : Type} {s : State} {a b : Bool}

/-- Other levels on the two mode-select inputs. -/
def Env.withLines (a b : Bool) (e : Env) : Env := { e with ms0 := a, ms1 := b }

/-- An operation that does the same whatever the levels are. -/
def IgnoresLines (a b : Bool) (op : State → Run α) : Prop := PassesThrough (State.withLines · a b) op

theorem call_lines {c : IoCause} {failed : Nat → Env → Env} {done : State → Run α}
    (hok : ∀ s, done (s.withLines a b) = (done s).map (State.withLines · a b))
    (hfail : ∀ n e, failed n (e.withLines a b) = (failed n e).withLines a b) : IgnoresLines a b (call c failed done) :=
  .call (fun _ => rfl) (fun s => hok s.takeDraw) fun s n ds => by
    have he := hfail n { s.env with draws := ds }
    exact congrArg (fun e => ((s.setEnv e).ioFailure c)) he

theorem send_withLines (sd : Side) (bytes : List Byte) (e : Env) :
    (e.withLines a b).send sd bytes = (e.send sd bytes).withLines a b := by
  rw [send_log, send_log]
  rfl

theorem portReadNB_lines (sd : Side) (n : Nat) : IgnoresLines a b (portReadNB sd n) :=
  call_lines (fun _ => rfl) fun _ _ => rfl

theorem portReadB_lines (n : Nat) : IgnoresLines a b (portReadB .H n) := fun s => by
  by_cases hrx : s.env.rxq.h = []
  · rw [portReadB_hold n hrx, portReadB_hold n (show (s.withLines a b).env.rxq.h = [] from hrx)]
    rfl
  · rw [portReadB_read n hrx, portReadB_read n (show (s.withLines a b).env.rxq.h ≠ [] from hrx)]
    exact portReadNB_lines .H n s

theorem portWrite_lines (sd : Side) (bytes : List Byte) : IgnoresLines a b (portWrite sd bytes) := fun s => by
  by_cases hb : bytes = []
  · subst hb
    rfl
  · rw [portWrite, portWrite, if_neg hb, if_neg hb]
    refine call_lines (fun s => ?_) (fun n e => send_withLines sd _ e) s
    exact congrArg (fun e => Run.ok () (s.setEnv e)) (send_withLines sd bytes s.env)

theorem lineSet_lines (v : Bool) : IgnoresLines a b (lineSet v) :=
  call_lines (fun _ => rfl) fun n e => by
    by_cases hn : n = 0
    · rw [if_pos hn, if_pos hn]
    · rw [if_neg hn, if_neg hn]
      rfl

theorem cfgInputCommand_lines (f : List Byte) (s : State) :
    cfgInputCommand f (s.withLines a b) = ((cfgInputCommand f s).1, (cfgInputCommand f s).2.withLines a b) := by
  rw [cfgInputCommand_eq (s := s) (u := s.withLines a b) f rfl rfl, cfgInputCommand_eq (s := s) (u := s) f rfl rfl]
  rfl

theorem exchange_lines : IgnoresLines a b exchange := fun s => by
  have hrun (frame : List Byte) : IgnoresLines a b fun s => (lineSet false s).bind fun _ s1 =>
      (portWrite .H (cfgInputCommand frame s1).1 (cfgInputCommand frame s1).2).bind fun _ s2 =>
        (lineSet true s2).bind fun _ s3 => .ok () s3.clearScratch :=
    (lineSet_lines false).bind fun _ s1 => by
      rw [cfgInputCommand_lines]
      exact ((portWrite_lines _ _).bind fun _ => (lineSet_lines true).bind fun _ _ => rfl) _
  have hscratch : (s.withLines a b).scratch = s.scratch := rfl
  have hlen : (s.withLines a b).scratchLen = s.scratchLen := rfl
  cases hread : memReadMany s.scratch scratchSize s.scratchLen 0 with
  | error f => simp only [exchange, hscratch, hlen, hread]; rfl
  | ok frame => simp only [exchange, hscratch, hlen, hread]; exact hrun frame s

theorem takeFrameBytes_lines (bytes : List Byte) : IgnoresLines a b (takeFrameBytes bytes) := fun s => by
  have hscratch : (s.withLines a b).scratch = s.scratch := rfl
  have hlen : (s.withLines a b).scratchLen = s.scratchLen := rfl
  cases hw : memWriteMany s.scratch scratchSize bytes s.scratchLen with
  | error f => simp only [takeFrameBytes, hscratch, hlen, hw]; rfl
  | ok m =>
    cases hr : memRead m scratchSize 0 with
    | error f => simp only [takeFrameBytes, hscratch, hlen, hw, hr]; rfl
    | ok b0 =>
      simp only [takeFrameBytes, hscratch, hlen, hw, hr]
      by_cases hfull : s.scratchLen + bytes.length = frameLen b0
      · rw [if_pos hfull, if_pos hfull]
        exact exchange_lines { s with scratch := m, scratchLen := s.scratchLen + bytes.length }
      · rw [if_neg hfull, if_neg hfull]
        rfl

theorem sleepStep_lines : IgnoresLines a b sleepStep := fun s => by
  have hneed : sleepNeed (s.withLines a b) = sleepNeed s := rfl
  have hresumed (t : State) : (t.withLines a b).resumed = t.resumed.withLines a b := by
    rw [resumed_phase, resumed_phase]
    rfl
  cases h : sleepNeed s with
  | error f => simp only [sleepStep, hneed, h]; rfl
  | ok need =>
    simp only [sleepStep, hneed, h]
    exact ((portReadB_lines need).bind fun bytes => (takeFrameBytes_lines bytes).bind fun _ t => by
      rw [hresumed]
      rfl) s

/-- Settles O37: the step of a loop that holds is the Sleep step. -/
theorem heldLoopIgnoresTheLines : Obligations.HeldLoopIgnoresTheLines := by
  intro s t ms0 ms1 hp ha ht
  rw [step_of_wait hp ha] at ht
  rw [step_of_wait (s := s.withLines ms0 ms1) hp ha]
  exact sleepStep_lines.finish ht

end Sys2Proof.Machine
end

section
/-! PROOFS. O39 to O41: a tick as its steps (42_bridge_controller.md R240), and what a Normal tick does with the bytes of both
directions (R225). -/

namespace Sys2Proof.Machine

variable {s t : State} {m : Mode} {d : Side} {q : List Byte}

/-- Settles O40. -/
theorem tickAndStartupNeedTheirPhase : Obligations.TickAndStartupNeedTheirPhase := fun _ => ⟨fun h => if_neg h, fun h => if_neg h⟩

/-! ## A tick from RUN -/

/-- Returns in RUN, if it returns. -/
def Run.ReturnsInRun (r : Run Unit) : Prop := r.Ends (fun _ t => t.phase = .run) (fun _ => True) (fun _ => True)

theorem Run.Paced.returnsInRun {r : Run Unit} (h : r.Paced .run) : r.ReturnsInRun :=
  h.mono (fun _ _ => id) (fun _ _ => trivial) fun _ => id

/-- The last line of TICK has nothing to do then. -/
theorem Run.ReturnsInRun.bind_setPhase {r : Run Unit} (h : r.ReturnsInRun) :
    (r.bind fun _ t => .ok () (t.setPhase .run)) = r := by
  cases r with
  | ok a t => exact congrArg (Run.ok ()) (setPhase_self h)
  | ended t => rfl
  | fault f => rfl

theorem sleepStep_returnsInRun (hp : s.phase = .run) : (sleepStep s).ReturnsInRun := by
  unfold sleepStep
  split
  · trivial
  next need _ =>
    refine Run.Ends.bind (P := fun _ t => t.phase = .run) ?_ fun bytes s1 h1 => ?_
    · unfold portReadB
      split
      · trivial
      · exact Run.Ends.mono (portReadNB_paced .H need) (fun _ _ g => Eq.trans g hp) (fun _ _ => trivial) fun _ => id
    · refine Run.Ends.bind (Run.Ends.mono (takeFrameBytes_paced bytes) (fun _ _ g => Eq.trans g h1) (fun _ _ => trivial) fun _ => id)
        fun _ s2 h2 => ?_
      change s2.resumed.phase = .run
      rw [resumed_eq (.inl h2)]
      rfl

/-- Every body of a tick that returns leaves RUN. -/
theorem tickBody_returnsInRun (hp : s.phase = .run) : (tickBody m s).ReturnsInRun := by
  cases m with
  | normal =>
    refine Run.Paced.returnsInRun (Run.Paced.bind (hp ▸ normalService_paced .H) fun _ t ht => ?_)
    exact ht ▸ normalService_paced .P
  | sleep => exact sleepStep_returnsInRun hp
  | wakeUp => trivial
  | powerSaving => trivial

/-- A tick from RUN whose two line reads succeed is MODE_TRANSITION and the body of the mode the lines name (R240). -/
theorem tick_eq (hp : s.phase = .run) (h0 : s.NextSucceeds) (h1 : s.takeDraw.NextSucceeds) :
    tick s = (modeTransition (modeOfLines s.env.ms0 s.env.ms1) s.takeDraw.takeDraw).bind fun _ s1 =>
      tickBody (modeOfLines s.env.ms0 s.env.ms1) s1 := by
  have hr0 : lineReadMs0 s = .ok s.env.ms0 s.takeDraw := call_next h0
  have hr1 : lineReadMs1 s.takeDraw = .ok s.env.ms1 s.takeDraw.takeDraw := call_next h1
  rw [tick, hr0, Run.bind_ok, hr1, Run.bind_ok]
  have hpaced := modeTransition_paced (s := s.takeDraw.takeDraw) (modeOfLines s.env.ms0 s.env.ms1)
  cases hm : modeTransition (modeOfLines s.env.ms0 s.env.ms1) s.takeDraw.takeDraw with
  | ok a s1 =>
    rw [hm] at hpaced
    exact (tickBody_returnsInRun (Eq.trans hpaced hp)).bind_setPhase
  | ended s1 => rfl
  | fault f => rfl

theorem exec_tick (hp : s.phase = .run) : exec .tick s = (tick s).finish := if_pos hp

theorem takeDraw_takeDraw (s : State) : s.takeDraw.takeDraw = s.dropDraws 2 := by
  have hdraws : s.env.draws.tail.tail = s.env.draws.drop 2 := by simp [← List.drop_one]
  rw [State.dropDraws, ← hdraws]
  rfl

/-- The first two draws are successes. -/
theorem nextSucceeds_of_take_two (h : ∀ x ∈ s.env.draws.take 2, x = Draw.ok) : s.NextSucceeds ∧ s.takeDraw.NextSucceeds := by
  constructor
  · intro n ds hds
    have := h (.fails n) (by simp [hds])
    cases this
  · intro n ds hds
    have hds : s.env.draws.tail = .fails n :: ds := hds
    cases hs : s.env.draws with
    | nil => simp [hs] at hds
    | cons x xs =>
      rw [hs, List.tail_cons] at hds
      have := h (.fails n) (by simp [hs, hds])
      cases this

/-- Settles O39: the phase tells whether MODE_TRANSITION, or the service of H, ended the tick. -/
theorem tickRunsItsStepsInOrder : Obligations.TickRunsItsStepsInOrder := by
  intro s s1 m hp hdraws hm htrans
  obtain ⟨h0, h1⟩ := nextSucceeds_of_take_two hdraws
  have hm : modeOfLines s.env.ms0 s.env.ms1 = m := by
    injection hm with hm
    injection congrArg State.result hm
  have hpaced : (modeTransition m (s.dropDraws 2)).Paced .run := hp ▸ modeTransition_paced (s := s.dropDraws 2) m
  obtain ⟨hhalt, hret⟩ := hpaced.of_finish nofun htrans
  have htick : exec .tick s = ((modeTransition m (s.dropDraws 2)).bind fun _ s1 => tickBody m s1).finish := by
    rw [exec_tick hp, tick_eq hp h0 h1, takeDraw_takeDraw, hm]
  refine ⟨fun g => by rw [htick, hhalt g, Run.bind_ended, Run.finish_ended], fun g => ?_⟩
  obtain ⟨hrun, hp1⟩ := hret g
  rw [htick, hrun, Run.bind_ok]
  refine ⟨?_, ?_, ?_, ?_⟩
  · rintro rfl s2 hH
    have hserve : (normalService .H s1).Paced .run := hp1 ▸ normalService_paced (s := s1) .H
    obtain ⟨hhalt2, hret2⟩ := hserve.of_finish nofun hH
    refine ⟨fun g2 => ?_, fun g2 => ?_⟩
    · rw [tickBody, hhalt2 g2, Run.bind_ended, Run.finish_ended]
    · rw [tickBody, (hret2 g2).1, Run.bind_ok, exec_normalService]
  all_goals
    rintro rfl
    rfl

/-! ## A Normal tick (R225) -/

/-- A service in Normal gives out `o` and holds `q1`, which together are what was queued and what arrived and fitted; one of them is
empty. -/
theorem normalService_conserves (hq : s.Queue d q) (hc : s.CallsSucceed) (hd : s.drop.get d < 2 ^ s.params.dropCntWidth) :
    ∃ t o q1, normalService d s = .ok () t ∧ t.CallsSucceed ∧ t.Queue d q1 ∧
      o ++ q1 = q ++ s.accepted d q ∧ (o = [] ∨ q1 = []) ∧
      t = { s with
        rb := s.rb.set d (t.rb.get d)
        drop := s.drop.set d
          ((s.drop.get d + ((s.polled d).length - (s.accepted d q).length)) % 2 ^ s.params.dropCntWidth)
        idle := s.idle.set d (t.idle.get d)
        lastCount := s.lastCount.set d q1.length
        exp := s.exp.set d false
        armed := s.armed.set d (t.armed.get d)
        period := s.period.set d (t.period.get d)
        arrived := s.arrived.set d (s.polled d).length
        env := { s.env with
          rxq := s.env.rxq.set d ((s.env.rxq.get d).drop s.params.rxChunk)
          log := s.env.log ++ writeOutputs d.opp o
          draws := t.env.draws } } := by
  obtain ⟨t, hr, htc, ht, hout⟩ := normalService_ok hq hc hd
  obtain ⟨hhold, hflush⟩ := hout _ _ rfl rfl
  rcases lt_or_ge _ s.params.idleThreshold with hlt | hge
  · obtain ⟨htq, -, hlog⟩ := hhold hlt
    refine ⟨t, [], _, hr, htc, htq, List.nil_append _, .inl rfl, ?_⟩
    rw [← htq.count_eq, writeOutputs, if_pos rfl, List.append_nil, ← hlog]
    exact ht
  · obtain ⟨htq, -, -, hlog⟩ := hflush hge
    refine ⟨t, _, [], hr, htc, htq, List.append_nil _, .inr rfl, ?_⟩
    rw [← htq.count_eq, ← hlog]
    exact ht

/-- MODE_TRANSITION into Normal, from whatever mode (R212, R214). -/
theorem modeTransition_normal (hc : s.CallsSucceed) :
    ∃ t, modeTransition .normal s = .ok () t ∧ t.CallsSucceed ∧ t = { s with
      scratch := if s.prevMode = .sleep then [] else s.scratch
      scratchLen := if s.prevMode = .sleep then 0 else s.scratchLen
      prevMode := .normal
      idle := t.idle
      lastCount := t.lastCount
      exp := t.exp
      armed := t.armed
      period := t.period
      speed := if s.prevMode = .sleep then { h := uartBaud s.cfg, p := peerSpeed s.params s.cfg } else s.speed
      env := { s.env with
        log := s.env.log ++
          (if s.prevMode = .sleep then [.speedSet .H (uartBaud s.cfg), .speedSet .P (peerSpeed s.params s.cfg)] else [])
        draws := t.env.draws } } := by
  have hne : Mode.normal ≠ .sleep := nofun
  by_cases hs : s.prevMode = .sleep
  · obtain ⟨t, hr, htc, ht, -⟩ := leaveSleep_ok hc
    refine ⟨t.setPrevMode .normal, by rw [modeTransition_leave hne hs, hr, Run.bind_ok], htc.of_eq rfl, ?_⟩
    simp only [if_pos hs]
    rw [ht]
    rfl
  · refine ⟨s.setPrevMode .normal, ?_, hc.of_eq rfl, by simp only [if_neg hs, List.append_nil]; rfl⟩
    by_cases hn : Mode.normal = s.prevMode
    · rw [modeTransition_same hn, State.setPrevMode, hn]
    · exact modeTransition_plain hn hne hs

/-- The bytes of one write, as side `t` sees them. -/
theorem bytesTo_writeOutputs (sd t : Side) (o : List Byte) :
    (writeOutputs sd o).flatMap (Output.bytesTo t) = if sd = t then o else [] := by
  by_cases ho : o = [] <;> simp [writeOutputs, ho, Output.bytesTo]

/-- Settles O41: MODE_TRANSITION leaves the buffers and the receive queues as they are, and then each service conserves the bytes of
its own direction and leaves the other's alone. -/
theorem normalTickConservesBytes : Obligations.NormalTickConservesBytes := by
  intro s qH qP hp h0 h1 hc hs hqH hqP
  have hlines : modeOfLines s.env.ms0 s.env.ms1 = .normal := by rw [h0, h1]; rfl
  obtain ⟨s1, r1, c1, e1⟩ := modeTransition_normal hc.takeDraw.takeDraw
  have hqH1 : s1.Queue .H qH := by rw [e1]; exact hqH
  obtain ⟨s2, oH, qH1, r2, c2, hq2, hsum2, hone2, e2⟩ := normalService_conserves hqH1 c1 (by rw [e1]; exact hs.drops .H)
  have hqP2 : s2.Queue .P qP := by rw [e2, e1]; exact hqP
  obtain ⟨t, oP, qP1, r3, -, hq3, hsum3, hone3, e3⟩ := normalService_conserves hqP2 c2 (by rw [e2, e1]; exact hs.drops .P)
  have hrun : tick s = .ok () t := by
    rw [tick_eq hp hc.next hc.takeDraw.next, hlines, r1, Run.bind_ok, tickBody, r2, Run.bind_ok, r3]
  have hpollH : s1.accepted .H qH = s.accepted .H qH := by rw [e1]; rfl
  have hpollP : s2.accepted .P qP = s.accepted .P qP := by rw [e2, e1]; rfl
  have hlog : t.env.log = s.env.log ++
      (if s.prevMode = .sleep then [.speedSet .H (uartBaud s.cfg), .speedSet .P (peerSpeed s.params s.cfg)] else []) ++
      writeOutputs .P oH ++ writeOutputs .H oP := by rw [e3, e2, e1]; rfl
  refine ⟨t, oH, oP, qH1, qP1, (exec_tick hp).trans (congrArg Run.finish hrun), ?_, hq3, hpollH ▸ hsum2, hone2, hpollP ▸ hsum3, hone3,
    ?_, ?_, ?_⟩
  · rw [e3]; exact hq2
  · simp only [Env.txs, hlog, List.flatMap_append, bytesTo_writeOutputs]
    split <;> simp [Output.bytesTo]
  · simp only [Env.txs, hlog, List.flatMap_append, bytesTo_writeOutputs]
    split <;> simp [Output.bytesTo]
  · rw [e3, e2, e1]
    rfl

end Sys2Proof.Machine
end

section
/-! PROOFS. O42: what a tick in Sleep leaves alone, whichever of its calls fail (42_bridge_controller.md R232). ENTER_SLEEP touches the
timers and a port's speed, the Sleep step not even these. -/

namespace Sys2Proof.Machine

variable {α : Type} {s t u : State}

/-- The relay's own state is the same in `t` as in `s`, side P's queue and side P's output included. -/
structure State.RelayKept (s t : State) : Prop where
  rb : t.rb = s.rb := by rfl
  drop : t.drop = s.drop := by rfl
  idle : t.idle = s.idle := by rfl
  lastCount : t.lastCount = s.lastCount := by rfl
  rxq : t.env.rxq.p = s.env.rxq.p := by rfl
  sent : t.env.txs .P = s.env.txs .P := by rfl
  arrived : t.arrived = s.arrived := by rfl
  mark : t.refusedMark = s.refusedMark := by rfl

/-- So are the speeds, the timers and the expiry flags. -/
structure State.SleepKept (s t : State) : Prop extends State.RelayKept s t where
  speed : t.speed = s.speed := by rfl
  armed : t.armed = s.armed := by rfl
  period : t.period = s.period := by rfl
  exp : t.exp = s.exp := by rfl

theorem State.RelayKept.trans (h : s.RelayKept t) (h1 : t.RelayKept u) : s.RelayKept u where
  rb := h1.rb.trans h.rb
  drop := h1.drop.trans h.drop
  idle := h1.idle.trans h.idle
  lastCount := h1.lastCount.trans h.lastCount
  rxq := h1.rxq.trans h.rxq
  sent := h1.sent.trans h.sent
  arrived := h1.arrived.trans h.arrived
  mark := h1.mark.trans h.mark

theorem State.SleepKept.trans (h : s.SleepKept t) (h1 : t.SleepKept u) : s.SleepKept u where
  toRelayKept := h.toRelayKept.trans h1.toRelayKept
  speed := h1.speed.trans h.speed
  armed := h1.armed.trans h.armed
  period := h1.period.trans h.period
  exp := h1.exp.trans h.exp

/-- An output that is no write to a side adds nothing to what was sent there. -/
theorem txs_append (e : Env) (sd : Side) {os : List Output} (h : os.flatMap (Output.bytesTo sd) = []) :
    ({ e with log := e.log ++ os } : Env).txs sd = e.txs sd := by
  simp only [Env.txs, List.flatMap_append, h, List.append_nil]

/-! ## Entering Sleep (R213) -/

theorem timerDisarm_relay (h : s.RelayKept u) (d : Side) :
    (timerDisarm d u).Ends (fun _ t => s.RelayKept t) s.RelayKept (fun _ => True) :=
  call_ends (h.trans {}) fun _ _ _ => h.trans {}

theorem portSetSpeed_relay (h : s.RelayKept u) (sd : Side) (v : Nat) :
    (portSetSpeed sd v u).Ends (fun _ t => s.RelayKept t) s.RelayKept (fun _ => True) := by
  have hsent (e : Env) : (e.emit (.speedSet sd v)).txs .P = e.txs .P := txs_append e .P rfl
  refine call_ends (h.trans { sent := hsent _ }) fun n ds _ => h.trans ?_
  by_cases hn : n = 0
  · rw [if_pos hn]
    exact {}
  · rw [if_neg hn]
    exact { sent := hsent { u.env with draws := ds } }

theorem enterSleep_relay : (enterSleep s).Ends (fun _ t => s.RelayKept t) s.RelayKept (fun _ => True) := by
  refine Run.Ends.bind (timerDisarm_relay {} .H) fun _ s1 h1 => ?_
  refine Run.Ends.bind (timerDisarm_relay h1 .P) fun _ s2 h2 => ?_
  exact Run.Ends.bind (portSetSpeed_relay h2 _ _) fun _ s3 h3 => h3.trans {}

/-! ## The Sleep step (R230, R233) -/

/-- Every end of `r` keeps what a Sleep tick keeps of `s`. -/
def Run.KeepsInSleep (r : Run α) (s : State) : Prop := r.Ends (fun _ t => s.SleepKept t) s.SleepKept (fun _ => True)

theorem portReadNB_sleepKept (n : Nat) : (portReadNB .H n s).KeepsInSleep s := call_ends {} fun _ _ _ => {}

theorem portReadB_sleepKept (n : Nat) : (portReadB .H n s).KeepsInSleep s := by
  unfold portReadB
  split
  · exact {}
  · exact portReadNB_sleepKept n

theorem lineSet_sleepKept (h : s.SleepKept u) (v : Bool) : (lineSet v u).KeepsInSleep s := by
  have hsent (e : Env) : (e.emit (.statusSet v)).txs .P = e.txs .P := txs_append e .P rfl
  refine call_ends (h.trans { sent := hsent _ }) fun n ds _ => h.trans ?_
  by_cases hn : n = 0
  · rw [if_pos hn]
    exact {}
  · rw [if_neg hn]
    exact { sent := hsent { u.env with draws := ds } }

theorem portWrite_sleepKept (h : s.SleepKept u) (bytes : List Byte) : (portWrite .H bytes u).KeepsInSleep s := by
  have hsent (e : Env) (os : List Byte) : (e.send .H os).txs .P = e.txs .P := by
    rw [send_log]
    exact txs_append e .P (by rw [bytesTo_writeOutputs, if_neg nofun])
  have hrxq (e : Env) (os : List Byte) : (e.send .H os).rxq = e.rxq := by rw [send_log]
  unfold portWrite
  split
  · exact h
  · exact call_ends (h.trans { sent := hsent _ _, rxq := congrArg PerSide.p (hrxq _ _) }) fun n ds _ =>
      h.trans { sent := hsent _ _, rxq := congrArg PerSide.p (hrxq _ _) }

theorem cfgInputCommand_sleepKept (h : s.SleepKept u) (f : List Byte) : s.SleepKept (cfgInputCommand f u).2 := by
  rw [cfgInputCommand_eq (s := u) (u := u) f rfl rfl]
  exact h.trans {}

theorem exchange_sleepKept (h : s.SleepKept u) : (exchange u).KeepsInSleep s := by
  unfold exchange
  split
  · trivial
  · refine Run.Ends.bind (lineSet_sleepKept h false) fun _ s1 h1 => ?_
    refine Run.Ends.bind (portWrite_sleepKept (cfgInputCommand_sleepKept h1 _) _) fun _ s2 h2 => ?_
    exact Run.Ends.bind (lineSet_sleepKept h2 true) fun _ s3 h3 => h3.trans {}

theorem takeFrameBytes_sleepKept (h : s.SleepKept u) (bytes : List Byte) : (takeFrameBytes bytes u).KeepsInSleep s := by
  unfold takeFrameBytes
  split
  · trivial
  · split
    · trivial
    · simp only
      split
      · exact exchange_sleepKept (h.trans {})
      · exact h.trans {}

theorem sleepStep_sleepKept : (sleepStep s).KeepsInSleep s := by
  unfold sleepStep
  split
  · trivial
  · refine Run.Ends.bind (portReadB_sleepKept _) fun bytes s1 h1 => ?_
    refine Run.Ends.bind (takeFrameBytes_sleepKept h1 bytes) fun _ s2 h2 => ?_
    rw [resumed_phase]
    exact h2.trans {}

/-! ## The tick -/

/-- What a tick in Sleep leaves alone: the relay, and all of it that concerns Sleep when Sleep was entered before. -/
def State.TickKept (s t : State) : Prop := s.RelayKept t ∧ (s.prevMode = .sleep → s.SleepKept t)

theorem State.SleepKept.tick (h : s.SleepKept t) : s.TickKept t := ⟨h.toRelayKept, fun _ => h⟩

theorem State.TickKept.trans (h : s.TickKept t) (h1 : t.SleepKept u) : s.TickKept u :=
  ⟨h.1.trans h1.toRelayKept, fun hm => (h.2 hm).trans h1⟩

theorem modeTransition_tickKept (h : s.SleepKept u) (hm : u.prevMode = s.prevMode) :
    (modeTransition .sleep u).Ends (fun _ t => s.TickKept t) s.TickKept (fun _ => True) := by
  by_cases hs : s.prevMode = .sleep
  · rw [modeTransition_same (hm.trans hs).symm]
    exact h.tick
  · have hback {t : State} (ht : u.RelayKept t) : s.TickKept t := ⟨h.toRelayKept.trans ht, fun g => absurd g hs⟩
    rw [modeTransition_enter (hm ▸ hs)]
    exact Run.Ends.bind (enterSleep_relay.mono (fun _ _ => id) (fun _ => hback) fun _ => id) fun _ t ht => hback (ht.trans {})

theorem tick_tickKept (h0 : s.env.ms0 = true) (h1 : s.env.ms1 = true) :
    (tick s).Ends (fun _ => s.TickKept) s.TickKept (fun _ => True) := by
  refine Run.Ends.bind (P := fun b t => b = true ∧ t = s.takeDraw) (call_ends ⟨h0, rfl⟩ fun _ _ _ => State.SleepKept.tick {}) ?_
  rintro _ _ ⟨rfl, rfl⟩
  refine Run.Ends.bind (P := fun b t => b = true ∧ t = s.takeDraw.takeDraw)
    (call_ends ⟨h1, rfl⟩ fun _ _ _ => State.SleepKept.tick {}) ?_
  rintro _ _ ⟨rfl, rfl⟩
  refine Run.Ends.bind (modeTransition_tickKept (u := s.takeDraw.takeDraw) {} rfl) fun _ s3 h3 => ?_
  exact Run.Ends.bind (sleepStep_sleepKept.mono (fun _ _ => h3.trans) (fun _ => h3.trans) fun _ => id) fun _ s4 h4 => h4.trans {}

/-- Settles O42: by the steps of the tick, each of which keeps the relay wherever it ends. -/
theorem sleepTickLeavesTheRelayAlone : Obligations.SleepTickLeavesTheRelayAlone := by
  intro s t h0 h1 ht
  obtain ⟨hr, hsleep⟩ := (execTick_ends (F := fun _ => True) (fun _ => tick_tickKept h0 h1) trivial).of_next ht
  exact ⟨hr.rb, hr.drop, hr.idle, hr.lastCount, hr.rxq, hr.sent, hr.arrived, hr.mark,
    fun hm => ⟨(hsleep hm).speed, (hsleep hm).armed, (hsleep hm).period, (hsleep hm).exp⟩⟩

end Sys2Proof.Machine
end

section
/-! PROOFS. O59: silence in Normal mode (42_bridge_controller.md R226). One round is an expiry and a tick; while the direction holds
bytes each round counts one expiry, the round that reaches the threshold flushes, and after it every round does nothing. -/

namespace Sys2Proof.Machine

variable {s t : State} {d e : Side} {q : List Byte} {n : Nat} {rest : List Move}

/-! ## A tick in which nothing arrives -/

/-- A service with nothing to read and no expiry to count leaves its direction alone (R220 to R223). -/
theorem normalService_quiet (hc : s.NextSucceeds) (hrx : s.env.rxq.get e = []) (hlast : s.lastCount.get e = (s.rb.get e).count)
    (hexp : s.exp.get e = false) (hidle : s.idle.get e < s.params.idleThreshold) :
    normalService e s = .ok () (s.takeDraw.setArrived e 0) := by
  have hread : portReadNB e s.params.rxChunk s = .ok [] s.takeDraw := by
    refine (call_next hc).trans ?_
    simp [Env.rxTake, Env.dropRx, State.takeDraw, State.setEnv, hrx, PerSide.set_of_get_eq hrx]
  have hkeep : ¬ (s.takeDraw.setArrived e 0).restartsRun e = true := fun h => by
    rcases restartsRun_iff.1 h with hne | ⟨-, hpos⟩
    · exact hne hlast.symm
    · simp at hpos
  rw [normalService, dirPoll, hread, Run.bind_ok]
  change ((Run.ok () (s.takeDraw.setArrived e 0)).bind _) = _
  rw [Run.bind_ok, dirSizeCheck_keep hkeep, Run.bind_ok, dirExpiry_clear (s := s.takeDraw.setArrived e 0) hexp]
  exact dirFlush_below hidle

/-- Normal mode with no failing call, both lines low, nothing arriving, and no expiry pending in the direction opposite to `d`. -/
structure State.Silent (s : State) (d : Side) : Prop where
  inv : s.LoopInv
  calls : s.CallsSucceed
  running : s.phase = .run
  mode : s.prevMode = .normal
  ms0 : s.env.ms0 = false
  ms1 : s.env.ms1 = false
  rxq : s.env.rxq = .both []
  other : s.exp.get d.opp = false

/-- The idle count of `d` once a pending expiry is counted, where `d` holds `q`. -/
def State.countedIdle (s : State) (d : Side) (q : List Byte) : Nat :=
  if s.exp.get d = true ∧ q ≠ [] then s.idle.get d + 1 else s.idle.get d

/-- `s` after calls that took draws and handed on arrival counts, and did nothing else. -/
def State.spent (s : State) (a : PerSide Nat) (ds : List Draw) : State :=
  { s with arrived := a, env := { s.env with draws := ds } }

/-- From `s` to `t` a service of `d` in silence ran: it counted the expiry of `d`, and held the queue `q` or flushed it. -/
structure State.SilentlyServed (s t : State) (d : Side) (q : List Byte) : Prop where
  calls : t.CallsSucceed
  frame : t = { s with
    rb := s.rb.set d (t.rb.get d)
    drop := t.drop
    idle := s.idle.set d (t.idle.get d)
    lastCount := s.lastCount.set d (t.lastCount.get d)
    exp := s.exp.set d false
    armed := t.armed
    period := t.period
    arrived := t.arrived
    env := { s.env with log := t.env.log, draws := t.env.draws } }
  hold : s.countedIdle d q < s.params.idleThreshold →
    t.Queue d q ∧ t.idle.get d = s.countedIdle d q ∧ t.env.log = s.env.log
  flush : s.params.idleThreshold ≤ s.countedIdle d q → t.Queue d [] ∧ t.env.log = s.env.log ++ writeOutputs d.opp q

theorem normalService_silent {a : PerSide Nat} {ds : List Draw} (hc : (s.spent a ds).CallsSucceed) (hq : s.Queue d q)
    (hdrop : s.drop.get d < 2 ^ s.params.dropCntWidth) (hrx : s.env.rxq.get d = [])
    (hlast : s.lastCount.get d = (s.rb.get d).count) :
    ∃ t, normalService d (s.spent a ds) = .ok () t ∧ s.SilentlyServed t d q := by
  obtain ⟨t, hr, htc, ht, hout⟩ := normalService_ok (s := s.spent a ds) hq hc hdrop
  have hpolled : (s.spent a ds).polled d = [] := by
    change (s.env.rxq.get d).take _ = []
    rw [hrx, List.take_nil]
  have hacc : (s.spent a ds).accepted d q = [] := by rw [State.accepted, hpolled, List.take_nil]
  have hcount : q.length = s.lastCount.get d := hq.count_eq.symm.trans hlast.symm
  obtain ⟨hhold, hflush⟩ := hout q (s.countedIdle d q) (by rw [hacc, List.append_nil])
    (if_neg fun h => h.elim (fun hne => hne hcount) fun hne => hne.2 hpolled).symm
  refine ⟨t, hr, htc, ?_, hhold, fun hle => ?_⟩
  · have hrxq : (s.spent a ds).env.rxq.set d (((s.spent a ds).env.rxq.get d).drop (s.spent a ds).params.rxChunk) = s.env.rxq := by
      change s.env.rxq.set d ((s.env.rxq.get d).drop _) = _
      rw [hrx, List.drop_nil, PerSide.set_of_get_eq hrx]
    rw [hrxq] at ht
    rw [ht]
    simp only [PerSide.get_set_same]
    rfl
  · obtain ⟨htq, -, -, hlog⟩ := hflush hle
    exact ⟨htq, hlog⟩

/-- A tick in silence is the service of `d`: the service of the opposite direction finds nothing to do. -/
theorem tick_silent (h : s.Silent d) (hq : s.Queue d q) : ∃ t, tick s = .ok () t ∧ s.SilentlyServed t d q := by
  have hnh : s.phase ≠ .halted := by simp [h.running]
  have hrx (e : Side) : s.env.rxq.get e = [] := by rw [h.rxq, PerSide.get_both]
  have hlines : modeOfLines s.env.ms0 s.env.ms1 = .normal := by rw [h.ms0, h.ms1]; rfl
  have htick : tick s = (normalService .H (s.spent s.arrived s.env.draws.tail.tail)).bind fun _ s1 => normalService .P s1 := by
    rw [tick_eq h.running h.calls.next h.calls.takeDraw.next, hlines, modeTransition_same (by exact h.mode.symm), Run.bind_ok,
      tickBody]
    rfl
  have hc2 : (s.spent s.arrived s.env.draws.tail.tail).CallsSucceed := h.calls.takeDraw.of_tail rfl
  have hc3 : (s.spent (s.arrived.set .H 0) s.env.draws.tail.tail.tail).CallsSucceed := hc2.of_tail rfl
  cases d with
  | H =>
    obtain ⟨t, hr, ht⟩ := normalService_silent (s := s) hc2 hq (h.inv.sound.drops .H) (hrx .H) (h.inv.last_eq hnh .H)
    have hquiet : normalService .P t = .ok () (t.takeDraw.setArrived .P 0) := by
      refine normalService_quiet ht.calls.next ?_ ?_ ?_ ?_ <;> rw [ht.frame]
      · exact hrx .P
      · exact h.inv.last_eq hnh .P
      · exact h.other
      · exact h.inv.idle_lt hnh .P
    refine ⟨t.takeDraw.setArrived .P 0, by rw [htick, hr, Run.bind_ok, hquiet], ht.calls.takeDraw, ?_, ht.hold, ht.flush⟩
    rw [ht.frame]
    rfl
  | P =>
    have hquiet : normalService .H (s.spent s.arrived s.env.draws.tail.tail) =
        .ok () (s.spent (s.arrived.set .H 0) s.env.draws.tail.tail.tail) :=
      normalService_quiet hc2.next (hrx .H) (h.inv.last_eq hnh .H) h.other (h.inv.idle_lt hnh .H)
    obtain ⟨t, hr, ht⟩ := normalService_silent (s := s) hc3 hq (h.inv.sound.drops .P) (hrx .P) (h.inv.last_eq hnh .P)
    exact ⟨t, by rw [htick, hquiet, Run.bind_ok, hr], ht⟩

/-! ## One round: an expiry of `d` and a tick -/

theorem State.Silent.setAgenda (h : s.Silent d) (ha : ∀ m ∈ rest, m.ofAgents = true) : (s.setAgenda rest).Silent d :=
  { h with inv := h.inv.setAgenda ha }

theorem setExp_self (h : s.exp.get d = false) : s.setExp d false = s := by rw [State.setExp, PerSide.set_of_get_eq h]

/-- An expiry of `d`, if its timer is armed (R268). -/
theorem State.Silent.expire (h : s.Silent d) (hexp : s.exp.get d = false) : (s.setExp d (s.armed.get d)).Silent d := by
  cases ha : s.armed.get d with
  | true => exact { h with inv := h.inv.expire ha, other := by simpa using h.other }
  | false => rw [setExp_self hexp]; exact h

theorem State.SilentlyServed.silent (ht : s.SilentlyServed t d q) (h : s.Silent d) (hi : t.LoopInv) : t.Silent d := by
  refine ⟨hi, ht.calls, ?_, ?_, ?_, ?_, ?_, ?_⟩ <;> rw [ht.frame]
  · exact h.running
  · exact h.mode
  · exact h.ms0
  · exact h.ms1
  · exact h.rxq
  · simpa using h.other

theorem decode_evTimerExpire (d : Side) : decode (encode (.evTimerExpire d)) = .ok (.evTimerExpire d) := by cases d <;> rfl

theorem step_expire (ha : s.agenda = .run (encode (.evTimerExpire d)) :: rest) (hexp : s.exp.get d = false) :
    step s = .next ((s.setAgenda rest).setExp d (s.armed.get d)) := by
  rw [(State.Issues.word ha (decode_evTimerExpire d)).step_eq, issue_event rfl]
  change Host.Outcome.next (if s.armed.get d then (s.setAgenda rest).setExp d true else s.setAgenda rest) = _
  cases hd : s.armed.get d with
  | true => rfl
  | false => rw [setExp_self (s := s.setAgenda rest) hexp, if_neg nofun]

theorem step_tick (ha : s.agenda = .run (encode .tick) :: rest) (hp : s.phase = .run) :
    step s = (tick (s.setAgenda rest)).finish := by
  have hissue : issue .tick (s.setAgenda rest) = exec .tick (s.setAgenda rest) := by
    simp only [issue, issueLoop, State.setAgenda_phase, hp]
    rfl
  rw [(State.Issues.word (i := .tick) ha rfl).step_eq, hissue]
  exact exec_tick (s := s.setAgenda rest) hp

theorem run_of_steps {u : State} (h1 : step s = .next u) (h2 : step u = .next t) (k : Nat) :
    Sys2Proof.core.run (k + 2) s = Sys2Proof.core.run k t := by
  have h1 : Sys2Proof.core.step s = .next u := h1
  have h2 : Sys2Proof.core.step u = .next t := h2
  simp only [Host.Core.run, h1, h2]

/-- The state in which the tick of a round begins. -/
def State.expired (s : State) (d : Side) (rest : List Move) : State := (s.setAgenda rest).setExp d (s.armed.get d)

/-- A round in silence. -/
theorem round_silent (h : s.Silent d) (hq : s.Queue d q) (hexp : s.exp.get d = false)
    (ha : s.agenda = .run (encode (.evTimerExpire d)) :: .run (encode .tick) :: rest) :
    ∃ t, (∀ k, Sys2Proof.core.run (k + 2) s = Sys2Proof.core.run k t) ∧ t.Silent d ∧ (s.expired d rest).SilentlyServed t d q := by
  have hag : ∀ m ∈ Move.run (encode .tick) :: rest, m.ofAgents = true := fun m hm =>
    h.inv.agents m (ha ▸ List.mem_cons_of_mem _ hm)
  have h1 : (s.expired d (.run (encode .tick) :: rest)).Silent d := (h.setAgenda hag).expire hexp
  have h2 : (s.expired d rest).Silent d := (h.setAgenda fun m hm => hag m (List.mem_cons_of_mem _ hm)).expire hexp
  obtain ⟨t, hr, ht⟩ := tick_silent h2 hq
  have hstep1 : step s = .next (s.expired d (.run (encode .tick) :: rest)) := step_expire ha hexp
  have hstep2 : step (s.expired d (.run (encode .tick) :: rest)) = .next t :=
    (step_tick rfl h1.running).trans (congrArg Run.finish hr)
  exact ⟨t, run_of_steps hstep1 hstep2, ht.silent h2 ((step_inv h1.inv).of_next hstep2), ht⟩

/-- The tick of a round finds an expiry exactly when `d` holds bytes, since its timer runs exactly then (R221, R223). -/
theorem countedIdle_expired (h : s.Silent d) (hq : s.Queue d q) :
    (s.expired d rest).countedIdle d q = if q = [] then s.idle.get d else s.idle.get d + 1 := by
  have harmed := h.inv.armed_iff h.running h.mode d
  rw [show (s.rb.get d).count = q.length from hq.count_eq, List.length_pos_iff] at harmed
  by_cases hne : q = []
  · simp [State.countedIdle, hne, State.expired]
  · simp [State.countedIdle, hne, State.expired, harmed.2 hne]

/-! ## All the rounds -/

/-- With nothing queued, every round does nothing. -/
theorem idleRounds_empty (n : Nat) (h : s.Silent d) (hq : s.Queue d []) (hexp : s.exp.get d = false)
    (ha : s.agenda = idleRounds d n) :
    ∃ t, Sys2Proof.core.run (2 * n) s = .next t ∧ t.Silent d ∧ t.agenda = [] ∧ t.rb.get d.opp = s.rb.get d.opp ∧
      t.Queue d [] ∧ t.env.log = s.env.log := by
  induction n generalizing s with
  | zero => exact ⟨s, rfl, h, ha, rfl, hq, rfl⟩
  | succ n ih =>
    obtain ⟨u, hrun, hu, hserved⟩ := round_silent h hq hexp ha
    have hlt : (s.expired d (idleRounds d n)).countedIdle d [] < s.params.idleThreshold := by
      rw [countedIdle_expired h hq, if_pos rfl]
      exact h.inv.idle_lt (by simp [h.running]) d
    obtain ⟨huq, -, hulog⟩ := hserved.hold hlt
    obtain ⟨t, hr, ht, hta, htrb, htq, htlog⟩ := ih hu huq (by rw [hserved.frame]; simp) (by rw [hserved.frame]; rfl)
    exact ⟨t, (hrun (2 * n)).trans hr, ht, hta, htrb.trans (by rw [hserved.frame]; simp [State.expired]), htq, htlog.trans hulog⟩

/-- With `q` queued, each round counts one expiry, until the round that reaches the threshold flushes. -/
theorem idleRounds_queued (n : Nat) (h : s.Silent d) (hq : s.Queue d q) (hne : q ≠ []) (hexp : s.exp.get d = false)
    (ha : s.agenda = idleRounds d n) :
    ∃ t, Sys2Proof.core.run (2 * n) s = .next t ∧ t.Silent d ∧ t.agenda = [] ∧ t.rb.get d.opp = s.rb.get d.opp ∧
      (s.idle.get d + n < s.params.idleThreshold → t.Queue d q ∧ t.idle.get d = s.idle.get d + n ∧ t.env.log = s.env.log) ∧
      (s.params.idleThreshold ≤ s.idle.get d + n → t.Queue d [] ∧ t.env.log = s.env.log ++ [.wrote d.opp q]) := by
  induction n generalizing s with
  | zero =>
    have hlt := h.inv.idle_lt (by simp [h.running]) d
    exact ⟨s, rfl, h, ha, rfl, fun _ => ⟨hq, rfl, rfl⟩, fun hle => absurd hle (Nat.not_le.2 hlt)⟩
  | succ n ih =>
    obtain ⟨u, hrun, hu, hserved⟩ := round_silent h hq hexp ha
    have hcounted : (s.expired d (idleRounds d n)).countedIdle d q = s.idle.get d + 1 := by
      rw [countedIdle_expired h hq, if_neg hne]
    have hua : u.agenda = idleRounds d n := by rw [hserved.frame]; rfl
    have huexp : u.exp.get d = false := by rw [hserved.frame]; simp
    have hurb : u.rb.get d.opp = s.rb.get d.opp := by rw [hserved.frame]; simp [State.expired]
    have huparams : u.params = s.params := by rw [hserved.frame]; rfl
    rcases lt_or_ge (s.idle.get d + 1) s.params.idleThreshold with hlt | hge
    · obtain ⟨huq, huidle, hulog⟩ := hserved.hold (hcounted.trans_lt hlt)
      obtain ⟨t, hr, ht, hta, htrb, hhold, hflush⟩ := ih hu huq huexp hua
      have hsum : u.idle.get d + n = s.idle.get d + (n + 1) := by rw [huidle, hcounted]; omega
      rw [hsum, huparams] at hhold hflush
      refine ⟨t, (hrun (2 * n)).trans hr, ht, hta, htrb.trans hurb, fun hn => ?_, fun hn => ?_⟩
      · obtain ⟨htq, htidle, htlog⟩ := hhold hn
        exact ⟨htq, htidle, htlog.trans hulog⟩
      · obtain ⟨htq, htlog⟩ := hflush hn
        exact ⟨htq, htlog.trans (by rw [hulog]; rfl)⟩
    · obtain ⟨huq, hulog⟩ := hserved.flush (hcounted ▸ hge)
      rw [writeOutputs, if_neg hne] at hulog
      obtain ⟨t, hr, ht, hta, htrb, htq, htlog⟩ := idleRounds_empty n hu huq huexp hua
      exact ⟨t, (hrun (2 * n)).trans hr, ht, hta, htrb.trans hurb, fun hn => by omega, fun _ => ⟨htq, htlog.trans hulog⟩⟩

/-- Settles O59. -/
theorem silenceFlushesExactlyOnce : Obligations.SilenceFlushesExactlyOnce := by
  intro s d q n hi hc hp hm h0 h1 hrx hq hne hidle hexp hother ha
  obtain ⟨t, hrun, ht, hta, htrb, hhold, hflush⟩ := idleRounds_queued n ⟨hi, hc, hp, hm, h0, h1, hrx, hother⟩ hq hne hexp ha
  rw [hidle, Nat.zero_add] at hhold hflush
  refine ⟨t, hrun, hta, htrb, fun hn => ?_, fun hn => ?_⟩
  · obtain ⟨htq, htidle, htlog⟩ := hhold hn
    exact ⟨htlog, htq, htidle⟩
  · obtain ⟨htq, htlog⟩ := hflush hn
    have harmed := ht.inv.armed_iff ht.running ht.mode d
    rw [show (t.rb.get d).count = 0 from htq.count_eq] at harmed
    exact ⟨htlog, htq, by simpa using harmed⟩

end Sys2Proof.Machine
end

section
/-! PROOFS. O44 to O46: the two asynchronous events (60_exceptions.md R268 to R271). Two different events of R270 commute
because they write different state. -/

namespace Sys2Proof.Machine

variable {s : State} {d : Side} {i j : Instr} {b c bH bP : Byte}

/-- Settles O44, by whether the timer is armed. -/
theorem timerExpirySetsOnlyTheFlag : Obligations.TimerExpirySetsOnlyTheFlag := fun _ _ =>
  ⟨fun h => congrArg _ (if_pos h), fun h => congrArg _ (if_neg (by simp [h]))⟩

/-- Settles O45. -/
theorem receivedByteJoinsTheQueue : Obligations.ReceivedByteJoinsTheQueue := fun _ _ _ => rfl

/-- Both cases of an expiry in one: the flag is set if it was set or the timer is armed. -/
theorem exec_evTimerExpire :
    exec (.evTimerExpire d) s = .next { s with exp := s.exp.set d (s.exp.get d || s.armed.get d) } := by
  obtain ⟨harmed, hdisarmed⟩ := timerExpirySetsOnlyTheFlag s d
  cases h : s.armed.get d with
  | true => rw [harmed h, Bool.or_true]
  | false => rw [hdisarmed h, Bool.or_false, PerSide.set_get_self]

/-- From any state in which `i` and `j` both answer a next state, running them in either order gives the same outcome. -/
def CommutesWith (i j : Instr) : Prop :=
  ∀ s s1 s2 : State, exec i s = .next s1 → exec j s = .next s2 → exec j s1 = exec i s2

namespace CommutesWith

theorem refl (i : Instr) : CommutesWith i i := fun _ _ _ h1 h2 => by
  injection h1.symm.trans h2 with h
  rw [h]

theorem symm (h : CommutesWith i j) : CommutesWith j i := fun s s1 s2 h1 h2 => (h s s2 s1 h2 h1).symm

/-- The two timers have a flag each. -/
theorem expire_opp : CommutesWith (.evTimerExpire d) (.evTimerExpire d.opp) := fun s s1 s2 h1 h2 => by
  rw [exec_evTimerExpire] at h1 h2
  cases h1
  cases h2
  simp only [exec_evTimerExpire, PerSide.get_set_opp, PerSide.get_opp_set, PerSide.set_comm]

/-- An expiry writes a flag, an arrival the environment, and neither reads what the other writes. -/
theorem expire_receive {e : Side} : CommutesWith (.evTimerExpire d) (.evRxByte e b) := fun s s1 s2 h1 h2 => by
  rw [exec_evTimerExpire] at h1
  rw [receivedByteJoinsTheQueue] at h2
  cases h1
  cases h2
  rw [exec_evTimerExpire, receivedByteJoinsTheQueue]

/-- The two sides have a receive queue each. -/
theorem receive_opp : CommutesWith (.evRxByte d b) (.evRxByte d.opp c) := fun s s1 s2 h1 h2 => by
  rw [receivedByteJoinsTheQueue] at h1 h2
  cases h1
  cases h2
  simp only [receivedByteJoinsTheQueue _ _ _, PerSide.get_set_opp, PerSide.get_opp_set, PerSide.set_comm]

end CommutesWith

/-- The four events of R270: an expiry, or the arrival of the side's byte, on a side. -/
theorem sideEvent_cases (h : i ∈ [Instr.evTimerExpire .H, .evTimerExpire .P, .evRxByte .H bH, .evRxByte .P bP]) :
    ∃ d, i = .evTimerExpire d ∨ i = .evRxByte d (PerSide.get ⟨bH, bP⟩ d) := by
  simp only [List.mem_cons, List.not_mem_nil, or_false] at h
  rcases h with rfl | rfl | rfl | rfl
  · exact ⟨.H, .inl rfl⟩
  · exact ⟨.P, .inl rfl⟩
  · exact ⟨.H, .inr rfl⟩
  · exact ⟨.P, .inr rfl⟩

/-- Settles O46, by the kinds of the two events; two of one kind are the same event or lie on opposite sides. -/
theorem eventsCommute : Obligations.EventsCommute := by
  intro s s1 s2 i j bH bP hi hj
  suffices CommutesWith i j from this s s1 s2
  obtain ⟨d, rfl | rfl⟩ := sideEvent_cases hi <;> obtain ⟨e, rfl | rfl⟩ := sideEvent_cases hj
  · obtain rfl | rfl := Side.eq_or_opp d e
    · exact .refl _
    · exact .expire_opp
  · exact .expire_receive
  · exact CommutesWith.expire_receive.symm
  · obtain rfl | rfl := Side.eq_or_opp d e
    · exact .refl _
    · exact .receive_opp

end Sys2Proof.Machine
end

section
/-! PROOFS. O49: an operation whose first primitive fails (60_exceptions.md R261, R263, R267). It ends where the call ended, so each
clause is its first call, failing. -/

namespace Sys2Proof.Machine

variable {α : Type} {s t : State} {d sd : Side} {n need : Nat} {ds : List Draw}

/-- What follows an operation that ended the tick does not run. -/
theorem Run.finish_bind_of_ended {r : Run α} {k : α → State → Run Unit} (h : r = .ended t) : (r.bind k).finish = .next t := by
  rw [h, Run.bind_ended, Run.finish_ended]

/-! ## The primitives that fail -/

section Fails

variable (h : s.env.draws = .fails n :: ds)
include h

/-- A read that fails has taken at most as many bytes as it asked for (R200, R263). -/
theorem portReadNB_fails : portReadNB sd need s = .ended ((s.setEnv { s.env with
    rxq := s.env.rxq.set sd ((s.env.rxq.get sd).drop (min n need)), draws := ds }).ioFailure (readCause sd)) :=
  call_fails _ _ _ h

/-- A PortSetSpeed that fails has given the device its new speed, or not, and the block's record has the old one (R203, R263). -/
theorem portSetSpeed_fails {v : Nat} : portSetSpeed sd v s = .ended ((s.setEnv { s.env with
    log := s.env.log ++ (if n = 0 then [] else [.speedSet sd v]), draws := ds }).ioFailure .speed) := by
  rw [portSetSpeed, call_fails _ _ _ h]
  by_cases hn : n = 0 <;> simp [hn, Env.emit]

theorem lineReadMs0_fails : lineReadMs0 s = .ended ((s.setEnv { s.env with draws := ds }).ioFailure .line) :=
  call_fails _ _ _ h

theorem timerArm_fails : timerArm d s = .ended ((s.setEnv { s.env with draws := ds }).ioFailure .timer) :=
  call_fails _ _ _ h

theorem dirPoll_fails : dirPoll d s = .ended ((s.setEnv { s.env with
    rxq := s.env.rxq.set d ((s.env.rxq.get d).drop (min n s.params.rxChunk)), draws := ds }).ioFailure (readCause d)) := by
  rw [dirPoll, portReadNB_fails h, Run.bind_ended]

/-- A Sleep step with a byte there reads (R230). -/
theorem sleepStep_fails (hneed : sleepNeed s = .ok need) (hrx : s.env.rxq.h ≠ []) :
    sleepStep s = .ended ((s.setEnv { s.env with
      rxq := s.env.rxq.set .H (s.env.rxq.h.drop (min n need)), draws := ds }).ioFailure .rdH) := by
  simp only [sleepStep, hneed, portReadB_read need hrx, portReadNB_fails h, Run.bind_ended]
  rfl

end Fails

theorem readCause_code (d : Side) : (readCause d).code = if d = .H then 1 else 3 := by cases d <;> rfl

/-- What a Sleep read asks for, with no frame begun or an open one held (R230). -/
theorem sleepNeed_eq (h : (s.scratchLen = 0 ∧ need = 1) ∨ ∃ fr, s.FrameHeld fr ∧ frameOpen fr = true ∧ need = needAfter fr) :
    sleepNeed s = .ok need := by
  rcases h with ⟨h0, rfl⟩ | ⟨fr, hf, -, rfl⟩
  · exact if_pos h0
  · exact hf.sleepNeed

/-- Settles O49, operation by operation. -/
theorem firstFailingCallHalts : Obligations.FirstFailingCallHalts := by
  intro s n ds h
  refine ⟨?_, fun d hd => ?_⟩
  · rintro i c e (⟨hp, rfl, rfl, rfl⟩ | ⟨hi, rfl, rfl⟩ | ⟨rfl, rfl, rfl⟩ | ⟨d, hi, rfl, rfl⟩ | ⟨need, rfl, hrx, hneed, rfl, rfl⟩)
    · exact (exec_tick hp).trans (Run.finish_bind_of_ended (lineReadMs0_fails h))
    · have hspeed : portSetSpeed .H s.uartBaudNow s = _ := portSetSpeed_fails h
      rcases hi with ⟨hp, rfl⟩ | rfl
      · exact (if_pos hp).trans (Run.finish_bind_of_ended hspeed)
      · exact Run.finish_bind_of_ended hspeed
    · exact Run.finish_bind_of_ended (timerDisarm_fails h)
    · rw [← readCause_code]
      rcases hi with rfl | rfl
      · exact congrArg Run.finish (dirPoll_fails h)
      · exact Run.finish_bind_of_ended (dirPoll_fails h)
    · exact congrArg Run.finish (sleepStep_fails h (sleepNeed_eq hneed) hrx)
  · have hrun := (dirSizeCheck_restart (restartsRun_iff.2 hd)).trans
      (timerArm_fails (s := (s.setLastCount d (s.rb.get d).count).setIdle d 0) h)
    exact congrArg Run.finish hrun

end Sys2Proof.Machine
end

section
/-! PROOFS. O58: a tick at a quiescent state (60_exceptions.md R280). No byte waits, and no expiry does either, because only the
timer of a buffer that holds bytes runs; so each service finds nothing to do. -/

namespace Sys2Proof.Machine

variable {s : State} {d : Side}

/-- Everything that is waiting nowhere in a quiescent state. -/
theorem quiescent_iff : s.quiescent = true ↔
    s.phase = .run ∧ s.env.rxq = .both [] ∧ (∀ d, (s.rb.get d).count = 0) ∧ s.scratchLen = 0 ∧ s.status.byte = 0 := by
  have hboth : (∀ d, (s.rb.get d).count = 0) ↔ (s.rb.get .H).count = 0 ∧ (s.rb.get .P).count = 0 :=
    ⟨fun h => ⟨h .H, h .P⟩, fun ⟨hH, hP⟩ d => by cases d <;> assumption⟩
  rw [hboth]
  simp only [State.quiescent, State.isEmpty, Bool.and_eq_true, decide_eq_true_eq, and_assoc]

/-- In Normal the timer of an empty buffer does not run, so it has no expiry pending. -/
theorem State.LoopInv.exp_of_empty (h : s.LoopInv) (hp : s.phase = .run) (hm : s.prevMode = .normal)
    (hempty : (s.rb.get d).count = 0) : s.exp.get d = false := by
  by_contra hexp
  have hpos := (h.armed_iff hp hm d).1 (h.exp_armed d (by simpa using hexp))
  omega

/-- A tick in silence with no expiry pending in either direction takes its four draws, hands on that nothing arrived, and does
nothing else. -/
theorem tick_quiet (h : ∀ d, s.Silent d) :
    tick s = .ok () (s.spent (.both 0) s.env.draws.tail.tail.tail.tail) := by
  have hs := h .H
  have hnh : s.phase ≠ .halted := by simp [hs.running]
  have hlines : modeOfLines s.env.ms0 s.env.ms1 = .normal := by rw [hs.ms0, hs.ms1]; rfl
  have hquiet (d : Side) {a : PerSide Nat} {ds : List Draw} (hc : (s.spent a ds).CallsSucceed) :
      normalService d (s.spent a ds) = .ok () (s.spent (a.set d 0) ds.tail) := by
    have hexp : s.exp.get d = false := by simpa using (h d.opp).other
    have hrx : s.env.rxq.get d = [] := by rw [hs.rxq, PerSide.get_both]
    exact normalService_quiet hc.next hrx (hs.inv.last_eq hnh d) hexp (hs.inv.idle_lt hnh d)
  have hc2 : (s.spent s.arrived s.env.draws.tail.tail).CallsSucceed := hs.calls.takeDraw.of_tail rfl
  have hc3 : (s.spent (s.arrived.set .H 0) s.env.draws.tail.tail.tail).CallsSucceed := hc2.of_tail rfl
  have htick : tick s = tickBody .normal (s.spent s.arrived s.env.draws.tail.tail) := by
    rw [tick_eq hs.running hs.calls.next hs.calls.takeDraw.next, hlines, modeTransition_same (by exact hs.mode.symm), Run.bind_ok]
    rfl
  rw [htick, tickBody, hquiet .H hc2, Run.bind_ok, hquiet .P hc3]
  rfl

/-- Settles O58. -/
theorem quiescentTickIsQuiet : Obligations.QuiescentTickIsQuiet := by
  intro s hi hc hquiescent hm h0 h1
  obtain ⟨hp, hrx, hempty, -, -⟩ := quiescent_iff.1 hquiescent
  have hsilent (d : Side) : s.Silent d := ⟨hi, hc, hp, hm, h0, h1, hrx, hi.exp_of_empty hp hm (hempty d.opp)⟩
  exact ⟨_, (exec_tick hp).trans (congrArg Run.finish (tick_quiet hsilent)), hquiescent, rfl, rfl⟩

end Sys2Proof.Machine
end

section
/-! PROOFS. O43, O47, O48 and O55: reset and startup (70_reset_and_hazards.md R300 to R304). STARTUP is its three calls on the ports and
the status line, which always happen, and then the banner, which is a call only if it is not empty. -/

namespace Sys2Proof.Machine

variable {s : State}

/-! ## STARTUP (R301, R302) -/

/-- After `PortSetSpeed(sd, v)` (R203). -/
def State.speedAt (s : State) (sd : Side) (v : Nat) : State :=
  { s with speed := s.speed.set sd v, env := { s.env with log := s.env.log ++ [.speedSet sd v], draws := s.env.draws.tail } }

theorem portSetSpeed_speedAt (h : s.CallsSucceed) (sd : Side) (v : Nat) : portSetSpeed sd v s = .ok () (s.speedAt sd v) :=
  portSetSpeed_ok h sd v

/-- In STARTUP, with the speeds and the status line set and the banner still to come. -/
def State.bannerDue (s : State) : State :=
  ((s.speedAt .H (uartBaud s.cfg)).speedAt .P (peerSpeed s.params s.cfg)).lineAt true

theorem bannerDue_eq : s.bannerDue = { s with
    speed := { h := uartBaud s.cfg, p := peerSpeed s.params s.cfg }
    statusOut := true
    env := { s.env with
      log := s.env.log ++ [.speedSet .H (uartBaud s.cfg), .speedSet .P (peerSpeed s.params s.cfg), .statusSet true]
      draws := s.env.draws.drop 3 } } := by
  simp [State.bannerDue, State.speedAt, State.lineAt, PerSide.set, ← List.drop_one]

theorem startup_bannerDue (h : s.CallsSucceed) :
    startup s = (portWrite .H s.params.banner s.bannerDue).bind fun _ t => .ok () (t.setPhase .run) := by
  have h1 : (s.speedAt .H s.uartBaudNow).CallsSucceed := h.of_tail rfl
  have h2 : ((s.speedAt .H s.uartBaudNow).speedAt .P (s.speedAt .H s.uartBaudNow).peerSpeedNow).CallsSucceed := h1.of_tail rfl
  rw [startup, portSetSpeed_speedAt h, Run.bind_ok, portSetSpeed_speedAt h1, Run.bind_ok, lineSet_next h2.next, Run.bind_ok]
  rfl

/-- A write that succeeds, of any bytes: nothing is sent and no draw taken for the empty sequence (R202). -/
theorem portWrite_succeeds (h : s.CallsSucceed) (sd : Side) (bytes : List Byte) :
    portWrite sd bytes s = .ok () (s.setEnv { s.env with
      log := s.env.log ++ writeOutputs sd bytes, draws := s.env.draws.drop (if bytes = [] then 0 else 1) }) := by
  by_cases hb : bytes = []
  · simp [hb, portWrite_empty, writeOutputs, State.setEnv]
  · simp [hb, portWrite_ok h, writeOutputs]

/-- Settles O43: the banner's output follows those of the three calls before it, and its draw, if it takes one, is the fourth. -/
theorem startupSequence : Obligations.StartupSequence := by
  intro s hp h
  have hc : s.bannerDue.CallsSucceed := h.of_draws (n := 3) (by rw [bannerDue_eq])
  have hdraws : 3 + (if s.params.banner = [] then 0 else 1) = if s.params.banner = [] then 3 else 4 := by split <;> rfl
  have hexec : exec .startup s = (startup s).finish := if_pos hp
  rw [hexec, startup_bannerDue h, portWrite_succeeds hc, Run.bind_ok, bannerDue_eq, ← hdraws, ← List.drop_drop, ← List.append_assoc]
  rfl

/-! ## Reset (R300, R304) -/

/-- Settles O47: EV_RESET goes to the reset state of the same parameters, environment and agenda. The rings it leaves are empty ones,
which only a capacity of 0, where there is no slot to point at, keeps from holding the empty sequence. -/
theorem resetEventEffect : Obligations.ResetEventEffect := by
  intro s
  have hempty (d : Side) : (State.resetWith s.params s.env s.agenda).Queue d [] ∨ s.params.ringCap = 0 := by
    rcases Nat.eq_zero_or_pos s.params.ringCap with h0 | hpos
    · exact .inr h0
    · exact .inl (by cases d <;> exact Ring.Holds.empty hpos)
  exact ⟨_, rfl, rfl, hempty, rfl, rfl, .nil rfl rfl, rfl, rfl, rfl, rfl, rfl, rfl, rfl, rfl, rfl⟩

/-- Settles O48, value by value. -/
theorem resetStateValues : Obligations.ResetStateValues :=
  ⟨rfl, rfl, rfl, rfl, rfl, rfl, rfl, rfl, rfl, rfl, rfl, rfl, rfl, rfl, rfl, rfl⟩

/-- Settles O55. -/
theorem resetMeetsTheInvariants : Obligations.ResetMeetsTheInvariants := fun _ e a hp =>
  ⟨.resetWith hp e a, .resetWith hp e⟩

end Sys2Proof.Machine
end

section
/-! PROOFS. O1, O2 and O4: the encoder and the decoder are inverse (30_encoding.md R110 to R114, R126 to R129). Encoding after decoding
follows the rows of the operation-code map, each of which is one of three shapes: no operand byte, one, or any number of them. -/

namespace Sys2Proof

variable {code : Byte} {operands bytes : List Byte} {i : Instr} {w : CodeWord} {r : Except DecodeReject Instr}

/-! ## Operand bytes (R126; log entry 10) -/

theorem modeCode_of_modeOfCode {b : Byte} {m : Mode} (h : modeOfCode b = some m) : modeCode m = b := by
  cases m <;> decide +revert

theorem unimplCode_of_unimplOfCode {b : Byte} {m : UnimplMode} (h : unimplOfCode b = some m) : unimplCode m = b := by
  cases m <;> decide +revert

theorem linesCode_of_linesOfCode {b : Byte} {m : Bool × Bool} (h : linesOfCode b = some m) : linesCode m.1 m.2 = b := by
  obtain ⟨ms0, ms1⟩ := m
  decide +revert

/-! ## Command frames -/

theorem isWriteFrame_iff : isWriteFrame bytes = true ↔ ∃ a b c d e, bytes = [0xC0, a, b, c, d, e] := by
  constructor
  · intro h
    match bytes, h with
    | [p, a, b, c, d, e], h =>
      have hp : p = 0xC0 := by simpa [isWriteFrame, writePreamble] using h
      exact ⟨a, b, c, d, e, by rw [hp]⟩
  · rintro ⟨a, b, c, d, e, rfl⟩
    rfl

/-- Well-formedness of CMD_INVALID, in the terms of R114. -/
theorem wellFormed_cmdInvalid_iff : (Instr.cmdInvalid bytes).wellFormed = true ↔
    (∀ a b c d e, bytes ≠ [0xC0, a, b, c, d, e]) ∧ bytes ≠ [0xC1, 0xC1, 0xC1] := by
  simp [Instr.wellFormed, ← Bool.not_eq_true, isWriteFrame_iff, isReadFrame, readByteCode]

/-! ## Encoding what was decoded -/

/-- What the decoder's answer `r` on `w` stands for is well formed, and `w` is its code. -/
def EncodesTo (r : Except DecodeReject Instr) (w : CodeWord) : Prop :=
  ∀ i, r = .ok i → i.wellFormed = true ∧ encode i = w

namespace EncodesTo

theorem ok (hwf : i.wellFormed = true) (h : encode i = w) : EncodesTo (.ok i) w := by
  rintro _ ⟨⟩
  exact ⟨hwf, h⟩

theorem error {e : DecodeReject} : EncodesTo (.error e) w := nofun

theorem noOperand (hwf : i.wellFormed = true) (h : encode i = .op code []) :
    EncodesTo (noOperand code operands i) (.op code operands) := by
  cases operands with
  | nil => exact ok hwf h
  | cons b bs => exact error

theorem oneOperand {f : Byte → Option Instr} (h : ∀ b i, f b = some i → i.wellFormed = true ∧ encode i = .op code [b]) :
    EncodesTo (oneOperand code operands f) (.op code operands) := by
  unfold Sys2Proof.oneOperand
  split
  next b =>
    split
    next i hi => exact ok (h b i hi).1 (h b i hi).2
    next => exact error
  next => exact error

/-- An operand byte that `g` reads as an operand is the one by which `c` writes that operand. -/
theorem oneOperand_map {α : Type} {g : Byte → Option α} {c : α → Byte} {k : α → Instr} (hc : ∀ {b a}, g b = some a → c a = b)
    (h : ∀ a, (k a).wellFormed = true ∧ encode (k a) = .op code [c a]) :
    EncodesTo (Sys2Proof.oneOperand code operands fun b => (g b).map k) (.op code operands) := by
  refine oneOperand fun b i hi => ?_
  obtain ⟨a, ha, rfl⟩ := Option.map_eq_some_iff.1 hi
  exact hc ha ▸ h a

/-- An operation without a direction is decoded from a code whose bit 0 is clear. -/
theorem noSide (h : codeSide code = .H → EncodesTo r w) : EncodesTo (noSide code r) w := by
  unfold Sys2Proof.noSide
  split
  next => exact error
  next hbit => exact h (if_neg hbit)

end EncodesTo

/-- A frame is the code of the row it is classified as (R111 to R114). -/
theorem decodeFrame_encodesTo : EncodesTo (.ok (decodeFrame bytes)) (.frame bytes) := by
  by_cases hw : ∃ a b c d e, bytes = [0xC0, a, b, c, d, e]
  · obtain ⟨a, b, c, d, e, rfl⟩ := hw
    exact .ok rfl rfl
  by_cases hr : bytes = [0xC1, 0xC1, 0xC1]
  · subst hr
    exact .ok rfl rfl
  · have hw : ∀ a b c d e, bytes ≠ [0xC0, a, b, c, d, e] := fun a b c d e h => hw ⟨a, b, c, d, e, h⟩
    rw [Machine.decodeFrame_invalid hw hr]
    exact .ok (wellFormed_cmdInvalid_iff.2 ⟨hw, hr⟩) rfl

/-- The three fields of an operation code are all of it (R127). -/
theorem code_eq_fields (code : Byte) :
    code = BitVec.ofNat 8 (32 * codeUnit code + 2 * codeOperation code) ||| sideBit (codeSide code) := by
  revert code
  decide

/-- The word of the row of R128 with these fields. -/
theorem op_of_fields {u o : Nat} (hu : codeUnit code = u) (ho : codeOperation code = o) (operands : List Byte) :
    CodeWord.op (BitVec.ofNat 8 (32 * u + 2 * o) ||| sideBit (codeSide code)) operands = .op code operands := by
  rw [← hu, ← ho, ← code_eq_fields]

/-- Without a direction bit 0 adds nothing. -/
theorem op_of_fields_H {u o : Nat} (hu : codeUnit code = u) (ho : codeOperation code = o) (hs : codeSide code = .H)
    (operands : List Byte) : CodeWord.op (BitVec.ofNat 8 (32 * u + 2 * o)) operands = .op code operands := by
  rw [← op_of_fields hu ho, hs, show sideBit .H = 0#8 from rfl, BitVec.or_zero]

/-- An operation code is the code of the row of R128 that its fields name. -/
theorem decodeOp_encodesTo : EncodesTo (decodeOp code operands) (.op code operands) := by
  unfold decodeOp
  split
  -- Unit 000, the ring buffer.
  next hu ho => exact .oneOperand fun b _ h => Option.some.inj h ▸ ⟨rfl, op_of_fields hu ho [b]⟩
  next hu ho => exact .noOperand rfl (op_of_fields hu ho [])
  next hu ho => exact .noOperand rfl (op_of_fields hu ho [])
  next hu ho => exact .noOperand rfl (op_of_fields hu ho [])
  -- Unit 001, the configuration store.
  next hu ho => exact .noSide fun hs => .ok rfl (op_of_fields_H hu ho hs operands)
  next hu ho => exact .noSide fun hs => .noOperand rfl (op_of_fields_H hu ho hs [])
  next hu ho => exact .noSide fun hs => .ok rfl (op_of_fields_H hu ho hs operands)
  next hu ho => exact .noSide fun hs => .noOperand rfl (op_of_fields_H hu ho hs [])
  next hu ho => exact .noSide fun hs => .noOperand rfl (op_of_fields_H hu ho hs [])
  -- Unit 010, the bridge controller.
  next hu ho =>
    exact .noSide fun hs => .oneOperand_map linesCode_of_linesOfCode fun m => ⟨rfl, op_of_fields_H hu ho hs [linesCode m.1 m.2]⟩
  next hu ho =>
    exact .noSide fun hs => .oneOperand_map modeCode_of_modeOfCode fun m => ⟨rfl, op_of_fields_H hu ho hs [modeCode m]⟩
  next hu ho => exact .noSide fun hs => .noOperand rfl (op_of_fields_H hu ho hs [])
  next hu ho => exact .noSide fun hs => .noOperand rfl (op_of_fields_H hu ho hs [])
  next hu ho => exact .noOperand rfl (op_of_fields hu ho [])
  next hu ho => exact .noOperand rfl (op_of_fields hu ho [])
  next hu ho => exact .noOperand rfl (op_of_fields hu ho [])
  next hu ho => exact .noOperand rfl (op_of_fields hu ho [])
  next hu ho => exact .noOperand rfl (op_of_fields hu ho [])
  next hu ho => exact .noSide fun hs => .noOperand rfl (op_of_fields_H hu ho hs [])
  next hu ho =>
    exact .noSide fun hs => .oneOperand_map unimplCode_of_unimplOfCode fun m => ⟨rfl, op_of_fields_H hu ho hs [unimplCode m]⟩
  next hu ho => exact .noSide fun hs => .noOperand rfl (op_of_fields_H hu ho hs [])
  next hu ho => exact .noSide fun hs => .noOperand rfl (op_of_fields_H hu ho hs [])
  -- Unit 011, the events.
  next hu ho => exact .noOperand rfl (op_of_fields hu ho [])
  next hu ho => exact .oneOperand fun b _ h => Option.some.inj h ▸ ⟨rfl, op_of_fields hu ho [b]⟩
  next hu ho => exact .noSide fun hs => .noOperand rfl (op_of_fields_H hu ho hs [])
  -- Every other code is reserved.
  next => exact .error

/-- Settles O2, for the two forms of a code word. -/
theorem encodeOfDecode : Obligations.EncodeOfDecode
  | .op _ _, i => decodeOp_encodesTo i
  | .frame _, i => decodeFrame_encodesTo i

/-! ## Decoding what was encoded -/

/-- Settles O1. The decoder computes on each row's code, once a side, a mode or a pair of levels is known; only a frame of
CMD_INVALID needs the well-formedness premise. -/
theorem decodeOfEncode : Obligations.DecodeOfEncode := by
  intro i hwf
  cases i with
  | cmdInvalid bytes =>
    obtain ⟨hw, hr⟩ := wellFormed_cmdInvalid_iff.1 hwf
    exact congrArg Except.ok (Machine.decodeFrame_invalid hw hr)
  | rbEnqueue d | rbDequeue d | rbDrainAll d | rbAvailable d => cases d <;> rfl
  | dirPoll d | dirSizeCheck d | dirExpiry d | dirFlush d | normalService d => cases d <;> rfl
  | evTimerExpire d | evRxByte d => cases d <;> rfl
  | modeDecode ms0 ms1 => cases ms0 <;> cases ms1 <;> rfl
  | modeTransition m | unimplStep m => cases m <;> rfl
  | cmdWrite | cmdRead => rfl
  | cfgSetParams | cfgGetParams | cfgInputCommand | cfgAirRate | cfgUartBaud => rfl
  | enterSleep | leaveSleep | sleepStep | tick | startup | evReset => rfl

/-- Settles O4, word by word. -/
theorem tableWordsDecode : Obligations.TableWordsDecode :=
  ⟨rfl, rfl, rfl, rfl, rfl, rfl, rfl, rfl, rfl⟩

end Sys2Proof
end

section
/-! PROOFS. O5 to O7: which instruction a step runs, and in which phases (10_state.md R57 to R59, 42_bridge_controller.md R201). Every
way to ask for a step issues an instruction (`State.Issues`), and an issued instruction runs where it is enabled. -/

namespace Sys2Proof.Machine

variable {s : State} {i : Instr} {p : Phase}

/-! ## Where an instruction is enabled -/

/-- An instruction of the control loop runs wherever the loop may issue it. -/
theorem State.Enabled.issueLoop_eq (h : s.Enabled i) : issueLoop i s = exec i s := by
  unfold issueLoop
  split
  next hp => exact absurd hp h.not_halted
  next hp => exact absurd hp h.not_refused
  next hp => exact if_pos (h.wait hp)
  next hp => exact if_neg (by simp [h.startup hp])
  next => rfl

/-- An issued instruction runs when it is an event or enabled. -/
theorem issue_eq_exec (h : isEvent i = true ∨ s.Enabled i) : issue i s = exec i s := by
  unfold issue
  split
  next => rfl
  next hev => exact (h.resolve_left hev).issueLoop_eq

theorem State.Enabled.of_run (hp : s.phase = .run) : s.Enabled i where
  not_halted := by simp [hp]
  not_refused := by simp [hp]
  wait := by simp [hp]
  startup := by simp [hp]

theorem State.Enabled.of_startup (hp : s.phase = .startup) (hi : movesPhase i = false) : s.Enabled i where
  not_halted := by simp [hp]
  not_refused := by simp [hp]
  wait := by simp [hp]
  startup := fun _ => hi

/-- A held loop resumes its SLEEP_STEP. -/
theorem State.Enabled.of_sleepWait (hp : s.phase = .sleepWait) : s.Enabled .sleepStep where
  not_halted := by simp [hp]
  not_refused := by simp [hp]
  wait := fun _ => rfl
  startup := by simp [hp]

/-- The operations a tick ends with are SLEEP_STEP and UNIMPL_STEP. -/
theorem movesPhase_iff : movesPhase i = true ↔ i = .sleepStep ∨ ∃ m, i = .unimplStep m := by
  cases i <;> simp [movesPhase]

theorem isEvent_of_movesPhase (h : movesPhase i = true) : isEvent i = false := by
  rcases movesPhase_iff.1 h with rfl | ⟨m, rfl⟩ <;> rfl

/-- In STARTUP an operation that would move the phase is not enabled (R59). -/
theorem issue_startup_notEnabled (hp : s.phase = .startup) (hi : movesPhase i = true) : issue i s = .fault .notEnabled := by
  rw [issue, if_neg (by simp [isEvent_of_movesPhase hi]), issueLoop, hp]
  exact if_pos hi

/-- While the loop holds, no operation but the suspended one is enabled (R201). -/
theorem issue_sleepWait_notEnabled (hp : s.phase = .sleepWait) (hev : isEvent i = false) (hi : i ≠ .sleepStep) :
    issue i s = .fault .notEnabled := by
  rw [issue, if_neg (by simp [hev]), issueLoop, hp]
  exact if_neg hi

/-- Settles O5: the word is issued, and the four cases are those of an event or an enabled operation. -/
theorem stepRunsTheDecodedInstruction : Obligations.StepRunsTheDecodedInstruction := by
  intro s w rest i hs hw
  have hstep : step s = issue i (s.setAgenda rest) := (State.Issues.word hs hw).step_eq
  refine ⟨fun h => hstep.trans (issue_eq_exec ?_), fun h => hstep.trans ?_⟩
  · rcases h with hev | hp | ⟨hp, rfl⟩ | ⟨hp, hsleep, hunimpl⟩
    · exact .inl hev
    · exact .inr (.of_run hp)
    · exact .inr (.of_sleepWait hp)
    · have hi : ¬ movesPhase i = true := fun h => (movesPhase_iff.1 h).elim hsleep fun ⟨m, hm⟩ => hunimpl m hm
      exact .inr (.of_startup hp (by simpa using hi))
  · rcases h with ⟨hp, hi⟩ | ⟨hp, hev, hi⟩
    · exact issue_startup_notEnabled hp (movesPhase_iff.2 hi)
    · exact issue_sleepWait_notEnabled hp hev hi

/-! ## The loop's own step -/

/-- Settles O6: the loop's own step issues what the phase names, which is enabled in each of the three phases. -/
theorem loopTakesTheStepOfItsPhase : Obligations.LoopTakesTheStepOfItsPhase := by
  intro s s1 h
  obtain ⟨hphase, hstep⟩ : s1.phase = s.phase ∧ step s = issue (nextOfPhase s.phase) s1 := by
    rcases h with ⟨ha, rfl⟩ | ⟨rest, ha, rfl⟩
    · exact ⟨rfl, by rw [step, ha]; rfl⟩
    · exact ⟨rfl, (State.Issues.loop ha).step_eq⟩
  have hrun {i : Instr} (hi : nextOfPhase s.phase = i) (he : s1.Enabled i) : step s = exec i s1 := by
    rw [hstep, hi, issue_eq_exec (.inr he)]
  exact ⟨fun hp => hrun (by rw [hp]; rfl) (.of_startup (hphase.trans hp) rfl),
    fun hp => hrun (by rw [hp]; rfl) (.of_run (hphase.trans hp)),
    fun hp => hrun (by rw [hp]; rfl) (.of_sleepWait (hphase.trans hp))⟩

/-! ## A table word placed by `withFetchWord` (log entry 12) -/

theorem decodeTableWord_eq_some {nbits w : Nat} : decodeTableWord nbits w = some i ↔ decode (layOut nbits w) = .ok i := by
  unfold decodeTableWord
  split <;> simp [*]

/-- The step after `withFetchWord` issues the word's instruction in the phase chosen for it. -/
theorem step_withFetchWord {nbits w : Nat} (h : decode (layOut nbits w) = .ok i) :
    step (s.withFetchWord nbits w) = issue i (s.setPhase (issuePhase i s.phase)) := by
  have hphase : wordPhase (layOut nbits w) s.phase = issuePhase i s.phase := by rw [wordPhase, h]
  rw [State.withFetchWord, hphase, (State.Issues.word rfl h).step_eq]
  rfl

theorem issuePhase_event (h : isEvent i = true) : issuePhase i p = p := if_pos h

/-- The phase chosen for an operation of the loop is one in which it is enabled. -/
theorem enabled_issuePhase (hev : isEvent i = false) : (s.setPhase (issuePhase i p)).Enabled i := by
  unfold issuePhase
  split
  next h => exact absurd h (by simp [hev])
  split
  next => exact .of_run rfl
  next =>
    split
    next hi => exact .of_startup rfl (by rw [hi]; rfl)
    next =>
      cases p with
      | startup =>
        dsimp only
        split
        next => exact .of_run rfl
        next hm => exact .of_startup rfl (by simpa using hm)
      | sleepWait =>
        dsimp only
        split
        next hi =>
          subst hi
          exact .of_sleepWait rfl
        next => exact .of_run rfl
      | run | halted | refused => exact .of_run rfl

/-- Settles O7: the phase is the one `withFetchWord` chooses. -/
theorem fetchedWordRunsNext : Obligations.FetchedWordRunsNext := by
  intro s nbits w i h
  refine ⟨issuePhase i s.phase, ?_, issuePhase_event, ?_, ?_⟩
  · rw [step_withFetchWord (decodeTableWord_eq_some.1 h), issue_eq_exec]
    cases hev : isEvent i with
    | true => exact .inl rfl
    | false => exact .inr (enabled_issuePhase hev)
  · rintro rfl
    rfl
  · rintro rfl
    rfl

end Sys2Proof.Machine
end
